-- ==== Sys2Proof/Word.lean ====
section
/-! DEFINITION. The word the host port moves: 32 bits, numbered 31 down to 0 (spec R9, R40, R41). -/

namespace Sys2Proof

/-- One 32-bit word: what a transaction moves, what a control register holds (R20, R41). -/
abbrev Word := BitVec 32

/-- One byte of PackedBytes, or one character code of HEX (R17, R18). -/
abbrev Byte := BitVec 8

end Sys2Proof
end

