-- ==== Sys2Proof/Config.lean ====
section
/-! DEFINITION. The six open parameters of the block, the capacities that follow from them, the
reference profile P0, and the free values of the spec (R5 to R8, R37, R150). -/

namespace Sys2Proof

/-- The six free parameters of R5. They are sizes, so they are natural numbers.
`WellFormed.lean` states the constraints of R6. -/
structure Params where
  /-- `SYM_W`: width of a symbol in bits. -/
  symW : Nat
  /-- `TEXT_CAP`: capacity of TEXT in symbols. -/
  textCap : Nat
  /-- `ALPHA_CAP`: the largest number of distinct symbols (entries of FREQ and of CODE). -/
  alphaCap : Nat
  /-- `CODE_MAXLEN`: the largest code length in bits. -/
  codeMaxLen : Nat
  /-- `BIT_CAP`: capacity of BITS in bits. -/
  bitCap : Nat
  /-- `OUT_CAP`: capacity of OUT in symbols. -/
  outCap : Nat
  deriving DecidableEq, Repr

namespace Params

/-- `NODE_CAP = 2 * ALPHA_CAP - 1` nodes (R7). -/
def nodeCap (p : Params) : Nat := 2 * p.alphaCap - 1

/-- `BYTE_CAP = BIT_CAP / 8` bytes (R7). -/
def byteCap (p : Params) : Nat := p.bitCap / 8

/-- `HEX_CAP = 3 * BYTE_CAP - 1` characters (R7). -/
def hexCap (p : Params) : Nat := 3 * p.byteCap - 1

/-- `CODE_WORDS = ceil(CODE_MAXLEN / 32)` words of code bits in one CODE entry (R7). -/
def codeWords (p : Params) : Nat := (p.codeMaxLen + 31) / 32

/-- `S = 2 + CODE_WORDS`: the words one CODE entry takes (R46). -/
def codeStride (p : Params) : Nat := 2 + p.codeWords

end Params

namespace Config

/-- The reference profile P0 (R8). -/
def p0 : Params where
  symW := 21
  textCap := 4096
  alphaCap := 256
  codeMaxLen := 255
  bitCap := 32768
  outCap := 4096

/-- A FREE VALUE: the word an element of a buffer holds when nothing has written it since reset
(R37) or since a failed command left the buffer unspecified (R150). The arguments are the number of
the buffer's space, the number of times that buffer has become unspecified, and the word index. It
has no body: nothing can be proved of its value. Log entry 3. -/
opaque freeWord : Nat → Nat → Nat → Word

end Config

end Sys2Proof
end

