-- ==== Sys2Proof/Syntax.lean ====
section
/-! DEFINITION. The eleven commands of R61 (one constructor per row of `spec/opcode_table.json`) and
the two fields of the one command format CMDW (R60). -/

namespace Sys2Proof

/-- The commands of R61. Operands are implicit (R62, R63), so no constructor takes an argument. -/
inductive Instr where
  /-- R130 -/
  | nop
  /-- R80: `frequencies(text)` -/
  | freq
  /-- R85: `buildTree(freq)` -/
  | build
  /-- R95: `codeTable(tree)` -/
  | codes
  /-- R100: the Encoder -/
  | encode
  /-- R103: `compress(text)` -/
  | compress
  /-- R110: `pack(bits)` -/
  | pack
  /-- R114: `unpack(bytes)` -/
  | unpack
  /-- R116: `toHex(bytes)` -/
  | toHex
  /-- R120: `decompress(bits, tree)` -/
  | decode
  /-- R131 -/
  | clear
  deriving DecidableEq, Repr

/-- A command word taken apart into its two fields (R60): `rsvd` is bits 31:4, `opcode` bits 3:0.
Not every such pair is a command: `WellFormed.lean` says which are. -/
structure CmdWord where
  rsvd : BitVec 28
  opcode : BitVec 4
  deriving DecidableEq, Repr

/-- The eleven commands, in the order of the opcode map (R61). -/
def Instr.all : List Instr :=
  [.nop, .freq, .build, .codes, .encode, .compress, .pack, .unpack, .toHex, .decode, .clear]

end Sys2Proof
end

