-- ==== Sys2Proof/WellFormed.lean ====
section
/-! DEFINITION. What is well formed: a command word (R64) and a choice of the six parameters (R6).
An instruction has no operands, so every `Instr` is well formed. -/

namespace Sys2Proof

namespace CmdWord

/-- R60: bits 31:4 must be written 0. -/
def rsvdZero (c : CmdWord) : Bool := c.rsvd == 0

/-- R61: 0xB to 0xF are reserved opcodes. -/
def opcodeAssigned (c : CmdWord) : Bool := decide (c.opcode.toNat ≤ 0xA)

/-- R64: a command word is legal when both checks pass, and illegal otherwise. -/
def wellFormed (c : CmdWord) : Bool := c.rsvdZero && c.opcodeAssigned

end CmdWord

/-- R63: there is nothing to assemble from the command word, so no operand can be ill formed. -/
def Instr.wellFormed : Instr → Bool
  | .nop | .freq | .build | .codes | .encode | .compress | .pack | .unpack | .toHex | .decode
  | .clear => true

namespace Params

/-- R6: `1 <= SYM_W <= 31`. -/
abbrev SymWOk (p : Params) : Prop := 1 ≤ p.symW ∧ p.symW ≤ 31

/-- R6: `1 <= TEXT_CAP <= 2^28`. -/
abbrev TextCapOk (p : Params) : Prop := 1 ≤ p.textCap ∧ p.textCap ≤ 2 ^ 28

/-- R6: `1 <= ALPHA_CAP <= 2^25` and `ALPHA_CAP <= 2^SYM_W`. -/
abbrev AlphaCapOk (p : Params) : Prop :=
  1 ≤ p.alphaCap ∧ p.alphaCap ≤ 2 ^ 25 ∧ p.alphaCap ≤ 2 ^ p.symW

/-- R6: `1 <= CODE_MAXLEN <= 2^28`. -/
abbrev CodeMaxLenOk (p : Params) : Prop := 1 ≤ p.codeMaxLen ∧ p.codeMaxLen ≤ 2 ^ 28

/-- R6: `ALPHA_CAP * (2 + ceil(CODE_MAXLEN / 32)) <= 2^28`. -/
abbrev CodeSpaceOk (p : Params) : Prop := p.alphaCap * p.codeStride ≤ 2 ^ 28

/-- R6: `8 <= BIT_CAP <= 2^28` and `BIT_CAP mod 8 = 0`. -/
abbrev BitCapOk (p : Params) : Prop := 8 ≤ p.bitCap ∧ p.bitCap ≤ 2 ^ 28 ∧ p.bitCap % 8 = 0

/-- R6: `1 <= OUT_CAP <= 2^28`. -/
abbrev OutCapOk (p : Params) : Prop := 1 ≤ p.outCap ∧ p.outCap ≤ 2 ^ 28

/-- The constraints of R6, all of them. -/
abbrev Legal (p : Params) : Prop :=
  p.SymWOk ∧ p.TextCapOk ∧ p.AlphaCapOk ∧ p.CodeMaxLenOk ∧ p.CodeSpaceOk ∧ p.BitCapOk ∧ p.OutCapOk

end Params

end Sys2Proof
end

