-- ==== Sys2Proof/Decode.lean ====
section
/-! DEFINITION. Decoding a command word, total on all 32-bit values and rejecting by name (R64,
R65), and after it the encoder, written from the same table (R61). -/

namespace Sys2Proof

/-- Why a word is no command (R64). -/
inductive DecodeError where
  /-- bits 31:4 are not all 0 -/
  | reservedBits
  /-- the opcode is 0xB to 0xF -/
  | reservedOpcode
  deriving DecidableEq, Repr

/-- The two fields of a command word (R60). -/
def fieldsOf (w : Word) : CmdWord := ⟨w.extractLsb' 4 28, w.extractLsb' 0 4⟩

/-- The opcode map (R61). -/
def lookupOpcode (op : BitVec 4) : Option Instr :=
  match op.toNat with
  | 0x0 => some .nop
  | 0x1 => some .freq
  | 0x2 => some .build
  | 0x3 => some .codes
  | 0x4 => some .encode
  | 0x5 => some .compress
  | 0x6 => some .pack
  | 0x7 => some .unpack
  | 0x8 => some .toHex
  | 0x9 => some .decode
  | 0xA => some .clear
  | _ => none

/-- R65: a reserved bit makes the word illegal; otherwise the opcode is looked up in R61. -/
def decode (w : Word) : Except DecodeError Instr :=
  if (fieldsOf w).rsvd = 0 then
    match lookupOpcode (fieldsOf w).opcode with
    | some i => .ok i
    | none => .error .reservedOpcode
  else .error .reservedBits

/-- The opcode of a command (R61). -/
def opcodeOf : Instr → BitVec 4
  | .nop => 0x0
  | .freq => 0x1
  | .build => 0x2
  | .codes => 0x3
  | .encode => 0x4
  | .compress => 0x5
  | .pack => 0x6
  | .unpack => 0x7
  | .toHex => 0x8
  | .decode => 0x9
  | .clear => 0xA

/-- The one word of a command: the opcode in bits 3:0, zeros above (R60). -/
def encode (i : Instr) : Word := (0 : BitVec 28) ++ opcodeOf i

/-- The instruction the decoder reads from a row of `spec/opcode_table.json`: one word, bit 0 its
least significant bit. -/
def decodeTableWord (nbits w : Nat) : Option Instr :=
  if nbits ≤ 32 then (decode (BitVec.ofNat 32 (w % 2 ^ nbits))).toOption else none

end Sys2Proof
end

