-- ==== Sys2Proof/Machine/State.lean ====
section
/-! DEFINITION. The state of the block as plain data: the control registers of R20, the eight
buffers of R12 to R19, the parameter registers of R29; and, as the model's own fields, the host's
coming transactions and the last response of the port. -/

namespace Sys2Proof.Machine

open Sys2Proof

/-- `NIL = 0xFFFF_FFFF`: the pointer that points at no node (R28, R45). -/
def nilPtr : Word := 0xFFFFFFFF

/-- The eight buffers, which are address spaces 0x1 to 0x8 (R12 to R19, R40). Each has one length
register, so a `Space` names a length register too. -/
inductive Space where
  | text | freq | node | code | bits | bytes | hex | out
  deriving DecidableEq, Repr

/-- One buffer at the grain of the host port, a word (R40, R41).

`cells` lists the written words as (word index, word), indices strictly rising. A word that is not
listed is unspecified (R37, R150): it reads as the free value `Config.freeWord` of the buffer's
`draw`, the number of times the whole buffer has become unspecified. -/
structure Buf where
  cells : List (Nat × Word)
  draw : Nat
  deriving DecidableEq, Repr

/-- The eight buffers (R11). -/
structure Memory where
  text : Buf
  freq : Buf
  node : Buf
  code : Buf
  bits : Buf
  bytes : Buf
  hex : Buf
  out : Buf
  deriving DecidableEq, Repr

/-- The fields of STATUS (R23). The reserved bits read 0 and ignore writes, so nothing is kept of
them; `Status.word` (Flags.lean) is the word the host reads. -/
structure Status where
  busy : Bool
  done : Bool
  err : Bool
  op : BitVec 4
  stage : BitVec 4
  deriving DecidableEq, Repr

/-- The one field of CTRL, interrupt enable (R26); the other bits read 0 and ignore writes. -/
structure Ctrl where
  ie : Bool
  deriving DecidableEq, Repr

/-- What the port or the surroundings do next. Host transactions are R40's; `engine` is the instant
at which the engine executes the accepted command (R55); `progress` is the instant at which a
running COMPRESS passes to its next stage, seen in `STATUS.STAGE` (R23, R103); `rst` is a pulse of
the reset input (R170). -/
inductive PortEvent where
  | read (addr : Word)
  | write (addr value : Word)
  | engine
  | progress
  | rst
  deriving DecidableEq, Repr

/-- The response of the last host transaction (R52, R57). -/
inductive PortResponse where
  /-- no transaction since reset -/
  | idle
  /-- a write that was done -/
  | done
  /-- a read that returned this word -/
  | data (value : Word)
  /-- the error response -/
  | hostFault
  deriving DecidableEq, Repr

/-- The six resources of CapacityOverflow (R144). -/
inductive Resource where
  | freqTable | freqSum | codeLength | codeTable | bitString | outText
  deriving DecidableEq, Repr

/-- The error kinds of R141 to R146 with what ERRINFO needs. An error is no stop of the machine: it
is the failed completion of a command (R140, R153). -/
inductive CmdError where
  | emptyAlphabet
  | unknownSymbol (index : Nat)
  | malformedBitStream (missingChild : Bool) (index : Nat)
  | capacityOverflow (resource : Resource)
  | badTree (pointer : Word)
  | illegalCommand (word : Word)
  deriving DecidableEq, Repr

/-- The state of the block (R11, R20), and two fields of the model's own (`inbox`, `resp`). -/
structure State where
  /-- P_SYMW to P_OUTCAP, 0x10 to 0x15 (R29) -/
  params : Params
  /-- CMD, 0x01 (R22) -/
  cmd : Word
  /-- STATUS, 0x02 (R23) -/
  status : Status
  /-- ERRCODE, 0x03 (R24) -/
  errCode : Word
  /-- ERRINFO, 0x04 (R25) -/
  errInfo : Word
  /-- CTRL, 0x05 (R26) -/
  ctrl : Ctrl
  /-- TEXTLEN, 0x06 (R27) -/
  textLen : Word
  /-- FREQN, 0x07 (R27) -/
  freqN : Word
  /-- NODEN, 0x08 (R27) -/
  nodeN : Word
  /-- ROOT, 0x09 (R28) -/
  root : Word
  /-- CODEN, 0x0A (R27) -/
  codeN : Word
  /-- BITLEN, 0x0B (R27) -/
  bitLen : Word
  /-- BYTELEN, 0x0C (R27) -/
  byteLen : Word
  /-- HEXLEN, 0x0D (R27) -/
  hexLen : Word
  /-- OUTLEN, 0x0E (R27) -/
  outLen : Word
  /-- TEXT, FREQ, NODE, CODE, BITS, BYTES, HEX, OUT (R12 to R19) -/
  mem : Memory
  /-- The model's own: what comes next, first event first. Log entry 4. -/
  inbox : List PortEvent
  /-- The model's own: the port's response to the last transaction. Log entry 4. -/
  resp : PortResponse
  deriving DecidableEq, Repr

/-- Where the machine stops. The spec gives every state a defined next step (93, part 2), so the one
fault is for states no run reaches. -/
inductive Fault where
  /-- Raised by the engine when `STATUS.BUSY = 1` and CMD holds no command. R66 never lets that
  happen. Safe: it stops a state the hardware cannot be in. Log entry 12. -/
  | busyWithoutCommand
  deriving DecidableEq, Repr

/-- Why an instruction has no meaning here. -/
inductive Refusal where
  /-- Raised by an arm of `exec` for an instruction without a meaning; no arm is such. Safe. -/
  | notModelled (mnemonic : String)
  deriving DecidableEq, Repr

/-- A buffer of which nothing has been written since reset (R37). -/
def Buf.fresh : Buf := ⟨[], 0⟩

/-- Right after reset (R37, R170), with the reference profile P0 as the parameters (R8, log entry
1). -/
def State.reset : State where
  params := Config.p0
  cmd := 0
  status := ⟨false, false, false, 0, 0⟩
  errCode := 0
  errInfo := 0
  ctrl := ⟨false⟩
  textLen := 0
  freqN := 0
  nodeN := 0
  root := nilPtr
  codeN := 0
  bitLen := 0
  byteLen := 0
  hexLen := 0
  outLen := 0
  mem := ⟨.fresh, .fresh, .fresh, .fresh, .fresh, .fresh, .fresh, .fresh⟩
  inbox := []
  resp := .idle

end Sys2Proof.Machine
end

