-- ==== Sys2Proof/Machine/Flags.lean ====
section
/-! DEFINITION. The flags BUSY, DONE, ERR with OP and STAGE: the words of STATUS and CTRL, what
acceptance and completion do to them, the error numbers, and the interrupt line (R23, R24, R26, R33,
R66, R67, R147, R155). -/

namespace Sys2Proof.Machine

open Sys2Proof

/-- STATUS as the host reads it: {0, STAGE, OP, 0, ERR, DONE, BUSY} (R23). -/
def Status.word (f : Status) : Word :=
  (0 : BitVec 20) ++ f.stage ++ f.op ++ (0 : BitVec 1) ++ BitVec.ofBool f.err
    ++ BitVec.ofBool f.done ++ BitVec.ofBool f.busy

/-- A host write to STATUS acts only on bit 1, which clears DONE when it is 1 (R23). -/
def Status.hostWrite (f : Status) (v : Word) : Status :=
  if v.getLsbD 1 then { f with done := false } else f

/-- CTRL as the host reads it (R26). -/
def Ctrl.word (c : Ctrl) : Word := (0 : BitVec 31) ++ BitVec.ofBool c.ie

/-- What a host write leaves in CTRL (R26). -/
def Ctrl.ofWord (v : Word) : Ctrl := ⟨v.getLsbD 0⟩

/-- STAGE at acceptance: 0x1 for the word of COMPRESS, else the opcode field (R66). -/
def firstStage (w : Word) : BitVec 4 :=
  if w = encode .compress then 0x1 else (fieldsOf w).opcode

/-- The flags at acceptance of the word `w` (R66), before BUSY is set for a legal word. -/
def Status.accept (f : Status) (w : Word) : Status where
  busy := f.busy
  done := false
  err := false
  op := (fieldsOf w).opcode
  stage := firstStage w

/-- The flags at completion without error (R67): ERR stays. -/
def Status.complete (f : Status) : Status := { f with busy := false, done := true }

/-- The flags at completion with an error (R67, R153). -/
def Status.fail (f : Status) : Status := { f with busy := false, done := true, err := true }

/-- The resource numbers of CapacityOverflow (R144). -/
def Resource.number : Resource → Word
  | .freqTable => 1
  | .freqSum => 2
  | .codeLength => 3
  | .codeTable => 4
  | .bitString => 5
  | .outText => 6

/-- ERRCODE of an error (R24, R141 to R146). -/
def CmdError.code : CmdError → Word
  | .emptyAlphabet => 1
  | .unknownSymbol _ => 2
  | .malformedBitStream _ _ => 3
  | .capacityOverflow _ => 4
  | .badTree _ => 5
  | .illegalCommand _ => 6

/-- ERRINFO of an error (R147). -/
def CmdError.info : CmdError → Word
  | .emptyAlphabet => 0
  | .unknownSymbol i => BitVec.ofNat 32 i
  | .malformedBitStream missing i => BitVec.ofBool missing ++ BitVec.ofNat 31 i
  | .capacityOverflow r => r.number
  | .badTree p => p
  | .illegalCommand w => w

/-- The interrupt line: `IRQ = CTRL.IE and STATUS.DONE` (R155). -/
def State.irq (s : State) : Bool := s.ctrl.ie && s.status.done

end Sys2Proof.Machine
end

