-- ==== Sys2Proof/Machine/Ops.lean ====
section
/-! DEFINITION. The named operations over memory and registers: spaces and element layouts (R40 to
R49), reading and writing one word, the length registers (R27), acceptance of a command (R66), its
completion (R67), taking an error (R150, R153: what stands here for taking an exception; the return
from it is the acceptance of the next command, R154), and the reset input (R170, R171). -/

namespace Sys2Proof.Machine

open Sys2Proof

/-! ## Spaces and layouts -/

/-- All eight buffers. -/
def Space.all : List Space := [.text, .freq, .node, .code, .bits, .bytes, .hex, .out]

/-- The space number in an address (R40). -/
def Space.number : Space → Nat
  | .text => 0x1
  | .freq => 0x2
  | .node => 0x3
  | .code => 0x4
  | .bits => 0x5
  | .bytes => 0x6
  | .hex => 0x7
  | .out => 0x8

/-- The capacity of a buffer in elements, which bounds its length register (R27). -/
def Space.cap (p : Params) : Space → Nat
  | .text => p.textCap
  | .freq => p.alphaCap
  | .node => p.nodeCap
  | .code => p.alphaCap
  | .bits => p.bitCap
  | .bytes => p.byteCap
  | .hex => p.hexCap
  | .out => p.outCap

/-- The words one element takes (R42 to R49). -/
def Space.stride (p : Params) : Space → Nat
  | .freq => 2
  | .node => 4
  | .code => p.codeStride
  | .text | .bits | .bytes | .hex | .out => 1

/-- The size of a space in words (R40, R53). -/
def Space.size (p : Params) (sp : Space) : Nat := sp.cap p * sp.stride p

/-- HEX and OUT are read-only to the host (R40, R43, R49). -/
def Space.hostWritable : Space → Bool
  | .hex | .out => false
  | .text | .freq | .node | .code | .bits | .bytes => true

/-- The low `n` bits of a word, zeros above (R41). -/
def lowBits (n : Nat) (w : Word) : Word := (w.setWidth n).setWidth 32

/-- Bit 31 of a node's first word (R45). -/
def kindBit : Word := 0x80000000

/-- What of a word the element at a word index keeps (R41 to R49). A CODE `len` word holds 0 to
`CODE_MAXLEN`; no write brings a larger value here (R46), and a free value is brought into that
range. -/
def Space.layout (p : Params) (sp : Space) (i : Nat) (w : Word) : Word :=
  match sp with
  | .text | .out => lowBits p.symW w
  | .freq => if i % 2 = 0 then lowBits p.symW w else w
  | .node => if i % 4 = 0 then (w &&& kindBit) ||| lowBits p.symW w else w
  | .code =>
    if i % p.codeStride = 0 then lowBits p.symW w
    else if i % p.codeStride = 1 then BitVec.ofNat 32 (w.toNat % (p.codeMaxLen + 1))
    else w
  | .bits => lowBits 1 w
  | .bytes | .hex => lowBits 8 w

/-! ## Buffers -/

/-- Write one word into the sorted list of written words. -/
def cellsPut (i : Nat) (w : Word) : List (Nat × Word) → List (Nat × Word)
  | [] => [(i, w)]
  | (j, v) :: rest =>
    if i < j then (i, w) :: (j, v) :: rest
    else if i = j then (i, w) :: rest
    else (j, v) :: cellsPut i w rest

/-- The word at a word index, if one has been written. -/
def Buf.find (b : Buf) (i : Nat) : Option Word := b.cells.lookup i

/-- Write one word. -/
def Buf.put (b : Buf) (i : Nat) (w : Word) : Buf := { b with cells := cellsPut i w b.cells }

/-- Every element becomes unspecified: nothing is listed and the free values are drawn anew (R37,
R150). -/
def Buf.forget (b : Buf) : Buf := ⟨[], b.draw + 1⟩

/-- The buffer of a space. -/
def Memory.get (m : Memory) : Space → Buf
  | .text => m.text
  | .freq => m.freq
  | .node => m.node
  | .code => m.code
  | .bits => m.bits
  | .bytes => m.bytes
  | .hex => m.hex
  | .out => m.out

/-- Replace the buffer of a space. -/
def Memory.set (m : Memory) (sp : Space) (b : Buf) : Memory :=
  match sp with
  | .text => { m with text := b }
  | .freq => { m with freq := b }
  | .node => { m with node := b }
  | .code => { m with code := b }
  | .bits => { m with bits := b }
  | .bytes => { m with bytes := b }
  | .hex => { m with hex := b }
  | .out => { m with out := b }

/-- Every buffer's elements become unspecified (R170, R171). -/
def Memory.forgetAll (m : Memory) : Memory where
  text := m.text.forget
  freq := m.freq.forget
  node := m.node.forget
  code := m.code.forget
  bits := m.bits.forget
  bytes := m.bytes.forget
  hex := m.hex.forget
  out := m.out.forget

/-- The canonical form of one buffer: indices strictly rising, each inside the space, each word in
the element's layout. An unlisted word is unspecified, so no listed word says the same as leaving it
out. -/
abbrev Buf.wf (p : Params) (sp : Space) (b : Buf) : Prop :=
  b.cells.Pairwise (fun x y => x.1 < y.1) ∧
    ∀ c ∈ b.cells, c.1 < sp.size p ∧ sp.layout p c.1 c.2 = c.2

/-- The canonical form of memory. -/
abbrev Memory.wf (p : Params) (m : Memory) : Prop := ∀ sp ∈ Space.all, (m.get sp).wf p sp

/-! ## One word of memory -/

/-- The word at a word index of a space: the written one, or the free value in the element's layout.
It changes only when something writes it, so a read is stable (R37, R51). -/
def State.word (s : State) (sp : Space) (i : Nat) : Word :=
  match (s.mem.get sp).find i with
  | some w => w
  | none => sp.layout s.params i (Config.freeWord sp.number (s.mem.get sp).draw i)

/-- Write one word; the bits above its field are ignored (R41). -/
def State.putWord (s : State) (sp : Space) (i : Nat) (w : Word) : State :=
  { s with mem := s.mem.set sp ((s.mem.get sp).put i (sp.layout s.params i w)) }

/-- Write consecutive words from a word index on. -/
def State.putWords (s : State) (sp : Space) (i : Nat) : List Word → State
  | [] => s
  | w :: ws => (s.putWord sp i w).putWords sp (i + 1) ws

/-- Every element of one buffer becomes unspecified (R150). -/
def State.forget (s : State) (sp : Space) : State :=
  { s with mem := s.mem.set sp (s.mem.get sp).forget }

/-! ## Length registers -/

/-- The length register of a buffer (R27). -/
def State.len (s : State) : Space → Word
  | .text => s.textLen
  | .freq => s.freqN
  | .node => s.nodeN
  | .code => s.codeN
  | .bits => s.bitLen
  | .bytes => s.byteLen
  | .hex => s.hexLen
  | .out => s.outLen

/-- Write the length register of a buffer. -/
def State.setLen (s : State) (sp : Space) (v : Word) : State :=
  match sp with
  | .text => { s with textLen := v }
  | .freq => { s with freqN := v }
  | .node => { s with nodeN := v }
  | .code => { s with codeN := v }
  | .bits => { s with bitLen := v }
  | .bytes => { s with byteLen := v }
  | .hex => { s with hexLen := v }
  | .out => { s with outLen := v }

/-- Write ROOT. -/
def State.setRoot (s : State) (v : Word) : State := { s with root := v }

/-! ## What a command leaves in a destination -/

/-- A destination takes its new value: its words from index 0 on and its length (R149). -/
def State.deliver (s : State) (sp : Space) (n : Nat) (ws : List Word) : State :=
  (s.putWords sp 0 ws).setLen sp (BitVec.ofNat 32 n)

/-- A destination becomes empty by its length; with the Tree goes ROOT (R150). -/
def State.emptyDest (s : State) (sp : Space) : State :=
  let t := s.setLen sp 0
  if sp = .node then t.setRoot nilPtr else t

/-- A destination of a failed stage: empty, and its elements unspecified (R150). -/
def State.voidDest (s : State) (sp : Space) : State := (s.emptyDest sp).forget sp

/-! ## Acceptance, completion, error -/

/-- Write `STATUS.STAGE` (R23, R103). -/
def State.setStage (s : State) (n : BitVec 4) : State :=
  { s with status := { s.status with stage := n } }

/-- Completion without error (R67): ERR, ERRCODE and ERRINFO stay. -/
def State.complete (s : State) : State := { s with status := s.status.complete }

/-- TAKING AN ERROR (R67, R140, R153), what stands here for taking an exception: the kind goes to
ERRCODE, the detail to ERRINFO, ERR and DONE are set and BUSY is cleared, in one step. Nothing else
is saved. What the destinations become is `voidDest` and `emptyDest`. -/
def State.takeError (s : State) (e : CmdError) : State :=
  { s with status := s.status.fail, errCode := e.code, errInfo := e.info }

/-- ACCEPTANCE of the word `w` (R66), which is also what stands for the return from an error (R154):
DONE, ERR, ERRCODE and ERRINFO are cleared. A legal word sets BUSY; an illegal one completes at once
with IllegalCommand and the engine does not run. -/
def State.accept (s : State) (w : Word) : State :=
  let t := { s with cmd := w, status := s.status.accept w, errCode := 0, errInfo := 0 }
  match decode w with
  | .ok _ => { t with status := { t.status with busy := true } }
  | .error _ => t.takeError (.illegalCommand w)

/-- A command with one destination: the body's result and completion, or the error with the
destination void (R67, R149, R150). -/
def State.runBody (s : State) (dest : Space) (body : State → Except CmdError State) : State :=
  match body s with
  | .ok t => t.complete
  | .error e => (s.voidDest dest).takeError e

/-! ## Reset -/

/-- The reset input: every register at its reset value, every buffer element unspecified, whatever
ran is abandoned (R37, R170, R171). The parameters are the block's own and stay. -/
def State.rst (s : State) : State :=
  { State.reset with params := s.params, mem := s.mem.forgetAll, inbox := s.inbox }

end Sys2Proof.Machine
end

