-- ==== Sys2Proof/Machine/Operands.lean ====
section
/-! DEFINITION. The operand forms: each source buffer, below its length, as the sequence of elements
it stands for (R12 to R17, R62, R63), and the words of an element (R42 to R50). -/

namespace Sys2Proof.Machine

open Sys2Proof

/-- One entry of the FrequencyMap (R13). The count is an exact number while it is computed (R73). -/
structure FreqEntry where
  sym : Word
  cnt : Nat
  deriving DecidableEq, Repr

/-- The KIND of a node (R14). -/
inductive NodeKind where
  | leaf
  | internal
  deriving DecidableEq, Repr

/-- One node of the arena (R14). -/
structure TreeNode where
  kind : NodeKind
  sym : Word
  freq : Word
  left : Word
  right : Word
  deriving DecidableEq, Repr

/-- One entry of the CodeTable (R15); its `len` is the number of its bits, bit 0 first. -/
structure CodeEntry where
  sym : Word
  bits : List Bool
  deriving DecidableEq, Repr

/-! ## Bits and words -/

/-- The number a sequence of bits stands for, first bit most significant (R9 "MSB-first"). -/
def msbFirst (bs : List Bool) : Nat := bs.foldl (fun acc b => 2 * acc + b.toNat) 0

/-- Group `j` of `width` bits of a bit string, filled up with 0 beyond its end (R46, R110). -/
def bitGroup (width : Nat) (bs : List Bool) (j : Nat) : List Bool :=
  (List.range width).map fun k => bs.getD (width * j + k) false

/-- The word that holds one bit (R47). -/
def bitWord (b : Bool) : Word := if b then 1 else 0

/-! ## The words of an element -/

/-- R44. -/
def FreqEntry.words (e : FreqEntry) : List Word := [e.sym, BitVec.ofNat 32 e.cnt]

/-- KIND in bit 31, the symbol below it (R45). -/
def TreeNode.headWord (n : TreeNode) : Word :=
  match n.kind with
  | .leaf => n.sym
  | .internal => kindBit ||| n.sym

/-- R45. -/
def TreeNode.words (n : TreeNode) : List Word := [n.headWord, n.freq, n.left, n.right]

/-- Symbol, length, then the code words, bits beyond the length 0 (R46). -/
def CodeEntry.words (p : Params) (e : CodeEntry) : List Word :=
  e.sym :: BitVec.ofNat 32 e.bits.length ::
    (List.range p.codeWords).map fun j => BitVec.ofNat 32 (msbFirst (bitGroup 32 e.bits j))

/-! ## The element at an index -/

/-- `FREQ[e]` (R44). -/
def State.freqAt (s : State) (e : Nat) : FreqEntry :=
  ⟨s.word .freq (2 * e), (s.word .freq (2 * e + 1)).toNat⟩

/-- KIND of a node's first word (R45). -/
def kindOf (w : Word) : NodeKind := if w.getLsbD 31 then .internal else .leaf

/-- `NODE[n]` (R45). -/
def State.nodeAt (s : State) (n : Nat) : TreeNode where
  kind := kindOf (s.word .node (4 * n))
  sym := lowBits s.params.symW (s.word .node (4 * n))
  freq := s.word .node (4 * n + 1)
  left := s.word .node (4 * n + 2)
  right := s.word .node (4 * n + 3)

/-- `CODE[e].bit(k)`: bit `31 - (k mod 32)` of word `2 + (k div 32)` of the entry (R46). -/
def State.codeBit (s : State) (e k : Nat) : Bool :=
  (s.word .code (e * s.params.codeStride + (2 + k / 32))).getLsbD (31 - k % 32)

/-- `CODE[e]` (R46). -/
def State.codeAt (s : State) (e : Nat) : CodeEntry where
  sym := s.word .code (e * s.params.codeStride)
  bits := (List.range (s.word .code (e * s.params.codeStride + 1)).toNat).map (s.codeBit e)

/-! ## The values in the buffers -/

/-- The elements below a length. -/
def below {α : Type} (n : Word) (at_ : Nat → α) : List α := (List.range n.toNat).map at_

/-- TEXT below TEXTLEN (R12). -/
def State.text (s : State) : List Word := below s.textLen (s.word .text)

/-- FREQ below FREQN, in map order (R13). -/
def State.freqMap (s : State) : List FreqEntry := below s.freqN s.freqAt

/-- NODE below NODEN (R14). -/
def State.nodes (s : State) : List TreeNode := below s.nodeN s.nodeAt

/-- CODE below CODEN (R15). -/
def State.codeTable (s : State) : List CodeEntry := below s.codeN s.codeAt

/-- BITS below BITLEN (R16). -/
def State.bitString (s : State) : List Bool :=
  below s.bitLen fun i => (s.word .bits i).getLsbD 0

/-- BYTES below BYTELEN (R17). -/
def State.packedBytes (s : State) : List Byte :=
  below s.byteLen fun j => (s.word .bytes j).setWidth 8

/-- HEX below HEXLEN (R18). -/
def State.hexString (s : State) : List Byte :=
  below s.hexLen fun k => (s.word .hex k).setWidth 8

/-- OUT below OUTLEN (R19). -/
def State.outText (s : State) : List Word := below s.outLen (s.word .out)

/-- The node a pointer points at: there is one when `valid(p)`, that is `p != NIL and p < NODEN`
(00_scope.md 5.1); `ns` are the nodes below NODEN. -/
def nodeOf (ns : List TreeNode) (p : Word) : Option TreeNode :=
  if p = nilPtr then none else ns[p.toNat]?

end Sys2Proof.Machine
end

