-- ==== Sys2Proof/Machine/BitPacker.lean ====
section
/-! DEFINITION. BitPacker: the commands PACK, UNPACK and TOHEX (spec 44, R110 to R118). -/

namespace Sys2Proof.Machine

open Sys2Proof

/-- `pack(bits)`: groups of eight, first bit most significant, the last filled up with 0 (R110). -/
def packBits (bs : List Bool) : List Byte :=
  (List.range ((bs.length + 7) / 8)).map fun j => BitVec.ofNat 8 (msbFirst (bitGroup 8 bs j))

/-- `pack(bits)` into BYTES and BYTELEN. -/
def packBody (s : State) : Except CmdError State :=
  let out := packBits s.bitString
  .ok (s.deliver .bytes out.length (out.map (BitVec.setWidth 32)))

/-- PACK (R110). -/
def execPack (s : State) : Host.Outcome State Fault Refusal := .next (s.runBody .bytes packBody)

/-- One byte's bits, most significant first (R114). -/
def byteBits (b : Byte) : List Bool := (List.range 8).map fun k => b.getLsbD (7 - k)

/-- `unpack(bytes)` (R114). -/
def unpackBytes (bytes : List Byte) : List Bool := bytes.flatMap byteBits

/-- `unpack(bytes)` into BITS and BITLEN. -/
def unpackBody (s : State) : Except CmdError State :=
  let out := unpackBytes s.packedBytes
  .ok (s.deliver .bits out.length (out.map bitWord))

/-- UNPACK (R114). -/
def execUnpack (s : State) : Host.Outcome State Fault Refusal := .next (s.runBody .bits unpackBody)

/-- The character code of a lowercase hex digit (R117). -/
def hexDigit (d : Nat) : Byte :=
  if d < 10 then BitVec.ofNat 8 (0x30 + d) else BitVec.ofNat 8 (0x61 + d - 10)

/-- `toHex(bytes)`: two digits a byte, a space between neighbours (R116). -/
def hexOf : List Byte → List Byte
  | [] => []
  | [b] => [hexDigit (b.toNat / 16), hexDigit (b.toNat % 16)]
  | b :: c :: rest => hexDigit (b.toNat / 16) :: hexDigit (b.toNat % 16) :: 0x20 :: hexOf (c :: rest)

/-- `toHex(bytes)` into HEX and HEXLEN. -/
def toHexBody (s : State) : Except CmdError State :=
  let out := hexOf s.packedBytes
  .ok (s.deliver .hex out.length (out.map (BitVec.setWidth 32)))

/-- TOHEX (R116). -/
def execToHex (s : State) : Host.Outcome State Fault Refusal := .next (s.runBody .hex toHexBody)

end Sys2Proof.Machine
end

