-- ==== Sys2Proof/Machine/CodeTableGenerator.lean ====
section
/-! DEFINITION. CodeTableGenerator: the command CODES (spec 42, R95 to R99). -/

namespace Sys2Proof.Machine

open Sys2Proof

/-- `walk(p, acc)` of R96. `room` is how many bits `acc` may still grow by (`CODE_MAXLEN` less its
length), `n` is node `p`, `out` the entries recorded so far, at most `cap`. -/
def walk (cap : Nat) (ns : List TreeNode) : Nat → Word → TreeNode → List Bool → List CodeEntry →
    Except CmdError (List CodeEntry)
  | 0, _, n, acc, out =>
    match n.kind with
    | .leaf =>
      if out.length = cap then .error (.capacityOverflow .codeTable)
      else .ok (out ++ [⟨n.sym, acc⟩])
    | .internal => .error (.capacityOverflow .codeLength)
  | room + 1, p, n, acc, out =>
    match n.kind with
    | .leaf =>
      if out.length = cap then .error (.capacityOverflow .codeTable)
      else .ok (out ++ [⟨n.sym, acc⟩])
    | .internal =>
      match nodeOf ns n.left with
      | none => .error (.badTree p)
      | some l =>
        match walk cap ns room n.left l (acc ++ [false]) out with
        | .error e => .error e
        | .ok out' =>
          match nodeOf ns n.right with
          | none => .error (.badTree p)
          | some r => walk cap ns room n.right r (acc ++ [true]) out'

/-- `codeTable(tree)`: the traversal from the root (R96). -/
def codeTableOf (p : Params) (ns : List TreeNode) (root : Word) :
    Except CmdError (List CodeEntry) :=
  match nodeOf ns root with
  | none => .error (.badTree root)
  | some n => walk p.alphaCap ns p.codeMaxLen root n [] []

/-- `codeTable(tree)` into CODE and CODEN. -/
def codesBody (s : State) : Except CmdError State :=
  match codeTableOf s.params s.nodes s.root with
  | .ok tbl => .ok (s.deliver .code tbl.length (tbl.flatMap (CodeEntry.words s.params)))
  | .error e => .error e

/-- CODES (R95). -/
def execCodes (s : State) : Host.Outcome State Fault Refusal := .next (s.runBody .code codesBody)

end Sys2Proof.Machine
end

