-- ==== Sys2Proof/Machine/Decoder.lean ====
section
/-! DEFINITION. Decoder: the command DECODE (spec 45, R120 to R128). -/

namespace Sys2Proof.Machine

open Sys2Proof

/-- The loop of R121: `i` is the index of the next bit, `pos` the node the walk stands on, `mid` the
mid-walk flag, `out` the symbols so far, at most `cap`. When the bits are used up `i` is BITLEN. -/
def decodeFrom (cap : Nat) (ns : List TreeNode) (root : TreeNode) : List Bool → Nat → TreeNode →
    Bool → List Word → Except CmdError (List Word)
  | [], i, _, mid, out => if mid then .error (.malformedBitStream false i) else .ok out
  | b :: bs, i, pos, _, out =>
    match pos.kind with
    | .leaf => .error (.malformedBitStream true i)
    | .internal =>
      match nodeOf ns (if b then pos.right else pos.left) with
      | none => .error (.malformedBitStream true i)
      | some c =>
        match c.kind with
        | .internal => decodeFrom cap ns root bs (i + 1) c true out
        | .leaf =>
          if out.length = cap then .error (.capacityOverflow .outText)
          else decodeFrom cap ns root bs (i + 1) root false (out ++ [c.sym])

/-- `decompress(bits, tree)`: the walk from the root, an absent tree refused first (R121, R124). -/
def decodeBits (cap : Nat) (ns : List TreeNode) (root : Word) (bs : List Bool) :
    Except CmdError (List Word) :=
  match nodeOf ns root with
  | none => .error (.badTree root)
  | some n => decodeFrom cap ns n bs 0 n false []

/-- `decompress(bits, tree)` into OUT and OUTLEN. -/
def decodeBody (s : State) : Except CmdError State :=
  match decodeBits s.params.outCap s.nodes s.root s.bitString with
  | .ok out => .ok (s.deliver .out out.length out)
  | .error e => .error e

/-- DECODE (R120). -/
def execDecode (s : State) : Host.Outcome State Fault Refusal := .next (s.runBody .out decodeBody)

end Sys2Proof.Machine
end

