-- ==== Sys2Proof/Machine/FrequencyCounter.lean ====
section
/-! DEFINITION. FrequencyCounter: the command FREQ (spec 40, R80 to R83). -/

namespace Sys2Proof.Machine

open Sys2Proof

/-- One symbol of the scan (R80): a known symbol's count grows by one, a new symbol is appended with
count 1, or the table of `cap` entries is full. -/
def countSymbol (cap : Nat) (tbl : List FreqEntry) (x : Word) : Except CmdError (List FreqEntry) :=
  if tbl.any (fun e => e.sym == x) then
    .ok (tbl.map fun e => if e.sym = x then { e with cnt := e.cnt + 1 } else e)
  else if tbl.length = cap then .error (.capacityOverflow .freqTable)
  else .ok (tbl ++ [⟨x, 1⟩])

/-- The scan of the text, first symbol to last (R80). -/
def countSymbols (cap : Nat) : List Word → List FreqEntry → Except CmdError (List FreqEntry)
  | [], tbl => .ok tbl
  | x :: xs, tbl =>
    match countSymbol cap tbl x with
    | .ok tbl' => countSymbols cap xs tbl'
    | .error e => .error e

/-- `frequencies(text)` into FREQ and FREQN. -/
def freqBody (s : State) : Except CmdError State :=
  match countSymbols s.params.alphaCap s.text [] with
  | .ok tbl => .ok (s.deliver .freq tbl.length (tbl.flatMap FreqEntry.words))
  | .error e => .error e

/-- FREQ (R80). -/
def execFreq (s : State) : Host.Outcome State Fault Refusal := .next (s.runBody .freq freqBody)

end Sys2Proof.Machine
end

