-- ==== Sys2Proof/Machine/TreeBuilder.lean ====
section
/-! DEFINITION. TreeBuilder: the command BUILD (spec 41, R85 to R93). -/

namespace Sys2Proof.Machine

open Sys2Proof

/-- One entry of the pool of unmerged nodes (R34): the node's index, with its frequency beside it. -/
structure PoolEntry where
  idx : Nat
  freq : Nat
  deriving DecidableEq, Repr

/-- Put `x` before the first entry whose frequency is not below its own. -/
def insertByFreq (x : PoolEntry) : List PoolEntry → List PoolEntry
  | [] => [x]
  | y :: ys => if x.freq ≤ y.freq then x :: y :: ys else y :: insertByFreq x ys

/-- `stable_sort_by_freq(pool)`: ascending, equal frequencies in their old order (R88). -/
def stableSort : List PoolEntry → List PoolEntry
  | [] => []
  | x :: xs => insertByFreq x (stableSort xs)

/-- A Leaf as BUILD writes it (R45, R85). -/
def leafNode (e : FreqEntry) : TreeNode :=
  ⟨.leaf, e.sym, BitVec.ofNat 32 e.cnt, nilPtr, nilPtr⟩

/-- An Internal node as BUILD writes it (R45, R85). -/
def internalNode (freq left right : Nat) : TreeNode :=
  ⟨.internal, 0, BitVec.ofNat 32 freq, BitVec.ofNat 32 left, BitVec.ofNat 32 right⟩

/-- The merge loop of R85: `k` merges are left, `ns` are the nodes made so far (so the next free
index is their number), `pool` the unmerged ones. The sum is exact (R73). -/
def mergeLoop : Nat → List TreeNode → List PoolEntry →
    Except CmdError (List TreeNode × List PoolEntry)
  | 0, ns, pool => .ok (ns, pool)
  | k + 1, ns, pool =>
    match stableSort pool with
    | a :: b :: rest =>
      if a.freq + b.freq > 2 ^ 32 - 1 then .error (.capacityOverflow .freqSum)
      else
        mergeLoop k (ns ++ [internalNode (a.freq + b.freq) a.idx b.idx])
          (rest ++ [⟨ns.length, a.freq + b.freq⟩])
    | short => .ok (ns, short)

/-- The pool before the first merge: the leaves, in map order (R85). -/
def initialPool (es : List FreqEntry) : List PoolEntry :=
  es.zipIdx.map fun ei => ⟨ei.2, ei.1.cnt⟩

/-- `buildTree(freq)`: the nodes and the root's index. The empty map is refused first (R85, R91); a
map of n entries takes n - 1 merges (R87). -/
def buildTree (es : List FreqEntry) : Except CmdError (List TreeNode × Nat) :=
  if es.length = 0 then .error .emptyAlphabet
  else
    match mergeLoop (es.length - 1) (es.map leafNode) (initialPool es) with
    | .ok (ns, r :: _) => .ok (ns, r.idx)
    | .ok (_, []) => .error .emptyAlphabet
    | .error e => .error e

/-- `buildTree(freq)` into NODE, NODEN and ROOT. -/
def buildBody (s : State) : Except CmdError State :=
  match buildTree s.freqMap with
  | .ok (ns, r) =>
    .ok ((s.deliver .node ns.length (ns.flatMap TreeNode.words)).setRoot (BitVec.ofNat 32 r))
  | .error e => .error e

/-- BUILD (R85). -/
def execBuild (s : State) : Host.Outcome State Fault Refusal := .next (s.runBody .node buildBody)

end Sys2Proof.Machine
end

