-- ==== Sys2Proof/Machine/Encoder.lean ====
section
/-! DEFINITION. Encoder: the commands ENCODE and COMPRESS (spec 43, R100 to R106). -/

namespace Sys2Proof.Machine

open Sys2Proof

/-- The entry of a symbol: the one with the lowest index (R100, R101). -/
def findCode (tbl : List CodeEntry) (x : Word) : Option CodeEntry :=
  tbl.find? fun e => e.sym == x

/-- The loop of R100: `i` is the index of the next symbol, `acc` the bits so far. -/
def encodeFrom (cap : Nat) (tbl : List CodeEntry) : List Word → Nat → List Bool →
    Except CmdError (List Bool)
  | [], _, acc => .ok acc
  | x :: xs, i, acc =>
    match findCode tbl x with
    | none => .error (.unknownSymbol i)
    | some e =>
      if acc.length + e.bits.length > cap then .error (.capacityOverflow .bitString)
      else encodeFrom cap tbl xs (i + 1) (acc ++ e.bits)

/-- The Encoder into BITS and BITLEN. -/
def encodeBody (s : State) : Except CmdError State :=
  match encodeFrom s.params.bitCap s.codeTable s.text 0 [] with
  | .ok bs => .ok (s.deliver .bits bs.length (bs.map bitWord))
  | .error e => .error e

/-- ENCODE (R100). -/
def execEncode (s : State) : Host.Outcome State Fault Refusal := .next (s.runBody .bits encodeBody)

/-- The four stages of COMPRESS (R103). -/
inductive CompressStage where
  | freq
  | build
  | codes
  | encode
  deriving DecidableEq, Repr

/-- The number a stage leaves in `STATUS.STAGE` (R23, R103). -/
def CompressStage.number : CompressStage → BitVec 4
  | .freq => 0x1
  | .build => 0x2
  | .codes => 0x3
  | .encode => 0x4

/-- The buffer a stage has as its destination (R62). -/
def CompressStage.dest : CompressStage → Space
  | .freq => .freq
  | .build => .node
  | .codes => .code
  | .encode => .bits

/-- A stage runs exactly as the command of its name (R103). -/
def CompressStage.body : CompressStage → State → Except CmdError State
  | .freq => freqBody
  | .build => buildBody
  | .codes => codesBody
  | .encode => encodeBody

/-- The order of the stages (R103). -/
def CompressStage.order : List CompressStage := [.freq, .build, .codes, .encode]

/-- Run stages one after another, each on the result of the one before (R103). The first that fails
ends the command: its destination is void, those of the later stages become empty (R104, R150). -/
def runStages : List CompressStage → State → State
  | [], s => s.complete
  | st :: later, s =>
    match st.body (s.setStage st.number) with
    | .ok t => runStages later t
    | .error e =>
      (later.foldl (fun u l => u.emptyDest l.dest)
        ((s.setStage st.number).voidDest st.dest)).takeError e

/-- COMPRESS (R103). -/
def execCompress (s : State) : Host.Outcome State Fault Refusal :=
  .next (runStages CompressStage.order s)

/-- The data after the first stages of COMPRESS, or the error of the first that fails: what decides
whether a running COMPRESS can have passed to the stage after them. -/
def afterStages : List CompressStage → State → Except CmdError State
  | [], s => .ok s
  | st :: later, s =>
    match st.body s with
    | .ok t => afterStages later t
    | .error e => .error e

/-- A running COMPRESS passes to its next stage, if the stages before it succeed (R23, R103): only
`STATUS.STAGE` shows it, for the buffers cannot be read while BUSY (R54). -/
def compressProgress (s : State) : State :=
  if s.status.busy && s.cmd == encode .compress && decide (s.status.stage.toNat < 4) then
    match afterStages (CompressStage.order.take s.status.stage.toNat) s with
    | .ok _ => s.setStage (s.status.stage + 1)
    | .error _ => s
  else s

end Sys2Proof.Machine
end

