-- ==== Sys2Proof/Machine/Housekeeping.lean ====
section
/-! DEFINITION. Housekeeping: the commands NOP and CLEAR (spec 46, R130 to R132). -/

namespace Sys2Proof.Machine

open Sys2Proof

/-- NOP (R130): it completes and changes nothing else. -/
def execNop (s : State) : Host.Outcome State Fault Refusal := .next s.complete

/-- What CLEAR does to the registers (R131): every length 0, ROOT to NIL. -/
def clearAll (s : State) : State := Space.all.foldl State.emptyDest s

/-- CLEAR (R131): no buffer element changes. -/
def execClear (s : State) : Host.Outcome State Fault Refusal := .next (clearAll s).complete

end Sys2Proof.Machine
end

