-- ==== Sys2Proof/Machine/Port.lean ====
section
/-! DEFINITION. The host port: addresses, the control registers as the host sees them, reads and
writes, and every cause of HostFault (R20 to R30, R40, R51 to R54). -/

namespace Sys2Proof.Machine

open Sys2Proof

/-- `A[31:28]`, the space number (R40). -/
def spaceNumber (a : Word) : Nat := (a.extractLsb' 28 4).toNat

/-- `A[27:0]`, the index inside the space (R40). -/
def wordIndex (a : Word) : Nat := (a.extractLsb' 0 28).toNat

/-- The buffer with a space number, if there is one (R40). -/
def spaceOf (n : Nat) : Option Space := Space.all.find? fun sp => sp.number == n

/-- ID reads `0x4855_4601` always (R21). -/
def idWord : Word := 0x48554601

/-- The control registers of R20, without the length registers and ROOT. -/
inductive CtlReg where
  | id | cmd | status | errCode | errInfo | ctrl
  | pSymW | pTextCap | pAlphaCap | pCodeMaxLen | pBitCap | pOutCap
  deriving DecidableEq, Repr

/-- A register of space REG (R20). -/
inductive Reg where
  | ctl (r : CtlReg)
  | len (sp : Space)
  | root
  deriving DecidableEq, Repr

/-- The register map (R20); every other index is reserved (R30). -/
def regAt (i : Nat) : Option Reg :=
  match i with
  | 0x00 => some (.ctl .id)
  | 0x01 => some (.ctl .cmd)
  | 0x02 => some (.ctl .status)
  | 0x03 => some (.ctl .errCode)
  | 0x04 => some (.ctl .errInfo)
  | 0x05 => some (.ctl .ctrl)
  | 0x06 => some (.len .text)
  | 0x07 => some (.len .freq)
  | 0x08 => some (.len .node)
  | 0x09 => some .root
  | 0x0A => some (.len .code)
  | 0x0B => some (.len .bits)
  | 0x0C => some (.len .bytes)
  | 0x0D => some (.len .hex)
  | 0x0E => some (.len .out)
  | 0x10 => some (.ctl .pSymW)
  | 0x11 => some (.ctl .pTextCap)
  | 0x12 => some (.ctl .pAlphaCap)
  | 0x13 => some (.ctl .pCodeMaxLen)
  | 0x14 => some (.ctl .pBitCap)
  | 0x15 => some (.ctl .pOutCap)
  | _ => none

/-- The word a register reads as (R20 to R29). -/
def State.readReg (s : State) : Reg → Word
  | .ctl .id => idWord
  | .ctl .cmd => s.cmd
  | .ctl .status => s.status.word
  | .ctl .errCode => s.errCode
  | .ctl .errInfo => s.errInfo
  | .ctl .ctrl => s.ctrl.word
  | .ctl .pSymW => BitVec.ofNat 32 s.params.symW
  | .ctl .pTextCap => BitVec.ofNat 32 s.params.textCap
  | .ctl .pAlphaCap => BitVec.ofNat 32 s.params.alphaCap
  | .ctl .pCodeMaxLen => BitVec.ofNat 32 s.params.codeMaxLen
  | .ctl .pBitCap => BitVec.ofNat 32 s.params.bitCap
  | .ctl .pOutCap => BitVec.ofNat 32 s.params.outCap
  | .len sp => s.len sp
  | .root => s.root

/-- The registers the host may read while BUSY: ID, STATUS, CTRL and the P_ registers (R54). -/
def Reg.readableBusy : Reg → Bool
  | .ctl .id | .ctl .status | .ctl .ctrl => true
  | .ctl .pSymW | .ctl .pTextCap | .ctl .pAlphaCap | .ctl .pCodeMaxLen | .ctl .pBitCap
  | .ctl .pOutCap => true
  | .ctl .cmd | .ctl .errCode | .ctl .errInfo | .len _ | .root => false

/-- `HostRead(A)`: the word, or nothing for HostFault (R52, R54). -/
def State.hostRead (s : State) (a : Word) : Option Word :=
  if spaceNumber a = 0 then
    match regAt (wordIndex a) with
    | none => none
    | some r => if s.status.busy && !r.readableBusy then none else some (s.readReg r)
  else
    match spaceOf (spaceNumber a) with
    | none => none
    | some sp =>
      if s.status.busy then none
      else if wordIndex a < sp.size s.params then some (s.word sp (wordIndex a))
      else none

/-- A host write to a register: the state after it, or nothing for HostFault (R20 to R28, R52,
R54). -/
def State.writeReg (s : State) (v : Word) : Reg → Option State
  | .ctl .cmd => if s.status.busy then none else some (s.accept v)
  | .ctl .status => some { s with status := s.status.hostWrite v }
  | .ctl .ctrl => some { s with ctrl := Ctrl.ofWord v }
  | .ctl .id | .ctl .errCode | .ctl .errInfo => none
  | .ctl .pSymW | .ctl .pTextCap | .ctl .pAlphaCap | .ctl .pCodeMaxLen | .ctl .pBitCap
  | .ctl .pOutCap => none
  | .len sp =>
    if s.status.busy || !sp.hostWritable || decide (sp.cap s.params < v.toNat) then none
    else some (s.setLen sp v)
  | .root => if s.status.busy then none else some (s.setRoot v)

/-- A CODE length word takes no value above `CODE_MAXLEN` (R46, R52 cause d). -/
def codeLenTooLong (p : Params) (sp : Space) (i : Nat) (v : Word) : Bool :=
  decide (sp = .code) && decide (i % p.codeStride = 1) && decide (p.codeMaxLen < v.toNat)

/-- `HostWrite(A, v)`: the state after it, or nothing for HostFault (R52, R54). -/
def State.hostWrite (s : State) (a v : Word) : Option State :=
  if spaceNumber a = 0 then
    match regAt (wordIndex a) with
    | none => none
    | some r => s.writeReg v r
  else
    match spaceOf (spaceNumber a) with
    | none => none
    | some sp =>
      if s.status.busy || !sp.hostWritable then none
      else if wordIndex a < sp.size s.params && !codeLenTooLong s.params sp (wordIndex a) v then
        some (s.putWord sp (wordIndex a) v)
      else none

/-- One read transaction with its response (R51, R52). -/
def readTransaction (a : Word) (s : State) : State :=
  match s.hostRead a with
  | some w => { s with resp := .data w }
  | none => { s with resp := .hostFault }

/-- One write transaction with its response (R51, R52). -/
def writeTransaction (a v : Word) (s : State) : State :=
  match s.hostWrite a v with
  | some t => { t with resp := .done }
  | none => { s with resp := .hostFault }

end Sys2Proof.Machine
end

