-- ==== Sys2Proof/Machine/Engine.lean ====
section
/-! DEFINITION. The engine's step and the events of the port (R10, R55, R66, R67). -/

namespace Sys2Proof.Machine

open Sys2Proof

/-- The engine's step: a busy engine executes the command in CMD to its completion; an idle one does
nothing (R55, R160). -/
def engineStep (s : State) : Host.Outcome State Fault Refusal :=
  if s.status.busy then
    match decode s.cmd with
    | .ok i => exec i s
    | .error _ => .fault .busyWithoutCommand
  else .next s

/-- One event (R55: all events are in one total order and each takes effect wholly before the
next). -/
def takeEvent (e : PortEvent) (s : State) : Host.Outcome State Fault Refusal :=
  match e with
  | .read a => .next (readTransaction a s)
  | .write a v => .next (writeTransaction a v s)
  | .engine => engineStep s
  | .progress => .next (compressProgress s)
  | .rst => .next s.rst

/-- The state in which the host has just written the command word `w` to CMD, with the engine's step
coming next. -/
def placeCommand (w : Word) (s : State) : State :=
  let t := s.accept w
  { t with inbox := .engine :: t.inbox }

end Sys2Proof.Machine
end

