-- ==== Sys2Proof/Machine/Step.lean ====
section
/-! DEFINITION. One step: the next event of the inbox, and with an empty inbox the engine's own
step, so that an accepted command always comes to its completion (R186). -/

namespace Sys2Proof.Machine

open Sys2Proof

/-- One step of the machine. -/
def step (s : State) : Host.Outcome State Fault Refusal :=
  match s.inbox with
  | [] => engineStep s
  | e :: rest => takeEvent e { s with inbox := rest }

/-- The block fetches nothing: a command word is the data of a CMD write (R56, R172). This stands
for that write: the word is accepted (R66) and the very next step is the engine's. Log entry 5. -/
def State.withFetchWord (s : State) (nbits w : Nat) : State :=
  placeCommand (BitVec.ofNat 32 (w % 2 ^ nbits)) s

end Sys2Proof.Machine
end

