-- ==== Sys2Proof/Safety.lean ====
section
/-! DEFINITION. What a safe state and a safe run are, and the words the statements use: the invariant
of the machine, an accepted command, sources and destinations (R62), and, without any of the
machine's own algorithms, what a FrequencyMap of a text is (R81), which tree BUILD must make (R85 to
R90), a tree as a tree, its code table (R96) and its walks. -/

namespace Sys2Proof.Machine

open Sys2Proof

/-! ## The invariant -/

/-- What holds of the parameters, the buffers and the length registers. -/
structure State.DataOk (s : State) : Prop where
  /-- R6 -/
  params_legal : s.params.Legal
  /-- The canonical form of memory: words inside their space (R40) and in their layout (R41). -/
  mem_wf : s.mem.wf s.params
  /-- R27: `length <= capacity` always holds. -/
  len_le : ∀ sp : Space, (s.len sp).toNat ≤ sp.cap s.params

/-- What holds of the machine at reset and after every step. Every clause is a rule of the spec. -/
structure State.Inv (s : State) : Prop extends State.DataOk s where
  /-- R23: OP is the opcode field of the last accepted word, and CMD holds that word (R22). -/
  op_eq : s.status.op = (fieldsOf s.cmd).opcode
  /-- R23: STAGE equals OP but for COMPRESS, where it is one of 0x1 to 0x4. -/
  stage_ok : if s.cmd = encode .compress then
      1 ≤ s.status.stage.toNat ∧ s.status.stage.toNat ≤ 4
    else s.status.stage = s.status.op
  /-- R23: ERR is 1 exactly when the last command completed with an error, then `ERRCODE != 0`. -/
  err_iff : s.status.err = true ↔ s.errCode ≠ 0
  /-- R24: values 7 and above never appear. -/
  code_le : s.errCode.toNat ≤ 6
  /-- R25: ERRINFO reads 0 when there is no error. -/
  info_zero : s.errCode = 0 → s.errInfo = 0
  /-- R66: BUSY is set for a legal word only. -/
  busy_legal : s.status.busy = true → ∃ i, s.cmd = encode i
  /-- R66: acceptance clears DONE and ERR. -/
  busy_clear : s.status.busy = true → s.status.done = false ∧ s.status.err = false

/-- The command `i` has been accepted and has not yet been executed (R66). -/
structure State.Accepted (s : State) (i : Instr) : Prop where
  inv : s.Inv
  busy : s.status.busy = true
  cmd_eq : s.cmd = encode i

/-- `run MNEMONIC` of R70 on an idle machine: the CMD write, then the engine's step. -/
def runCommand (i : Instr) (s : State) : Host.Outcome State Fault Refusal :=
  exec i (s.accept (encode i))

/-! ## Sources and destinations (R62) -/

/-- The buffers a command has as destinations, with their length registers (R62). CLEAR writes the
length registers alone. -/
def dests : Instr → List Space
  | .nop => []
  | .freq => [.freq]
  | .build => [.node]
  | .codes => [.code]
  | .encode => [.bits]
  | .compress => [.freq, .node, .code, .bits]
  | .pack => [.bytes]
  | .unpack => [.bits]
  | .toHex => [.hex]
  | .decode => [.out]
  | .clear => Space.all

/-- ROOT is a destination where the Tree is one, and of CLEAR (R62). -/
def writesRoot : Instr → Bool
  | .build | .compress | .clear => true
  | .nop | .freq | .codes | .encode | .pack | .unpack | .toHex | .decode => false

/-- Two states agree on the sources of a command: the values below the lengths, the lengths, and
ROOT where the Tree is a source (R62, R148). -/
def SourcesAgree (i : Instr) (s t : State) : Prop :=
  match i with
  | .nop | .clear => True
  | .freq | .compress => s.text = t.text
  | .build => s.freqMap = t.freqMap
  | .codes => s.nodes = t.nodes ∧ s.root = t.root
  | .encode => s.text = t.text ∧ s.codeTable = t.codeTable
  | .pack => s.bitString = t.bitString
  | .unpack | .toHex => s.packedBytes = t.packedBytes
  | .decode => s.bitString = t.bitString ∧ s.nodes = t.nodes ∧ s.root = t.root

/-! ## What a command leaves alone -/

/-- The control state a command does not touch but for the flags, ERRCODE and ERRINFO: the
parameters, CMD, CTRL and OP; and the host's side, its coming events and the last response. -/
def SameControl (s t : State) : Prop :=
  t.params = s.params ∧ t.cmd = s.cmd ∧ t.ctrl = s.ctrl ∧ t.status.op = s.status.op ∧
    t.inbox = s.inbox ∧ t.resp = s.resp

/-- A completion without error (R67): BUSY 0, DONE 1, ERR, ERRCODE and ERRINFO 0. -/
def Succeeded (t : State) : Prop :=
  t.status.busy = false ∧ t.status.done = true ∧ t.status.err = false ∧ t.errCode = 0 ∧
    t.errInfo = 0

/-- A completion with an error (R67, R153): BUSY 0, DONE 1, ERR 1, and the kind and the detail in
ERRCODE and ERRINFO. -/
def FailedAs (code info : Word) (t : State) : Prop :=
  t.status.busy = false ∧ t.status.done = true ∧ t.status.err = true ∧ t.errCode = code ∧
    t.errInfo = info

/-- Every word of every buffer but those of `ds` reads as before, and every length register but
theirs holds what it held. -/
def SameOutside (ds : List Space) (s t : State) : Prop :=
  ∀ sp, sp ∉ ds → t.len sp = s.len sp ∧ ∀ a, t.word sp a = s.word sp a

/-- The frame of a command with the destinations `ds`: it changes no other buffer and no other length
register, ROOT only if the Tree is among `ds`, and no control register but the flags, ERRCODE and
ERRINFO. -/
def Frame (ds : List Space) (s t : State) : Prop :=
  SameControl s t ∧ SameOutside ds s t ∧ (Space.node ∉ ds → t.root = s.root)

/-- In the buffer `sp` every word at or above its new length reads as before (R149). -/
def SameAbove (sp : Space) (s t : State) : Prop :=
  ∀ a, (t.len sp).toNat * sp.stride s.params ≤ a → t.word sp a = s.word sp a

/-! ## FrequencyMap (R81) -/

/-- `es` is the FrequencyMap of `text`: the keys are distinct and are the symbols of the text, each
value is the symbol's number of occurrences, and the order is that of first occurrence. -/
structure IsFrequencyMap (text : List Word) (es : List FreqEntry) : Prop where
  keys_distinct : (es.map FreqEntry.sym).Nodup
  keys_exact : ∀ x, x ∈ es.map FreqEntry.sym ↔ x ∈ text
  values : ∀ e ∈ es, e.cnt = text.count e.sym
  order : es.Pairwise fun a b => text.idxOf a.sym < text.idxOf b.sym
  conserved : (es.map FreqEntry.cnt).sum = text.length

/-! ## The tree BUILD must make (R85 to R90) -/

/-- Node `c` stands before node `d` in the selection order: smaller frequency first, and for equal
frequency the smaller index (R88). -/
def PicksBefore (ns : List TreeNode) (c d : Nat) : Prop :=
  ∀ m n : TreeNode, ns[c]? = some m → ns[d]? = some n →
    m.freq.toNat < n.freq.toNat ∨ (m.freq.toNat = n.freq.toNat ∧ c < d)

/-- When node `k` is made, node `c` is there and no Internal node before `k` has it as a child: it
is one of the currently unmerged nodes. `n` is the number of leaves. -/
def Unmerged (ns : List TreeNode) (n k c : Nat) : Prop :=
  c < k ∧ ∀ (j : Nat) (m : TreeNode), n ≤ j → j < k → ns[j]? = some m → m.left.toNat ≠ c ∧ m.right.toNat ≠ c

/-- `ns` is the tree of the map `es` with the root at index `root`: the leaves in map order, then
one Internal node per merge, whose left and right children are the first and the second of the
unmerged nodes in the selection order, and whose frequency is the exact sum of theirs. -/
structure IsHuffmanTree (es : List FreqEntry) (ns : List TreeNode) (root : Nat) : Prop where
  size : ns.length = 2 * es.length - 1
  root_last : root = 2 * es.length - 2
  leaves : ∀ (i : Nat) (e : FreqEntry), es[i]? = some e →
    ns[i]? = some ⟨.leaf, e.sym, BitVec.ofNat 32 e.cnt, nilPtr, nilPtr⟩
  merges : ∀ (k : Nat) (m : TreeNode), es.length ≤ k → ns[k]? = some m →
    ∃ (a b : Nat) (ma mb : TreeNode), m.kind = .internal ∧ m.sym = 0 ∧ m.left.toNat = a ∧ m.right.toNat = b ∧ a ≠ b ∧
      ns[a]? = some ma ∧ ns[b]? = some mb ∧
      m.freq.toNat = ma.freq.toNat + mb.freq.toNat ∧
      Unmerged ns es.length k a ∧ Unmerged ns es.length k b ∧ PicksBefore ns a b ∧
      ∀ c, Unmerged ns es.length k c → c ≠ a → c ≠ b → PicksBefore ns b c

/-! ## Trees as trees -/

/-- A strict binary tree of symbols. -/
inductive HTree where
  | leaf (sym : Word)
  | node (left right : HTree)
  deriving DecidableEq, Repr

namespace HTree

/-- The number of leaves. -/
def leafCount : HTree → Nat
  | leaf _ => 1
  | node l r => l.leafCount + r.leafCount

/-- The greatest depth of a leaf. -/
def height : HTree → Nat
  | leaf _ => 0
  | node l r => max l.height r.height + 1

/-- The leaves' symbols, left to right. -/
def symbols : HTree → List Word
  | leaf x => [x]
  | node l r => l.symbols ++ r.symbols

/-- The CodeTable of a tree: for each leaf, left to right, its symbol and its path, "0" for left and
"1" for right (R96). -/
def table : HTree → List CodeEntry
  | leaf x => [⟨x, []⟩]
  | node l r =>
    l.table.map (fun e => ⟨e.sym, false :: e.bits⟩) ++ r.table.map (fun e => ⟨e.sym, true :: e.bits⟩)

/-- The symbol of the leftmost leaf. -/
def leftmost : HTree → Word
  | leaf x => x
  | node l _ => l.leftmost

/-- The depth of the leftmost leaf. -/
def leftDepth : HTree → Nat
  | leaf _ => 0
  | node l _ => l.leftDepth + 1

end HTree

/-- The node a pointer points at, and those under it, are the tree `T` (R14, R96): a Leaf with that
symbol, or an Internal node whose two pointers are the two subtrees. -/
def Represents (ns : List TreeNode) : Word → HTree → Prop
  | p, .leaf x => ∃ n, nodeOf ns p = some n ∧ n.kind = .leaf ∧ n.sym = x
  | p, .node l r => ∃ n, nodeOf ns p = some n ∧ n.kind = .internal ∧
      Represents ns n.left l ∧ Represents ns n.right r

/-- The Tree of a state (NODE, NODEN, ROOT) is `T`. -/
def State.HasTree (s : State) (T : HTree) : Prop := Represents s.nodes s.root T

/-- The traversal of R96, begun at pointer `p` with `room` bits still allowed to a code, comes to
pointer `q` without an error on its way: `path` are the bits from `p` to `q`, and `done` the entries
recorded before, with their bits from `p` on. Left of the path stand whole trees that are not too
tall, for the left subtree is walked before the right pointer is looked at (R96, R98, R152). That
`done` fits the table is said where the relation is used. -/
inductive WalkedTo (ns : List TreeNode) : Word → Nat → Word → List Bool → List CodeEntry → Prop where
  | here (p : Word) (room : Nat) : WalkedTo ns p room p [] []
  | left {p q : Word} {room : Nat} {n : TreeNode} {path : List Bool} {done : List CodeEntry} :
      nodeOf ns p = some n → n.kind = .internal → WalkedTo ns n.left room q path done →
      WalkedTo ns p (room + 1) q (false :: path) (done.map fun e => ⟨e.sym, false :: e.bits⟩)
  | right {p q : Word} {room : Nat} {n : TreeNode} {L : HTree} {path : List Bool}
      {done : List CodeEntry} :
      nodeOf ns p = some n → n.kind = .internal → Represents ns n.left L → L.height ≤ room →
      WalkedTo ns n.right room q path done →
      WalkedTo ns p (room + 1) q (true :: path)
        (L.table.map (fun e => ⟨e.sym, false :: e.bits⟩) ++
          done.map fun e => ⟨e.sym, true :: e.bits⟩)

/-- Every symbol of `xs` has an entry in the CodeTable (R100). -/
def Covers (tbl : List CodeEntry) (xs : List Word) : Prop := ∀ x ∈ xs, ∃ e ∈ tbl, e.sym = x

/-- The codes of a text's symbols in input order, one after another; of several entries for one
symbol the one with the lowest index counts (R100, R101). -/
def codeBits (tbl : List CodeEntry) (xs : List Word) : List Bool :=
  xs.flatMap fun x => match tbl.find? (fun e => e.sym == x) with
    | some e => e.bits
    | none => []

/-- `bs` is made of one code of the CodeTable for each symbol of `xs`, in order: what a walk of the
tree takes apart again. -/
inductive Spells (tbl : List CodeEntry) : List Word → List Bool → Prop where
  | nil : Spells tbl [] []
  | cons {x : Word} {e : CodeEntry} {xs : List Word} {bs : List Bool} :
      e ∈ tbl → e.sym = x → Spells tbl xs bs → Spells tbl (x :: xs) (e.bits ++ bs)

/-! ## The decoder's walk (R121 to R124) -/

/-- From pointer `p` the bits lead to pointer `q`: each is taken at an Internal node, 0 to its left
pointer and 1 to its right one. Where `q` points is not said. -/
inductive Path (ns : List TreeNode) : Word → List Bool → Word → Prop where
  | nil (p : Word) : Path ns p [] p
  | cons {p q : Word} {n : TreeNode} {b : Bool} {bs : List Bool} :
      nodeOf ns p = some n → n.kind = .internal →
      Path ns (if b then n.right else n.left) bs q → Path ns p (b :: bs) q

/-- The bits are made of whole walks from the root, each of at least one bit and ending on a Leaf;
`xs` are the symbols of those leaves. -/
inductive Emits (ns : List TreeNode) (root : Word) : List Word → List Bool → Prop where
  | nil : Emits ns root [] []
  | cons {q : Word} {m : TreeNode} {path bs : List Bool} {xs : List Word} :
      path ≠ [] → Path ns root path q → nodeOf ns q = some m → m.kind = .leaf →
      Emits ns root xs bs → Emits ns root (m.sym :: xs) (path ++ bs)

/-! ## Causes of HostFault (R52) -/

/-- The address of index `i` of space number `n` (R40, R69). -/
def addressOf (n i : Nat) : Word := BitVec.ofNat 4 n ++ BitVec.ofNat 28 i

/-- Causes (a) and (b): no such space, a reserved REG index (R30), or an index at or beyond the size
of the space (R53). -/
def NoSuchWord (p : Params) (a : Word) : Prop :=
  9 ≤ spaceNumber a ∨
    (spaceNumber a = 0 ∧ (wordIndex a = 0x0F ∨ 0x16 ≤ wordIndex a)) ∨
    ∃ sp : Space, spaceNumber a = sp.number ∧ sp.size p ≤ wordIndex a

/-- Cause (c): a read-only register (R20), or the HEX or the OUT space. -/
def ReadOnlyWord (a : Word) : Prop :=
  (spaceNumber a = 0 ∧ wordIndex a ∈ [0x00, 0x03, 0x04, 0x0D, 0x0E, 0x10, 0x11, 0x12, 0x13, 0x14, 0x15]) ∨
    spaceNumber a = 7 ∨ spaceNumber a = 8

/-- The capacity that bounds a length register, by REG index (R20, R27). -/
def lengthBound (p : Params) : Nat → Option Nat
  | 0x06 => some p.textCap
  | 0x07 => some p.alphaCap
  | 0x08 => some p.nodeCap
  | 0x0A => some p.alphaCap
  | 0x0B => some p.bitCap
  | 0x0C => some p.byteCap
  | 0x0D => some p.hexCap
  | 0x0E => some p.outCap
  | _ => none

/-- Cause (d): a length above its capacity (R27), or a CODE length word above `CODE_MAXLEN`
(R46). -/
def ValueTooLarge (p : Params) (a v : Word) : Prop :=
  (spaceNumber a = 0 ∧ ∃ c, lengthBound p (wordIndex a) = some c ∧ c < v.toNat) ∨
    (spaceNumber a = 4 ∧ wordIndex a % p.codeStride = 1 ∧ p.codeMaxLen < v.toNat)

/-- What the host may read while BUSY: ID, STATUS, CTRL and the P_ registers (R54). -/
def ReadableBusy (a : Word) : Prop :=
  spaceNumber a = 0 ∧ wordIndex a ∈ [0x00, 0x02, 0x05, 0x10, 0x11, 0x12, 0x13, 0x14, 0x15]

/-- What the host may write while BUSY: STATUS and CTRL (R54). -/
def WritableBusy (a : Word) : Prop := spaceNumber a = 0 ∧ wordIndex a ∈ [0x02, 0x05]

/-! ## A safe run -/

/-- A run is safe when it stops at no fault and no refusal: it always has a next state. -/
def SafeRun (s : State) : Prop := ∀ k, ∃ t, Sys2Proof.core.run k s = .next t

end Sys2Proof.Machine
end

