-- ==== Sys2Proof/Certificates/Slice0/Obligations.lean ====
section
/-! DEFINITION. The statements for the provers, from the numbered rules of the spec. -/

open Sys2Proof Sys2Proof.Machine

/-! ## Reset, the invariant, safety -/

/-- R37: what the host reads after reset, register by register; IRQ is low; every element of every
buffer reads as some word of its layout; every value is empty. The parameters are those of P0 (R8),
the model's choice of log entry 1. -/
def Obligations.ResetState : Prop :=
  State.reset.hostRead (addressOf 0 0x00) = some 0x48554601 ∧
  State.reset.hostRead (addressOf 0 0x01) = some 0 ∧
  State.reset.hostRead (addressOf 0 0x02) = some 0 ∧
  State.reset.hostRead (addressOf 0 0x03) = some 0 ∧
  State.reset.hostRead (addressOf 0 0x04) = some 0 ∧
  State.reset.hostRead (addressOf 0 0x05) = some 0 ∧
  State.reset.hostRead (addressOf 0 0x06) = some 0 ∧
  State.reset.hostRead (addressOf 0 0x07) = some 0 ∧
  State.reset.hostRead (addressOf 0 0x08) = some 0 ∧
  State.reset.hostRead (addressOf 0 0x09) = some 0xFFFFFFFF ∧
  State.reset.hostRead (addressOf 0 0x0A) = some 0 ∧
  State.reset.hostRead (addressOf 0 0x0B) = some 0 ∧
  State.reset.hostRead (addressOf 0 0x0C) = some 0 ∧
  State.reset.hostRead (addressOf 0 0x0D) = some 0 ∧
  State.reset.hostRead (addressOf 0 0x0E) = some 0 ∧
  State.reset.hostRead (addressOf 0 0x10) = some (BitVec.ofNat 32 State.reset.params.symW) ∧
  State.reset.hostRead (addressOf 0 0x11) = some (BitVec.ofNat 32 State.reset.params.textCap) ∧
  State.reset.hostRead (addressOf 0 0x12) = some (BitVec.ofNat 32 State.reset.params.alphaCap) ∧
  State.reset.hostRead (addressOf 0 0x13) = some (BitVec.ofNat 32 State.reset.params.codeMaxLen) ∧
  State.reset.hostRead (addressOf 0 0x14) = some (BitVec.ofNat 32 State.reset.params.bitCap) ∧
  State.reset.hostRead (addressOf 0 0x15) = some (BitVec.ofNat 32 State.reset.params.outCap) ∧
  State.reset.irq = false ∧
  (∀ (sp : Space) (i : Nat), i < sp.size State.reset.params →
    ∃ w, State.reset.hostRead (addressOf sp.number i) = some w ∧
      sp.layout State.reset.params i w = w) ∧
  State.reset.text = [] ∧ State.reset.freqMap = [] ∧ State.reset.nodes = [] ∧
  State.reset.codeTable = [] ∧ State.reset.bitString = [] ∧ State.reset.packedBytes = [] ∧
  State.reset.hexString = [] ∧ State.reset.outText = []

/-- The invariant holds at reset. -/
def Obligations.ResetMeetsTheInvariant : Prop := State.reset.Inv

/-- Every step keeps the invariant, whatever event comes next: the parameters stay legal (R6), memory
keeps its canonical form and every word its layout (R41), no length passes its capacity (R27), OP,
STAGE, ERR, ERRCODE and ERRINFO stay as R23 to R25 say, BUSY stands for a legal command only
(R66). -/
def Obligations.StepKeepsTheInvariant : Prop :=
  ∀ s t : State, s.Inv → step s = .next t → t.Inv

/-- From a state that meets the invariant the machine never stops: no run ends in a fault or a
refusal. -/
def Obligations.EveryRunIsSafe : Prop := ∀ s : State, s.Inv → SafeRun s

/-! ## Encoding -/

/-- Command words written out from R60 and R61, bits 31:4 zero and the opcode in bits 3:0; three
words with a reserved bit or a reserved opcode are refused. -/
def Obligations.WrittenWordsDecode : Prop :=
  decode 0b00000000000000000000000000000000 = .ok .nop ∧
  decode 0b00000000000000000000000000000001 = .ok .freq ∧
  decode 0b00000000000000000000000000000010 = .ok .build ∧
  decode 0b00000000000000000000000000000011 = .ok .codes ∧
  decode 0b00000000000000000000000000000101 = .ok .compress ∧
  decode 0b00000000000000000000000000000111 = .ok .unpack ∧
  decode 0b00000000000000000000000000001001 = .ok .decode ∧
  decode 0b00000000000000000000000000001010 = .ok .clear ∧
  decode 0b00000000000000000000000000001011 = .error .reservedOpcode ∧
  decode 0b00000000000000000000000000010001 = .error .reservedBits ∧
  decode 0b10000000000000000000000000000101 = .error .reservedBits

/-- Decode and encode agree both ways: a word decodes to a command exactly when it is that command's
word, and exactly the words above 0xA decode to none (R64, R65). -/
def Obligations.DecodeAndEncodeAgree : Prop :=
  (∀ (w : Word) (i : Instr), decode w = .ok i ↔ w = encode i) ∧
  (∀ w : Word, (∃ i, decode w = .ok i) ↔ w.toNat ≤ 0xA) ∧
  (∀ w : Word, decode w = .error .reservedBits ↔ 0x10 ≤ w.toNat) ∧
  (∀ w : Word, decode w = .error .reservedOpcode ↔ 0xB ≤ w.toNat ∧ w.toNat ≤ 0xF)

/-! ## The step and the port -/

/-- A step runs the decoded command: when the engine's step comes next and a command is running whose
word decodes to `i`, the step is `exec i`, on the state with that event taken off the inbox. -/
def Obligations.StepRunsTheDecodedCommand : Prop :=
  ∀ (s : State) (i : Instr), s.status.busy = true → decode s.cmd = .ok i →
    (s.inbox = [] → step s = exec i s) ∧
    (∀ rest, s.inbox = .engine :: rest → step s = exec i { s with inbox := rest })

/-- One transaction is one step (R51, R52, R55): a read returns its word and changes nothing else, a
write that the port takes is done, and one that it does not take changes nothing but the
response. With no command running the engine's step changes nothing. And what the host sees is the
state (R20 to R29, R40): while no command runs a read of a register returns that register, a read
inside a buffer returns that word of it, and both go out as the response. The inbox and the response
are the model's own (log entry 4). -/
def Obligations.StepTakesOneTransaction : Prop :=
  ∀ (s : State) (rest : List PortEvent),
    (∀ a w, s.inbox = .read a :: rest → s.hostRead a = some w →
      step s = .next { s with inbox := rest, resp := .data w }) ∧
    (∀ a, s.inbox = .read a :: rest → s.hostRead a = none →
      step s = .next { s with inbox := rest, resp := .hostFault }) ∧
    (∀ a v t, s.inbox = .write a v :: rest → s.hostWrite a v = some t →
      step s = .next { t with inbox := rest, resp := .done }) ∧
    (∀ a v, s.inbox = .write a v :: rest → s.hostWrite a v = none →
      step s = .next { s with inbox := rest, resp := .hostFault }) ∧
    (s.inbox = .engine :: rest → s.status.busy = false → step s = .next { s with inbox := rest }) ∧
    (s.status.busy = false →
      (∀ r w, (r, w) ∈ [(0x00, 0x48554601), (0x01, s.cmd),
          (0x02, (0 : BitVec 20) ++ s.status.stage ++ s.status.op ++ (0 : BitVec 1) ++
            BitVec.ofBool s.status.err ++ BitVec.ofBool s.status.done ++ (0 : BitVec 1)),
          (0x03, s.errCode), (0x04, s.errInfo),
          (0x05, (0 : BitVec 31) ++ BitVec.ofBool s.ctrl.ie), (0x06, s.textLen), (0x07, s.freqN),
          (0x08, s.nodeN), (0x09, s.root), (0x0A, s.codeN), (0x0B, s.bitLen), (0x0C, s.byteLen),
          (0x0D, s.hexLen), (0x0E, s.outLen), (0x10, BitVec.ofNat 32 s.params.symW),
          (0x11, BitVec.ofNat 32 s.params.textCap), (0x12, BitVec.ofNat 32 s.params.alphaCap),
          (0x13, BitVec.ofNat 32 s.params.codeMaxLen), (0x14, BitVec.ofNat 32 s.params.bitCap),
          (0x15, BitVec.ofNat 32 s.params.outCap)] →
        s.hostRead (addressOf 0 r) = some w ∧
        (s.inbox = .read (addressOf 0 r) :: rest →
          step s = .next { s with inbox := rest, resp := .data w })) ∧
      (s.params.Legal → ∀ (sp : Space) (i : Nat), i < sp.size s.params →
        s.hostRead (addressOf sp.number i) = some (s.word sp i) ∧
        (s.inbox = .read (addressOf sp.number i) :: rest →
          step s = .next { s with inbox := rest, resp := .data (s.word sp i) })))

/-- R52, the causes of HostFault are exactly (a) to (e): a read and a write fault if and only if one
of them holds; and a transaction that faults changes nothing of the block. -/
def Obligations.HostFaultCauses : Prop :=
  ∀ (s : State) (a v : Word),
    (s.hostRead a = none ↔
      NoSuchWord s.params a ∨ (s.status.busy = true ∧ ¬ ReadableBusy a)) ∧
    (s.hostWrite a v = none ↔
      NoSuchWord s.params a ∨ ReadOnlyWord a ∨ ValueTooLarge s.params a v ∨
        (s.status.busy = true ∧ ¬ WritableBusy a)) ∧
    (s.hostRead a = none → ∀ rest, step { s with inbox := .read a :: rest } =
      .next { s with inbox := rest, resp := .hostFault }) ∧
    (s.hostWrite a v = none → ∀ rest, step { s with inbox := .write a v :: rest } =
      .next { s with inbox := rest, resp := .hostFault })

/-- R54: what the host may do while a command runs, and that a write of STATUS has no effect then. -/
def Obligations.BusyExclusion : Prop :=
  ∀ s : State, s.Inv → s.status.busy = true →
    (∀ a, (∃ w, s.hostRead a = some w) ↔
      a ∈ [addressOf 0 0x00, addressOf 0 0x02, addressOf 0 0x05, addressOf 0 0x10,
        addressOf 0 0x11, addressOf 0 0x12, addressOf 0 0x13, addressOf 0 0x14,
        addressOf 0 0x15]) ∧
    (∀ a v, (∃ t, s.hostWrite a v = some t) ↔ a ∈ [addressOf 0 0x02, addressOf 0 0x05]) ∧
    (∀ v, s.hostWrite (addressOf 0 0x02) v = some s) ∧
    (∀ v, s.hostWrite (addressOf 0 0x05) v = some { s with ctrl := ⟨v.getLsbD 0⟩ })

/-- R21, R29: ID reads the same word in every state, the P_ registers read the parameters in every
state, and no step changes a parameter. -/
def Obligations.IdAndParametersNeverChange : Prop :=
  ∀ s t : State, step s = .next t →
    t.params = s.params ∧
    (∀ u, u = s ∨ u = t →
      u.hostRead (addressOf 0 0x00) = some 0x48554601 ∧
      u.hostRead (addressOf 0 0x10) = some (BitVec.ofNat 32 s.params.symW) ∧
      u.hostRead (addressOf 0 0x11) = some (BitVec.ofNat 32 s.params.textCap) ∧
      u.hostRead (addressOf 0 0x12) = some (BitVec.ofNat 32 s.params.alphaCap) ∧
      u.hostRead (addressOf 0 0x13) = some (BitVec.ofNat 32 s.params.codeMaxLen) ∧
      u.hostRead (addressOf 0 0x14) = some (BitVec.ofNat 32 s.params.bitCap) ∧
      u.hostRead (addressOf 0 0x15) = some (BitVec.ofNat 32 s.params.outCap))

/-- R23, R26: the bits of the words STATUS and CTRL read as, at any time; a host write of STATUS acts
on DONE alone, clearing it when bit 1 is written 1; a host write of CTRL sets IE to its bit 0 and
nothing else; with IE 1 the IRQ line follows DONE. -/
def Obligations.StatusAndCtrlRegisters : Prop :=
  ∀ (s : State) (v : Word),
    (∃ w, s.hostRead (addressOf 0 0x02) = some w ∧ w.getLsbD 0 = s.status.busy ∧
      w.getLsbD 1 = s.status.done ∧ w.getLsbD 2 = s.status.err ∧ w.getLsbD 3 = false ∧
      w.extractLsb' 4 4 = s.status.op ∧ w.extractLsb' 8 4 = s.status.stage ∧
      w.extractLsb' 12 20 = 0) ∧
    s.hostWrite (addressOf 0 0x02) v =
      some { s with status := { s.status with done := s.status.done && !v.getLsbD 1 } } ∧
    (∃ w, s.hostRead (addressOf 0 0x05) = some w ∧ w.getLsbD 0 = s.ctrl.ie ∧
      w.extractLsb' 1 31 = 0) ∧
    s.hostWrite (addressOf 0 0x05) v = some { s with ctrl := ⟨v.getLsbD 0⟩ } ∧
    (s.ctrl.ie = true → s.irq = s.status.done)

/-- R27, R28: a length register holds a number up to its buffer's capacity; a write of one the host
may write stores a value up to the capacity, moves no data and touches nothing else; a larger value,
and any write to HEXLEN or OUTLEN, is a HostFault. ROOT takes any word. -/
def Obligations.LengthAndRootWrites : Prop :=
  ∀ (s : State) (v : Word), s.Inv → s.status.busy = false →
    (∀ sp : Space, (s.len sp).toNat ≤ sp.cap s.params) ∧
    (∀ (sp : Space) (r : Nat), (sp, r) ∈ [(Space.text, 0x06), (.freq, 0x07), (.node, 0x08),
        (.code, 0x0A), (.bits, 0x0B), (.bytes, 0x0C)] →
      (sp.cap s.params < v.toNat → s.hostWrite (addressOf 0 r) v = none) ∧
      (v.toNat ≤ sp.cap s.params → ∃ t, s.hostWrite (addressOf 0 r) v = some t ∧
        t.hostRead (addressOf 0 r) = some v ∧ t.len sp = v ∧ t.status = s.status ∧
        t.errCode = s.errCode ∧ t.errInfo = s.errInfo ∧ Frame [sp] s t ∧ t.root = s.root ∧
        ∀ q a, t.word q a = s.word q a)) ∧
    s.hostWrite (addressOf 0 0x0D) v = none ∧ s.hostWrite (addressOf 0 0x0E) v = none ∧
    ∃ t, s.hostWrite (addressOf 0 0x09) v = some t ∧ t.hostRead (addressOf 0 0x09) = some v ∧
      t = { s with root := v }

/-- R41 to R48: a host write of a buffer word is read back as the layout of that word keeps it, and
changes no other word of any buffer and no register. -/
def Obligations.BufferWriteThenRead : Prop :=
  ∀ (s : State) (sp : Space) (i : Nat) (v : Word), s.Inv → s.status.busy = false →
    sp ≠ .hex → sp ≠ .out → i < sp.size s.params →
    (sp = .code → i % s.params.codeStride = 1 → v.toNat ≤ s.params.codeMaxLen) →
    ∃ t w, s.hostWrite (addressOf sp.number i) v = some t ∧
      t.hostRead (addressOf sp.number i) = some w ∧
      (sp = .text → w.toNat = v.toNat % 2 ^ s.params.symW) ∧
      (sp = .freq → i % 2 = 0 → w.toNat = v.toNat % 2 ^ s.params.symW) ∧
      (sp = .freq → i % 2 = 1 → w = v) ∧
      (sp = .node → i % 4 = 0 → w.getLsbD 31 = v.getLsbD 31 ∧
        w.toNat % 2 ^ 31 = v.toNat % 2 ^ s.params.symW) ∧
      (sp = .node → i % 4 ≠ 0 → w = v) ∧
      (sp = .code → i % s.params.codeStride = 0 → w.toNat = v.toNat % 2 ^ s.params.symW) ∧
      (sp = .code → i % s.params.codeStride ≠ 0 → w = v) ∧
      (sp = .bits → w.toNat = v.toNat % 2) ∧
      (sp = .bytes → w.toNat = v.toNat % 256) ∧
      t = { s with mem := t.mem } ∧
      ∀ r j, ¬ (r = sp ∧ j = i) → t.word r j = s.word r j

/-- R41 to R49: whatever has happened, a word read from a buffer is 0 above its field. -/
def Obligations.EveryWordIsInItsLayout : Prop :=
  ∀ s : State, s.Inv → ∀ i : Nat,
    (s.word .text i).toNat < 2 ^ s.params.symW ∧
    (i % 2 = 0 → (s.word .freq i).toNat < 2 ^ s.params.symW) ∧
    (i % 4 = 0 → (s.word .node i).toNat % 2 ^ 31 < 2 ^ s.params.symW) ∧
    (i % s.params.codeStride = 0 → (s.word .code i).toNat < 2 ^ s.params.symW) ∧
    (i % s.params.codeStride = 1 → (s.word .code i).toNat ≤ s.params.codeMaxLen) ∧
    (s.word .bits i).toNat < 2 ∧ (s.word .bytes i).toNat < 256 ∧ (s.word .hex i).toNat < 256 ∧
    (s.word .out i).toNat < 2 ^ s.params.symW

/-! ## Acceptance, completion, interrupt -/

/-- R66, acceptance: what a write of the word `w` to CMD does while no command runs, for a legal word
and for an illegal one; and that it is a HostFault while one runs. -/
def Obligations.AcceptanceOfACommandWord : Prop :=
  ∀ (s : State) (w : Word),
    (s.status.busy = true → s.hostWrite (addressOf 0 0x01) w = none) ∧
    (s.status.busy = false → ∃ t, s.hostWrite (addressOf 0 0x01) w = some t ∧ t.cmd = w ∧
      t.status.op = w.extractLsb' 0 4 ∧
      t.status.stage = (if w = 0x5 then 0x1 else w.extractLsb' 0 4) ∧
      (w.toNat ≤ 0xA → t.status.busy = true ∧ t.status.done = false ∧ t.status.err = false ∧
        t.errCode = 0 ∧ t.errInfo = 0) ∧
      (0xA < w.toNat → FailedAs 6 w t) ∧
      t.params = s.params ∧ t.ctrl = s.ctrl ∧ t.root = s.root ∧ t.mem = s.mem ∧
      ∀ sp, t.len sp = s.len sp)

/-- R146, IllegalCommand: a word with a reserved bit or a reserved opcode, written while no command
runs, is recorded with the kind 6 and the word itself, changes no buffer and no length register, and
the engine does not run. -/
def Obligations.IllegalWordIsRecorded : Prop :=
  ∀ (s : State) (w : Word), s.status.busy = false →
    (w.extractLsb' 4 28 ≠ 0 ∨ 0xB ≤ (w.extractLsb' 0 4).toNat) →
    ∃ t, s.hostWrite (addressOf 0 0x01) w = some t ∧ t.errCode = 6 ∧ t.errInfo = w ∧
      (∀ sp a, t.word sp a = s.word sp a) ∧ (∀ sp, t.len sp = s.len sp) ∧ t.root = s.root ∧
      (∀ rest, step { t with inbox := .engine :: rest } = .next { t with inbox := rest })

/-- A command written while the machine is idle is accepted in the sense the statements about
commands use, with its sources as they were; so those statements speak of every run. -/
def Obligations.WrittenCommandIsAccepted : Prop :=
  ∀ (s : State) (i : Instr), s.Inv → s.status.busy = false →
    ∃ t, s.hostWrite (addressOf 0 0x01) (encode i) = some t ∧ t.Accepted i ∧
      t.params = s.params ∧ t.root = s.root ∧ (∀ sp, t.len sp = s.len sp) ∧
      (∀ sp a, t.word sp a = s.word sp a) ∧ runCommand i s = exec i t

/-- R67, R186: every accepted command comes to its completion in the engine's step, with success or
with an error, and the machine is idle and well after it. -/
def Obligations.EveryCommandCompletes : Prop :=
  ∀ (i : Instr) (s : State), s.Accepted i →
    ∃ t, exec i s = .next t ∧ t.Inv ∧ t.status.busy = false ∧ t.status.done = true ∧
      t.status.op = opcodeOf i ∧
      (Succeeded t ∨ ∃ code info, FailedAs code info t ∧ 1 ≤ code.toNat ∧ code.toNat ≤ 5)

/-- R155: IRQ is high exactly when bit 0 of CTRL and bit 1 of STATUS, as the host reads them, are
both 1. -/
def Obligations.InterruptLine : Prop :=
  ∀ s : State, s.irq = true ↔
    ∃ c f, s.hostRead (addressOf 0 0x05) = some c ∧ s.hostRead (addressOf 0 0x02) = some f ∧
      c.getLsbD 0 = true ∧ f.getLsbD 1 = true

/-- R156: DONE rises only when a running command completes in the engine's step or an illegal word
completes at acceptance, and falls only by a host write of 1 to STATUS bit 1, by the acceptance of
the next command, or by reset. -/
def Obligations.DoneRisesAndFallsAsStated : Prop :=
  ∀ s t : State, s.Inv → step s = .next t →
    (s.status.done = false → t.status.done = true →
      (s.status.busy = true ∧ (s.inbox = [] ∨ ∃ rest, s.inbox = .engine :: rest)) ∨
      ∃ w rest, s.status.busy = false ∧ s.inbox = .write (addressOf 0 0x01) w :: rest ∧
        0xA < w.toNat) ∧
    (s.status.done = true → t.status.done = false →
      (∃ v rest, s.inbox = .write (addressOf 0 0x02) v :: rest ∧ v.getLsbD 1 = true) ∨
      (∃ w rest, s.status.busy = false ∧ s.inbox = .write (addressOf 0 0x01) w :: rest ∧
        w.toNat ≤ 0xA) ∨
      ∃ rest, s.inbox = .rst :: rest)

/-- R22, R171: a command starts only by a host write of its word to CMD while none runs, and a
running command ends only in the engine's step or by reset. -/
def Obligations.CommandsStartAndEndAsStated : Prop :=
  ∀ s t : State, step s = .next t →
    (s.status.busy = false → t.status.busy = true →
      ∃ w rest, s.inbox = .write (addressOf 0 0x01) w :: rest ∧ w.toNat ≤ 0xA ∧ t.cmd = w) ∧
    (s.status.busy = true → t.status.busy = false →
      s.inbox = [] ∨ (∃ rest, s.inbox = .engine :: rest) ∨ ∃ rest, s.inbox = .rst :: rest)

/-- R22: a host write to CMD while no command runs leaves the word in it, legal or not; nothing else
but reset changes CMD, and a read has no effect on it. -/
def Obligations.CmdHoldsTheLastWordWritten : Prop :=
  ∀ s t : State, s.Inv → step s = .next t →
    (∀ w rest, s.status.busy = false → s.inbox = .write (addressOf 0 0x01) w :: rest →
      t.cmd = w ∧ t.resp = .done) ∧
    (t.cmd ≠ s.cmd →
      (∃ rest, s.status.busy = false ∧ s.inbox = .write (addressOf 0 0x01) t.cmd :: rest) ∨
      ∃ rest, s.inbox = .rst :: rest)

/-- R23, R103: while COMPRESS runs, STAGE moves forward only, one stage at a time, up to ENCODE, and a
stage starts only when the one before has succeeded. So the event that shows it, the model's own (log
entry 7), moves STAGE exactly when COMPRESS runs and the commands of the stages up to the one in
STAGE, run one after another on this state, succeed; in every other case it changes nothing. -/
def Obligations.StageMovesForwardOnly : Prop :=
  ∀ (s t a b c : State) (rest : List PortEvent), s.Inv → s.inbox = .progress :: rest →
    step s = .next t → exec .freq { s with inbox := rest } = .next a → exec .build a = .next b →
    exec .codes b = .next c →
    ((s.status.busy = true ∧ s.cmd = encode .compress ∧
        ((s.status.stage = 1 ∧ a.status.err = false) ∨
          (s.status.stage = 2 ∧ a.status.err = false ∧ b.status.err = false) ∨
          (s.status.stage = 3 ∧ a.status.err = false ∧ b.status.err = false ∧
            c.status.err = false))) →
      t = { s with inbox := rest, status := { s.status with stage := s.status.stage + 1 } } ∧
        t.status.stage.toNat = s.status.stage.toNat + 1 ∧ t.status.stage.toNat ≤ 4) ∧
    (¬ (s.status.busy = true ∧ s.cmd = encode .compress ∧
        ((s.status.stage = 1 ∧ a.status.err = false) ∨
          (s.status.stage = 2 ∧ a.status.err = false ∧ b.status.err = false) ∨
          (s.status.stage = 3 ∧ a.status.err = false ∧ b.status.err = false ∧
            c.status.err = false))) →
      t = { s with inbox := rest })

/-- R170, R171: the reset input puts every register at its reset value, abandons a running command
without a completion, and keeps nothing of any value; the parameters are the block's own. -/
def Obligations.ResetInputAbandonsEverything : Prop :=
  ∀ (s : State) (rest : List PortEvent), s.inbox = .rst :: rest →
    ∃ t, step s = .next t ∧ t.status = ⟨false, false, false, 0, 0⟩ ∧ t.cmd = 0 ∧ t.errCode = 0 ∧
      t.errInfo = 0 ∧ t.ctrl = ⟨false⟩ ∧ t.root = 0xFFFFFFFF ∧ (∀ sp, t.len sp = 0) ∧
      t.irq = false ∧ t.params = s.params ∧
      (∀ sp a, t.word sp a = sp.layout s.params a
        (Config.freeWord sp.number ((s.mem.get sp).draw + 1) a))

/-! ## What a command leaves alone -/

/-- R149: a command that succeeds writes of the data state exactly the elements of its destinations
below their new lengths, those length registers, and ROOT where the Tree is a destination (CLEAR
writes the length registers and ROOT alone). Everything else, and the control registers but the
flags, is as before. -/
def Obligations.SuccessWritesDestinationsOnly : Prop :=
  ∀ (i : Instr) (s t : State), s.Accepted i → exec i s = .next t → t.status.err = false →
    SameControl s t ∧ SameOutside (dests i) s t ∧ (∀ sp ∈ dests i, SameAbove sp s t) ∧
      (writesRoot i = false → t.root = s.root) ∧ Succeeded t

/-- R150: a command that fails leaves every buffer that is not a destination, with its length, as it
was. A single failed stage leaves its destination's length 0, and ROOT NIL where the Tree is the
destination. In COMPRESS the destinations of the failed stage and of the later ones have length 0
(ROOT NIL when BUILD is among them), and the elements of the later ones are unchanged. -/
def Obligations.FailureEmptiesDestinations : Prop :=
  ∀ (i : Instr) (s t : State), s.Accepted i → exec i s = .next t → t.status.err = true →
    SameControl s t ∧ SameOutside (dests i) s t ∧ (writesRoot i = false → t.root = s.root) ∧
    (i ≠ .compress → (∀ sp ∈ dests i, t.len sp = 0) ∧ (i = .build → t.root = nilPtr)) ∧
    (i = .compress → ∃ (earlier : List CompressStage) (failed : CompressStage)
        (later : List CompressStage), CompressStage.order = earlier ++ failed :: later ∧
      t.status.stage = failed.number ∧ t.len failed.dest = 0 ∧
      (∀ l ∈ later, t.len l.dest = 0 ∧ ∀ a, t.word l.dest a = s.word l.dest a) ∧
      (∀ e ∈ earlier, SameAbove e.dest s t) ∧
      (failed ∈ [CompressStage.freq, .build] → t.root = nilPtr))

/-- R151: which command can raise which kind. -/
def Obligations.ErrorKindsOfEachCommand : Prop :=
  ∀ (i : Instr) (s t : State), s.Accepted i → exec i s = .next t → t.status.err = true →
    match i with
    | .nop | .pack | .unpack | .toHex | .clear => False
    | .freq => FailedAs 4 1 t
    | .build => FailedAs 1 0 t ∨ FailedAs 4 2 t
    | .codes => FailedAs 4 3 t ∨ FailedAs 4 4 t ∨ ∃ p, FailedAs 5 p t
    | .encode => (∃ k, FailedAs 2 k t ∧ k.toNat < s.textLen.toNat) ∨ FailedAs 4 5 t
    | .compress => FailedAs 1 0 t ∨ FailedAs 4 1 t ∨ FailedAs 4 3 t ∨ FailedAs 4 5 t
    | .decode => (∃ d, FailedAs 3 d t) ∨ FailedAs 4 6 t ∨ FailedAs 5 s.root t

/-- R148: two runs of one command that agree on its sources (the values below the lengths, and ROOT
where the Tree is a source) and on the parameters end in the same way, with the same error if any,
and leave the same values in its destinations; nothing else of the two states plays a part. -/
def Obligations.OutcomeIsDeterminedBySources : Prop :=
  ∀ (i : Instr) (s t : State), s.Accepted i → t.Accepted i → s.params = t.params →
    SourcesAgree i s t →
    ∃ s' t', exec i s = .next s' ∧ exec i t = .next t' ∧ s'.status.err = t'.status.err ∧
      s'.errCode = t'.errCode ∧ s'.errInfo = t'.errInfo ∧ s'.status.stage = t'.status.stage ∧
      (∀ sp ∈ dests i, s'.len sp = t'.len sp ∧
        ∀ a, a < (s'.len sp).toNat * sp.stride s.params → s'.word sp a = t'.word sp a) ∧
      (writesRoot i = true → s'.root = t'.root)

/-- R12, R18, R19: TEXT changes only by a host write to it, HEX only by TOHEX, OUT only by DECODE,
and each by reset. -/
def Obligations.TextHexOutHaveOneWriter : Prop :=
  ∀ s t : State, s.Inv → step s = .next t →
    ((∃ a, t.word .text a ≠ s.word .text a) →
      (∃ a v rest, s.inbox = .write a v :: rest ∧ spaceNumber a = 1) ∨
      ∃ rest, s.inbox = .rst :: rest) ∧
    ((∃ a, t.word .hex a ≠ s.word .hex a) →
      (s.status.busy = true ∧ s.cmd = encode .toHex ∧ t.status.busy = false) ∨
      ∃ rest, s.inbox = .rst :: rest) ∧
    ((∃ a, t.word .out a ≠ s.word .out a) →
      (s.status.busy = true ∧ s.cmd = encode .decode ∧ t.status.busy = false) ∨
      ∃ rest, s.inbox = .rst :: rest)

/-! ## NOP and CLEAR -/

/-- R130: NOP completes with success and changes no buffer element, no length register and not
ROOT. -/
def Obligations.NopCompletes : Prop :=
  ∀ s : State, s.Accepted .nop → ∃ t, exec .nop s = .next t ∧ Succeeded t ∧ t.status.op = 0 ∧
    t.status.stage = 0 ∧ Frame [] s t

/-- R131: CLEAR completes with success, sets every length to 0 and ROOT to NIL, and changes no buffer
element and not CTRL. -/
def Obligations.ClearCompletes : Prop :=
  ∀ s : State, s.Accepted .clear → ∃ t, exec .clear s = .next t ∧ Succeeded t ∧
    (∀ sp, t.len sp = 0) ∧ t.root = 0xFFFFFFFF ∧ (∀ sp a, t.word sp a = s.word sp a) ∧
    SameControl s t ∧ t.status.stage = s.status.stage

/-! ## FREQ -/

/-- R81: FREQ on a text whose distinct symbols fit the table completes with the FrequencyMap of the
text: keys, values, order and conservation, every count at least 1 and within 32 bits. -/
def Obligations.FreqMakesTheFrequencyMap : Prop :=
  ∀ s : State, s.Accepted .freq → s.text.dedup.length ≤ s.params.alphaCap →
    ∃ t, exec .freq s = .next t ∧ Succeeded t ∧ t.status.stage = 1 ∧
      IsFrequencyMap s.text t.freqMap ∧
      (t.freqMap.map FreqEntry.cnt).sum = s.textLen.toNat ∧
      (∀ e ∈ t.freqMap, 1 ≤ e.cnt ∧ e.cnt ≤ 2 ^ 28) ∧
      t.freqN.toNat = s.text.dedup.length ∧
      Frame [.freq] s t ∧ SameAbove .freq s t

/-- R80, R144: FREQ on a text with more distinct symbols than the table has entries fails with
CapacityOverflow, resource 1, and the map is empty. -/
def Obligations.FreqTableFull : Prop :=
  ∀ s : State, s.Accepted .freq → s.params.alphaCap < s.text.dedup.length →
    ∃ t, exec .freq s = .next t ∧ FailedAs 4 1 t ∧ t.freqN = 0 ∧ Frame [.freq] s t

/-! ## BUILD -/

/-- R85, R87 to R89: BUILD on a map that is not empty and whose sums fit 32 bits completes with the
tree that the selection order makes, and no other: leaves in map order, one Internal node per merge
of the two first unmerged nodes, the root last. -/
def Obligations.BuildMakesTheHuffmanTree : Prop :=
  ∀ s : State, s.Accepted .build → s.freqMap ≠ [] →
    (s.freqMap.length = 1 ∨ (s.freqMap.map FreqEntry.cnt).sum < 2 ^ 32) →
    ∃ t, exec .build s = .next t ∧ Succeeded t ∧ t.status.stage = 2 ∧
      IsHuffmanTree s.freqMap t.nodes t.root.toNat ∧
      t.nodeN.toNat = 2 * s.freqMap.length - 1 ∧ Frame [.node] s t ∧ SameAbove .node s t

/-- R86: exactly one symbol gives a single Leaf that is the root. -/
def Obligations.BuildSingleSymbol : Prop :=
  ∀ (s : State) (e : FreqEntry), s.Accepted .build → s.freqMap = [e] →
    ∃ t, exec .build s = .next t ∧ Succeeded t ∧ t.nodeN = 1 ∧ t.root = 0 ∧
      t.nodes = [⟨.leaf, e.sym, BitVec.ofNat 32 e.cnt, nilPtr, nilPtr⟩] ∧ Frame [.node] s t

/-- R85, R91, R144: BUILD on the empty map fails with EmptyAlphabet; on two or more entries whose
counts add up to 2^32 or more it fails with CapacityOverflow, resource 2, for no sum wraps. Either
way no tree is there. -/
def Obligations.BuildFailures : Prop :=
  ∀ s : State, s.Accepted .build →
    (s.freqMap = [] → ∃ t, exec .build s = .next t ∧ FailedAs 1 0 t ∧ t.nodeN = 0 ∧
      t.root = 0xFFFFFFFF ∧ Frame [.node] s t) ∧
    (2 ≤ s.freqMap.length → 2 ^ 32 ≤ (s.freqMap.map FreqEntry.cnt).sum →
      ∃ t, exec .build s = .next t ∧ FailedAs 4 2 t ∧ t.nodeN = 0 ∧ t.root = 0xFFFFFFFF ∧
        Frame [.node] s t)

/-- R90, R92: what holds of the tree after a BUILD that succeeded on n entries, whether or not they
are a real FrequencyMap. -/
def Obligations.BuiltTreeIsStrict : Prop :=
  ∀ s t : State, s.Accepted .build → exec .build s = .next t → t.status.err = false →
    1 ≤ s.freqMap.length ∧ t.nodeN.toNat = 2 * s.freqMap.length - 1 ∧
    (∀ (k : Nat) (m : TreeNode), t.nodes[k]? = some m →
      (m.kind = .leaf ↔ k < s.freqMap.length)) ∧
    (∀ (k : Nat) (m : TreeNode), t.nodes[k]? = some m → m.kind = .internal →
      m.left ≠ m.right ∧ ∃ l r, nodeOf t.nodes m.left = some l ∧ nodeOf t.nodes m.right = some r ∧
        m.freq.toNat = l.freq.toNat + r.freq.toNat) ∧
    (∀ c : Nat, c < t.nodes.length → c ≠ t.root.toNat →
      ∃ (k : Nat), (∃ m, t.nodes[k]? = some m ∧ m.kind = .internal ∧
        (m.left.toNat = c ∨ m.right.toNat = c)) ∧
        ∀ (j : Nat) (n : TreeNode), t.nodes[j]? = some n → n.kind = .internal →
          (n.left.toNat = c ∨ n.right.toNat = c) → j = k) ∧
    (∀ (k : Nat) (m : TreeNode), t.nodes[k]? = some m → m.kind = .internal →
      m.left ≠ t.root ∧ m.right ≠ t.root) ∧
    (∃ m, nodeOf t.nodes t.root = some m ∧
      m.freq.toNat = (s.freqMap.map FreqEntry.cnt).sum) ∧
    (∃ T, t.HasTree T ∧ T.leafCount = s.freqMap.length ∧
      T.symbols.Perm (s.freqMap.map FreqEntry.sym))

/-! ## CODES -/

/-- R96: CODES on a tree that fits the table completes with the tree's CodeTable: one entry per leaf,
left to right, its code the path from the root, and the code words filled up with 0. -/
def Obligations.CodesRecordsThePaths : Prop :=
  ∀ (s : State) (T : HTree), s.Accepted .codes → s.HasTree T →
    T.height ≤ s.params.codeMaxLen → T.leafCount ≤ s.params.alphaCap →
    ∃ t, exec .codes s = .next t ∧ Succeeded t ∧ t.status.stage = 3 ∧ t.codeTable = T.table ∧
      t.codeN.toNat = T.leafCount ∧ Frame [.code] s t ∧ SameAbove .code s t ∧
      ∀ e k, e < t.codeN.toNat → k < 32 * s.params.codeWords →
        (t.codeAt e).bits.length ≤ k → t.codeBit e k = false

/-- R99: what holds of the CodeTable after a CODES that succeeded on a tree with L leaves: L entries,
each code as long as its leaf is deep; for L of two or more no code is a prefix of another, none is
empty; distinct leaf symbols give distinct entries. -/
def Obligations.CodesArePrefixFree : Prop :=
  ∀ (s t : State) (T : HTree), s.Accepted .codes → s.HasTree T → exec .codes s = .next t →
    t.status.err = false →
    t.codeN.toNat = T.leafCount ∧ t.codeTable = T.table ∧
    (2 ≤ T.leafCount →
      (∀ (j k : Nat) (d e : CodeEntry), t.codeTable[j]? = some d → t.codeTable[k]? = some e →
        j ≠ k → ¬ d.bits <+: e.bits) ∧ ∀ e ∈ t.codeTable, e.bits ≠ []) ∧
    (T.symbols.Nodup → (t.codeTable.map CodeEntry.sym).Nodup)

/-- R97: a single Leaf gets the empty code. -/
def Obligations.CodesSingleLeaf : Prop :=
  ∀ (s : State) (n : TreeNode), s.Accepted .codes → nodeOf s.nodes s.root = some n →
    n.kind = .leaf →
    ∃ t, exec .codes s = .next t ∧ Succeeded t ∧ t.codeN = 1 ∧ t.codeTable = [⟨n.sym, []⟩] ∧
      Frame [.code] s t

/-- R98, R145, R152: how CODES ends on any nodes whatever, the first error in the order of the
traversal being the one reported. With the table of a tree that fits; with BadTree and ROOT when ROOT
is no node; and otherwise at a node the traversal comes to without an error on its way, having
recorded the entries left of it: with BadTree and that node, if it is Internal and its left pointer
is no node, or its left subtree is a tree that still fits and its right pointer is no node; with
CapacityOverflow 3, if it is Internal and at depth `CODE_MAXLEN`; with CapacityOverflow 4, if it is a
Leaf and `ALPHA_CAP` entries have been recorded, so that there are `ALPHA_CAP + 1` different paths
from ROOT to leaves. -/
def Obligations.CodesOutcomes : Prop :=
  ∀ s : State, s.Accepted .codes → ∃ t, exec .codes s = .next t ∧
    ((∃ T, s.HasTree T ∧ T.height ≤ s.params.codeMaxLen ∧ T.leafCount ≤ s.params.alphaCap ∧
        Succeeded t ∧ t.codeTable = T.table) ∨
      (t.codeN = 0 ∧
        ((nodeOf s.nodes s.root = none ∧ FailedAs 5 s.root t) ∨
          (∃ q m path done, WalkedTo s.nodes s.root s.params.codeMaxLen q path done ∧
            path.length < s.params.codeMaxLen ∧ done.length ≤ s.params.alphaCap ∧
            nodeOf s.nodes q = some m ∧ m.kind = .internal ∧
            (nodeOf s.nodes m.left = none ∨
              ∃ L, Represents s.nodes m.left L ∧
                path.length + 1 + L.height ≤ s.params.codeMaxLen ∧
                done.length + L.leafCount ≤ s.params.alphaCap ∧
                nodeOf s.nodes m.right = none) ∧
            FailedAs 5 q t) ∨
          (∃ q m path done, WalkedTo s.nodes s.root s.params.codeMaxLen q path done ∧
            path.length = s.params.codeMaxLen ∧ done.length ≤ s.params.alphaCap ∧
            nodeOf s.nodes q = some m ∧ m.kind = .internal ∧ FailedAs 4 3 t) ∨
          (∃ q m path done, WalkedTo s.nodes s.root s.params.codeMaxLen q path done ∧
            done.length = s.params.alphaCap ∧
            nodeOf s.nodes q = some m ∧ m.kind = .leaf ∧ FailedAs 4 4 t ∧
            ∃ paths : List (List Bool), paths.Nodup ∧ paths.length = s.params.alphaCap + 1 ∧
              ∀ ps ∈ paths, ps.length ≤ s.params.codeMaxLen ∧
                ∃ r l, Path s.nodes s.root ps r ∧ nodeOf s.nodes r = some l ∧
                  l.kind = .leaf))))

/-! ## ENCODE -/

/-- R100: ENCODE on a text whose symbols all have an entry and whose codes fit completes with the
codes in input order. -/
def Obligations.EncodeWritesTheCodes : Prop :=
  ∀ s : State, s.Accepted .encode → Covers s.codeTable s.text →
    (codeBits s.codeTable s.text).length ≤ s.params.bitCap →
    ∃ t, exec .encode s = .next t ∧ Succeeded t ∧ t.status.stage = 4 ∧
      t.bitString = codeBits s.codeTable s.text ∧
      t.bitLen.toNat = (codeBits s.codeTable s.text).length ∧ Frame [.bits] s t ∧
      SameAbove .bits s t

/-- R100, R142, R144: ENCODE fails at the first symbol that has no entry, with UnknownSymbol and that
symbol's index, or at the first code that does not fit, with CapacityOverflow, resource 5; the
BitString is empty then. -/
def Obligations.EncodeFailures : Prop :=
  ∀ (s : State) (xs ys : List Word) (y : Word), s.Accepted .encode → s.text = xs ++ y :: ys →
    Covers s.codeTable xs → (codeBits s.codeTable xs).length ≤ s.params.bitCap →
    ((∀ e ∈ s.codeTable, e.sym ≠ y) →
      ∃ t, exec .encode s = .next t ∧ FailedAs 2 (BitVec.ofNat 32 xs.length) t ∧ t.bitLen = 0 ∧
        Frame [.bits] s t) ∧
    ((∃ e ∈ s.codeTable, e.sym = y) →
      s.params.bitCap < (codeBits s.codeTable (xs ++ [y])).length →
      ∃ t, exec .encode s = .next t ∧ FailedAs 4 5 t ∧ t.bitLen = 0 ∧ Frame [.bits] s t)

/-! ## COMPRESS -/

/-- R103, R104: COMPRESS is FREQ, BUILD, CODES and ENCODE, each on the result of the one before. If
all succeed its result is theirs. The first that fails ends it with that error and that stage in
STAGE; the destinations of the later ones become empty. -/
def Obligations.CompressIsThePipeline : Prop :=
  ∀ s a b c d : State, s.Accepted .compress → exec .freq s = .next a → exec .build a = .next b →
    exec .codes b = .next c → exec .encode c = .next d →
    (a.status.err = true →
      exec .compress s =
        .next ((((a.emptyDest .node).emptyDest .code).emptyDest .bits).setStage 1)) ∧
    (a.status.err = false → b.status.err = true →
      exec .compress s = .next (((b.emptyDest .code).emptyDest .bits).setStage 2)) ∧
    (a.status.err = false → b.status.err = false → c.status.err = true →
      exec .compress s = .next ((c.emptyDest .bits).setStage 3)) ∧
    (a.status.err = false → b.status.err = false → c.status.err = false →
      exec .compress s = .next (d.setStage 4))

/-- R103: COMPRESS completes with the FrequencyMap of the text, the tree of that map, the codes of
that tree and the BitString of those codes, whenever the map fits the table, the tree's height
`CODE_MAXLEN` and the BitString `BIT_CAP`. -/
def Obligations.CompressCompletes : Prop :=
  ∀ (s : State) (es : List FreqEntry) (ns : List TreeNode) (r : Nat) (T : HTree),
    s.Accepted .compress → s.text ≠ [] → IsFrequencyMap s.text es →
    es.length ≤ s.params.alphaCap → IsHuffmanTree es ns r →
    Represents ns (BitVec.ofNat 32 r) T → T.height ≤ s.params.codeMaxLen →
    (codeBits T.table s.text).length ≤ s.params.bitCap →
    ∃ t, exec .compress s = .next t ∧ Succeeded t ∧ t.status.stage = 4 ∧ t.freqMap = es ∧
      t.nodes = ns ∧ t.root = BitVec.ofNat 32 r ∧ t.codeTable = T.table ∧
      t.bitString = codeBits T.table s.text ∧
      Frame [.freq, .node, .code, .bits] s t ∧
      SameAbove .freq s t ∧ SameAbove .node s t ∧ SameAbove .code s t ∧ SameAbove .bits s t

/-- R104, R105: COMPRESS on the empty text fails with EmptyAlphabet in its second stage and leaves
every value empty. -/
def Obligations.CompressEmptyText : Prop :=
  ∀ s : State, s.Accepted .compress → s.textLen = 0 →
    ∃ t, exec .compress s = .next t ∧ FailedAs 1 0 t ∧ t.status.stage = 2 ∧ t.freqN = 0 ∧
      t.nodeN = 0 ∧ t.root = 0xFFFFFFFF ∧ t.codeN = 0 ∧ t.bitLen = 0 ∧
      Frame [.freq, .node, .code, .bits] s t

/-- R105: the errors of COMPRESS and when it raises them; UnknownSymbol, BadTree and the other
resources never. -/
def Obligations.CompressErrors : Prop :=
  ∀ s t : State, s.Accepted .compress → exec .compress s = .next t →
    Succeeded t ∨ (FailedAs 1 0 t ∧ s.text = [] ∧ t.status.stage = 2) ∨
      (FailedAs 4 1 t ∧ s.params.alphaCap < s.text.dedup.length ∧ t.status.stage = 1) ∨
      (FailedAs 4 3 t ∧ s.params.codeMaxLen < s.params.alphaCap - 1 ∧ t.status.stage = 3) ∨
      (FailedAs 4 5 t ∧ t.status.stage = 4 ∧
        s.params.bitCap < (codeBits t.codeTable s.text).length)

/-- R102: after COMPRESS the BitString is as long as the counts times the code lengths say, summed
over the map. -/
def Obligations.CompressedLength : Prop :=
  ∀ s t : State, s.Accepted .compress → exec .compress s = .next t → t.status.err = false →
    t.bitLen.toNat =
      (t.freqMap.map fun e => e.cnt * (codeBits t.codeTable [e.sym]).length).sum

/-- R106: a text of one symbol repeated gives one Leaf, one empty code and no bits. -/
def Obligations.CompressSingleSymbol : Prop :=
  ∀ (s : State) (x : Word) (k : Nat), s.Accepted .compress → s.text = List.replicate (k + 1) x →
    ∃ t, exec .compress s = .next t ∧ Succeeded t ∧ t.freqMap = [⟨x, k + 1⟩] ∧
      t.nodes = [⟨.leaf, x, BitVec.ofNat 32 (k + 1), nilPtr, nilPtr⟩] ∧ t.root = 0 ∧
      t.codeTable = [⟨x, []⟩] ∧ t.bitLen = 0

/-! ## PACK, UNPACK, TOHEX -/

/-- R110, R111: PACK completes with the bits eight to a byte, the first the most significant, the
last byte filled up with 0. -/
def Obligations.PackGroupsTheBits : Prop :=
  ∀ s : State, s.Accepted .pack →
    ∃ t, exec .pack s = .next t ∧ Succeeded t ∧ t.status.stage = 6 ∧
      t.byteLen.toNat = (s.bitLen.toNat + 7) / 8 ∧
      (∀ j k, j < t.byteLen.toNat → k < 8 →
        (t.packedBytes.getD j 0).getLsbD (7 - k) = s.bitString.getD (8 * j + k) false) ∧
      t.bitString = s.bitString ∧ Frame [.bytes] s t ∧ SameAbove .bytes s t

/-- R114, R115: UNPACK completes with the bits of every byte, most significant first, eight for
each. -/
def Obligations.UnpackExpandsTheBytes : Prop :=
  ∀ s : State, s.Accepted .unpack →
    ∃ t, exec .unpack s = .next t ∧ Succeeded t ∧ t.status.stage = 7 ∧
      t.bitLen.toNat = 8 * s.byteLen.toNat ∧
      (∀ j k, j < s.byteLen.toNat → k < 8 →
        t.bitString.getD (8 * j + k) false = (s.packedBytes.getD j 0).getLsbD (7 - k)) ∧
      t.packedBytes = s.packedBytes ∧ Frame [.bits] s t ∧ SameAbove .bits s t

/-- R116, R117: TOHEX completes with two lowercase hex digits for each byte, high digit first, and a
space between neighbours. -/
def Obligations.ToHexRendersTheBytes : Prop :=
  ∀ s : State, s.Accepted .toHex →
    ∃ t, exec .toHex s = .next t ∧ Succeeded t ∧ t.status.stage = 8 ∧
      t.hexLen.toNat = 3 * s.byteLen.toNat - 1 ∧
      (∀ j, j < s.byteLen.toNat → ∀ hi lo : Nat, hi < 16 → lo < 16 →
        (s.packedBytes.getD j 0).toNat = 16 * hi + lo →
        (t.hexString.getD (3 * j) 0).toNat = (if hi < 10 then 0x30 + hi else 0x61 + hi - 10) ∧
        (t.hexString.getD (3 * j + 1) 0).toNat = (if lo < 10 then 0x30 + lo else 0x61 + lo - 10) ∧
        (j + 1 < s.byteLen.toNat → t.hexString.getD (3 * j + 2) 0 = 0x20)) ∧
      t.packedBytes = s.packedBytes ∧ Frame [.hex] s t ∧ SameAbove .hex s t

/-- R118: UNPACK after PACK gives the BitString followed by the pad bits, the BitString itself exactly
when its length is a multiple of 8; PACK after UNPACK gives the same bytes. -/
def Obligations.PackAndUnpackRelate : Prop :=
  ∀ s : State, s.Inv → s.status.busy = false →
    (∃ a b, runCommand .pack s = .next a ∧ runCommand .unpack a = .next b ∧ Succeeded b ∧
      b.bitString =
        s.bitString ++ List.replicate ((8 - s.bitLen.toNat % 8) % 8) false ∧
      b.bitLen.toNat = 8 * ((s.bitLen.toNat + 7) / 8) ∧
      (b.bitString = s.bitString ↔ s.bitLen.toNat % 8 = 0)) ∧
    (∃ a b, runCommand .unpack s = .next a ∧ runCommand .pack a = .next b ∧ Succeeded b ∧
      b.packedBytes = s.packedBytes ∧ b.byteLen = s.byteLen)

/-! ## DECODE -/

/-- R120, R121: DECODE on bits made of whole walks to leaves completes with the leaves' symbols, in
order, if they fit. -/
def Obligations.DecodeEmitsTheSymbols : Prop :=
  ∀ (s : State) (n : TreeNode) (xs : List Word), s.Accepted .decode →
    nodeOf s.nodes s.root = some n → Emits s.nodes s.root xs s.bitString →
    xs.length ≤ s.params.outCap →
    ∃ t, exec .decode s = .next t ∧ Succeeded t ∧ t.status.stage = 9 ∧ t.outText = xs ∧
      t.outLen.toNat = xs.length ∧ Frame [.out] s t ∧ SameAbove .out s t

/-- R121 to R124: how DECODE ends on any bits and any nodes whatever: with the symbols of whole
walks; with BadTree when ROOT is no node; with MalformedBitStream, BITLEN, when the bits end inside
a walk; with MalformedBitStream, bit 31 and the bit's index, when a bit finds no child; with
CapacityOverflow 6 when a Leaf is reached and OUT is full. The failures leave OUT empty. -/
def Obligations.DecodeOutcomes : Prop :=
  ∀ s : State, s.Accepted .decode → ∃ t, exec .decode s = .next t ∧
    ((∃ xs, (nodeOf s.nodes s.root).isSome ∧ Emits s.nodes s.root xs s.bitString ∧
        xs.length ≤ s.params.outCap ∧ Succeeded t ∧ t.outText = xs) ∨
      (t.outLen = 0 ∧
        ((nodeOf s.nodes s.root = none ∧ FailedAs 5 s.root t) ∨
          (∃ xs us vs q m, s.bitString = us ++ vs ∧ vs ≠ [] ∧ Emits s.nodes s.root xs us ∧
            xs.length ≤ s.params.outCap ∧ Path s.nodes s.root vs q ∧
            nodeOf s.nodes q = some m ∧ m.kind = .internal ∧
            FailedAs 3 ((0 : BitVec 1) ++ s.bitLen.extractLsb' 0 31) t) ∨
          (∃ xs us vs b rest q m, s.bitString = us ++ vs ++ b :: rest ∧
            Emits s.nodes s.root xs us ∧ xs.length ≤ s.params.outCap ∧
            Path s.nodes s.root vs q ∧ nodeOf s.nodes q = some m ∧
            ((m.kind = .internal ∧
                nodeOf s.nodes (if b then m.right else m.left) = none) ∨
              (m.kind = .leaf ∧ vs = [])) ∧
            FailedAs 3 ((1 : BitVec 1) ++ BitVec.ofNat 31 (us ++ vs).length) t) ∨
          (∃ xs us vs rest q m, s.bitString = us ++ vs ++ rest ∧ vs ≠ [] ∧
            Emits s.nodes s.root xs us ∧ xs.length = s.params.outCap ∧
            Path s.nodes s.root vs q ∧ nodeOf s.nodes q = some m ∧ m.kind = .leaf ∧
            FailedAs 4 6 t))))

/-- R125, R126: no bits decode to no symbols on any tree whose root is a node; with a Leaf as the
root, any bit is one into a missing child, at index 0. -/
def Obligations.DecodeEmptyBitsAndSingleLeaf : Prop :=
  ∀ (s : State) (n : TreeNode), s.Accepted .decode → nodeOf s.nodes s.root = some n →
    (s.bitLen = 0 → ∃ t, exec .decode s = .next t ∧ Succeeded t ∧ t.outLen = 0) ∧
    (n.kind = .leaf → s.bitLen ≠ 0 →
      ∃ t, exec .decode s = .next t ∧ FailedAs 3 0x80000000 t ∧ t.outLen = 0)

/-- R127: pad bits are decoded like any others: with p zero bits after whole codes, and the leftmost
leaf at depth d, `p div d` copies of its symbol come after the text, and when d does not divide p
the command fails as exhausted. -/
def Obligations.DecodeOverReadsPadBits : Prop :=
  ∀ (s : State) (T : HTree) (xs : List Word) (bs : List Bool) (p : Nat), s.Accepted .decode →
    s.HasTree T → 2 ≤ T.leafCount → Spells T.table xs bs →
    s.bitString = bs ++ List.replicate p false → 1 ≤ p → p ≤ 7 →
    xs.length + p / T.leftDepth ≤ s.params.outCap →
    ∃ t, exec .decode s = .next t ∧
      (p % T.leftDepth = 0 → Succeeded t ∧
        t.outText = xs ++ List.replicate (p / T.leftDepth) T.leftmost) ∧
      (p % T.leftDepth ≠ 0 → FailedAs 3 s.bitLen t ∧ t.outLen = 0)

/-! ## Round trip -/

/-- R128: COMPRESS, then DECODE of what it left, gives the text back, for a text with at least two
distinct symbols. -/
def Obligations.CompressThenDecode : Prop :=
  ∀ s a : State, s.Inv → s.status.busy = false → 2 ≤ s.text.dedup.length →
    s.textLen.toNat ≤ s.params.outCap → runCommand .compress s = .next a → a.status.err = false →
    ∃ b, runCommand .decode a = .next b ∧ Succeeded b ∧ b.outText = s.text ∧
      b.outLen = s.textLen

/-- R128: COMPRESS, PACK, UNPACK, DECODE gives the text back when the bit length is a multiple of 8,
and whatever it is when the host writes the bit length back before DECODE. -/
def Obligations.PackedRoundTrip : Prop :=
  ∀ s a b c : State, s.Inv → s.status.busy = false → 2 ≤ s.text.dedup.length →
    s.textLen.toNat ≤ s.params.outCap → runCommand .compress s = .next a → a.status.err = false →
    runCommand .pack a = .next b → runCommand .unpack b = .next c →
    (a.bitLen.toNat % 8 = 0 →
      ∃ d, runCommand .decode c = .next d ∧ Succeeded d ∧ d.outText = s.text) ∧
    (∃ c', c.hostWrite (addressOf 0 0x0B) a.bitLen = some c' ∧
      ∃ d, runCommand .decode c' = .next d ∧ Succeeded d ∧ d.outText = s.text)
end

