-- ==== Sys2Proof/Laws/State.lean ====
section
/-! SUPPORT. The small lemmas of State: one per field per named update, so that no later proof
unfolds a record update. The eight length registers are read through `State.len`. -/

namespace Sys2Proof.Machine

open Sys2Proof

/-! ## `State.putWord` -/

@[simp] theorem State.putWord_params (s : State) (sp : Space) (i : Nat) (w : Word) :
    (s.putWord sp i w).params = s.params := rfl

@[simp] theorem State.putWord_cmd (s : State) (sp : Space) (i : Nat) (w : Word) :
    (s.putWord sp i w).cmd = s.cmd := rfl

@[simp] theorem State.putWord_status (s : State) (sp : Space) (i : Nat) (w : Word) :
    (s.putWord sp i w).status = s.status := rfl

@[simp] theorem State.putWord_errCode (s : State) (sp : Space) (i : Nat) (w : Word) :
    (s.putWord sp i w).errCode = s.errCode := rfl

@[simp] theorem State.putWord_errInfo (s : State) (sp : Space) (i : Nat) (w : Word) :
    (s.putWord sp i w).errInfo = s.errInfo := rfl

@[simp] theorem State.putWord_ctrl (s : State) (sp : Space) (i : Nat) (w : Word) :
    (s.putWord sp i w).ctrl = s.ctrl := rfl

@[simp] theorem State.putWord_root (s : State) (sp : Space) (i : Nat) (w : Word) :
    (s.putWord sp i w).root = s.root := rfl

@[simp] theorem State.putWord_mem (s : State) (sp : Space) (i : Nat) (w : Word) :
    (s.putWord sp i w).mem = s.mem.set sp ((s.mem.get sp).put i (sp.layout s.params i w)) := rfl

@[simp] theorem State.putWord_inbox (s : State) (sp : Space) (i : Nat) (w : Word) :
    (s.putWord sp i w).inbox = s.inbox := rfl

@[simp] theorem State.putWord_resp (s : State) (sp : Space) (i : Nat) (w : Word) :
    (s.putWord sp i w).resp = s.resp := rfl

@[simp] theorem State.putWord_len (s : State) (sp : Space) (i : Nat) (w : Word) (r : Space) :
    (s.putWord sp i w).len r = s.len r := by cases r <;> rfl

/-! ## `State.forget` -/

@[simp] theorem State.forget_params (s : State) (sp : Space) :
    (s.forget sp).params = s.params := rfl

@[simp] theorem State.forget_cmd (s : State) (sp : Space) :
    (s.forget sp).cmd = s.cmd := rfl

@[simp] theorem State.forget_status (s : State) (sp : Space) :
    (s.forget sp).status = s.status := rfl

@[simp] theorem State.forget_errCode (s : State) (sp : Space) :
    (s.forget sp).errCode = s.errCode := rfl

@[simp] theorem State.forget_errInfo (s : State) (sp : Space) :
    (s.forget sp).errInfo = s.errInfo := rfl

@[simp] theorem State.forget_ctrl (s : State) (sp : Space) :
    (s.forget sp).ctrl = s.ctrl := rfl

@[simp] theorem State.forget_root (s : State) (sp : Space) :
    (s.forget sp).root = s.root := rfl

@[simp] theorem State.forget_mem (s : State) (sp : Space) :
    (s.forget sp).mem = s.mem.set sp (s.mem.get sp).forget := rfl

@[simp] theorem State.forget_inbox (s : State) (sp : Space) :
    (s.forget sp).inbox = s.inbox := rfl

@[simp] theorem State.forget_resp (s : State) (sp : Space) :
    (s.forget sp).resp = s.resp := rfl

@[simp] theorem State.forget_len (s : State) (sp : Space) (r : Space) :
    (s.forget sp).len r = s.len r := by cases r <;> rfl

/-! ## `State.setRoot` -/

@[simp] theorem State.setRoot_params (s : State) (v : Word) :
    (s.setRoot v).params = s.params := rfl

@[simp] theorem State.setRoot_cmd (s : State) (v : Word) :
    (s.setRoot v).cmd = s.cmd := rfl

@[simp] theorem State.setRoot_status (s : State) (v : Word) :
    (s.setRoot v).status = s.status := rfl

@[simp] theorem State.setRoot_errCode (s : State) (v : Word) :
    (s.setRoot v).errCode = s.errCode := rfl

@[simp] theorem State.setRoot_errInfo (s : State) (v : Word) :
    (s.setRoot v).errInfo = s.errInfo := rfl

@[simp] theorem State.setRoot_ctrl (s : State) (v : Word) :
    (s.setRoot v).ctrl = s.ctrl := rfl

@[simp] theorem State.setRoot_root (s : State) (v : Word) :
    (s.setRoot v).root = v := rfl

@[simp] theorem State.setRoot_mem (s : State) (v : Word) :
    (s.setRoot v).mem = s.mem := rfl

@[simp] theorem State.setRoot_inbox (s : State) (v : Word) :
    (s.setRoot v).inbox = s.inbox := rfl

@[simp] theorem State.setRoot_resp (s : State) (v : Word) :
    (s.setRoot v).resp = s.resp := rfl

@[simp] theorem State.setRoot_len (s : State) (v : Word) (r : Space) :
    (s.setRoot v).len r = s.len r := by cases r <;> rfl

/-! ## `State.setStage` -/

@[simp] theorem State.setStage_params (s : State) (n : BitVec 4) :
    (s.setStage n).params = s.params := rfl

@[simp] theorem State.setStage_cmd (s : State) (n : BitVec 4) :
    (s.setStage n).cmd = s.cmd := rfl

@[simp] theorem State.setStage_status (s : State) (n : BitVec 4) :
    (s.setStage n).status = { s.status with stage := n } := rfl

@[simp] theorem State.setStage_errCode (s : State) (n : BitVec 4) :
    (s.setStage n).errCode = s.errCode := rfl

@[simp] theorem State.setStage_errInfo (s : State) (n : BitVec 4) :
    (s.setStage n).errInfo = s.errInfo := rfl

@[simp] theorem State.setStage_ctrl (s : State) (n : BitVec 4) :
    (s.setStage n).ctrl = s.ctrl := rfl

@[simp] theorem State.setStage_root (s : State) (n : BitVec 4) :
    (s.setStage n).root = s.root := rfl

@[simp] theorem State.setStage_mem (s : State) (n : BitVec 4) :
    (s.setStage n).mem = s.mem := rfl

@[simp] theorem State.setStage_inbox (s : State) (n : BitVec 4) :
    (s.setStage n).inbox = s.inbox := rfl

@[simp] theorem State.setStage_resp (s : State) (n : BitVec 4) :
    (s.setStage n).resp = s.resp := rfl

@[simp] theorem State.setStage_len (s : State) (n : BitVec 4) (r : Space) :
    (s.setStage n).len r = s.len r := by cases r <;> rfl

/-! ## `State.complete` -/

@[simp] theorem State.complete_params (s : State) :
    s.complete.params = s.params := rfl

@[simp] theorem State.complete_cmd (s : State) :
    s.complete.cmd = s.cmd := rfl

@[simp] theorem State.complete_status (s : State) :
    s.complete.status = s.status.complete := rfl

@[simp] theorem State.complete_errCode (s : State) :
    s.complete.errCode = s.errCode := rfl

@[simp] theorem State.complete_errInfo (s : State) :
    s.complete.errInfo = s.errInfo := rfl

@[simp] theorem State.complete_ctrl (s : State) :
    s.complete.ctrl = s.ctrl := rfl

@[simp] theorem State.complete_root (s : State) :
    s.complete.root = s.root := rfl

@[simp] theorem State.complete_mem (s : State) :
    s.complete.mem = s.mem := rfl

@[simp] theorem State.complete_inbox (s : State) :
    s.complete.inbox = s.inbox := rfl

@[simp] theorem State.complete_resp (s : State) :
    s.complete.resp = s.resp := rfl

@[simp] theorem State.complete_len (s : State) (r : Space) :
    s.complete.len r = s.len r := by cases r <;> rfl

/-! ## `State.takeError` -/

@[simp] theorem State.takeError_params (s : State) (e : CmdError) :
    (s.takeError e).params = s.params := rfl

@[simp] theorem State.takeError_cmd (s : State) (e : CmdError) :
    (s.takeError e).cmd = s.cmd := rfl

@[simp] theorem State.takeError_status (s : State) (e : CmdError) :
    (s.takeError e).status = s.status.fail := rfl

@[simp] theorem State.takeError_errCode (s : State) (e : CmdError) :
    (s.takeError e).errCode = e.code := rfl

@[simp] theorem State.takeError_errInfo (s : State) (e : CmdError) :
    (s.takeError e).errInfo = e.info := rfl

@[simp] theorem State.takeError_ctrl (s : State) (e : CmdError) :
    (s.takeError e).ctrl = s.ctrl := rfl

@[simp] theorem State.takeError_root (s : State) (e : CmdError) :
    (s.takeError e).root = s.root := rfl

@[simp] theorem State.takeError_mem (s : State) (e : CmdError) :
    (s.takeError e).mem = s.mem := rfl

@[simp] theorem State.takeError_inbox (s : State) (e : CmdError) :
    (s.takeError e).inbox = s.inbox := rfl

@[simp] theorem State.takeError_resp (s : State) (e : CmdError) :
    (s.takeError e).resp = s.resp := rfl

@[simp] theorem State.takeError_len (s : State) (e : CmdError) (r : Space) :
    (s.takeError e).len r = s.len r := by cases r <;> rfl

/-! ## `State.setLen` -/

@[simp] theorem State.setLen_params (s : State) (sp : Space) (v : Word) :
    (s.setLen sp v).params = s.params := by cases sp <;> rfl

@[simp] theorem State.setLen_cmd (s : State) (sp : Space) (v : Word) :
    (s.setLen sp v).cmd = s.cmd := by cases sp <;> rfl

@[simp] theorem State.setLen_status (s : State) (sp : Space) (v : Word) :
    (s.setLen sp v).status = s.status := by cases sp <;> rfl

@[simp] theorem State.setLen_errCode (s : State) (sp : Space) (v : Word) :
    (s.setLen sp v).errCode = s.errCode := by cases sp <;> rfl

@[simp] theorem State.setLen_errInfo (s : State) (sp : Space) (v : Word) :
    (s.setLen sp v).errInfo = s.errInfo := by cases sp <;> rfl

@[simp] theorem State.setLen_ctrl (s : State) (sp : Space) (v : Word) :
    (s.setLen sp v).ctrl = s.ctrl := by cases sp <;> rfl

@[simp] theorem State.setLen_root (s : State) (sp : Space) (v : Word) :
    (s.setLen sp v).root = s.root := by cases sp <;> rfl

@[simp] theorem State.setLen_mem (s : State) (sp : Space) (v : Word) :
    (s.setLen sp v).mem = s.mem := by cases sp <;> rfl

@[simp] theorem State.setLen_inbox (s : State) (sp : Space) (v : Word) :
    (s.setLen sp v).inbox = s.inbox := by cases sp <;> rfl

@[simp] theorem State.setLen_resp (s : State) (sp : Space) (v : Word) :
    (s.setLen sp v).resp = s.resp := by cases sp <;> rfl

@[simp] theorem State.setLen_len (s : State) (sp r : Space) (v : Word) :
    (s.setLen sp v).len r = if r = sp then v else s.len r := by cases sp <;> cases r <;> rfl

/-! ## `State.putWords`, `State.deliver`, `State.emptyDest`, `State.voidDest` -/

@[simp] theorem State.putWords_params (s : State) (sp : Space) (i : Nat) (ws : List Word) :
    (s.putWords sp i ws).params = s.params := by
  induction ws generalizing s i with
  | nil => rfl
  | cons w ws ih => simp [State.putWords, ih]

@[simp] theorem State.putWords_cmd (s : State) (sp : Space) (i : Nat) (ws : List Word) :
    (s.putWords sp i ws).cmd = s.cmd := by
  induction ws generalizing s i with
  | nil => rfl
  | cons w ws ih => simp [State.putWords, ih]

@[simp] theorem State.putWords_status (s : State) (sp : Space) (i : Nat) (ws : List Word) :
    (s.putWords sp i ws).status = s.status := by
  induction ws generalizing s i with
  | nil => rfl
  | cons w ws ih => simp [State.putWords, ih]

@[simp] theorem State.putWords_errCode (s : State) (sp : Space) (i : Nat) (ws : List Word) :
    (s.putWords sp i ws).errCode = s.errCode := by
  induction ws generalizing s i with
  | nil => rfl
  | cons w ws ih => simp [State.putWords, ih]

@[simp] theorem State.putWords_errInfo (s : State) (sp : Space) (i : Nat) (ws : List Word) :
    (s.putWords sp i ws).errInfo = s.errInfo := by
  induction ws generalizing s i with
  | nil => rfl
  | cons w ws ih => simp [State.putWords, ih]

@[simp] theorem State.putWords_ctrl (s : State) (sp : Space) (i : Nat) (ws : List Word) :
    (s.putWords sp i ws).ctrl = s.ctrl := by
  induction ws generalizing s i with
  | nil => rfl
  | cons w ws ih => simp [State.putWords, ih]

@[simp] theorem State.putWords_root (s : State) (sp : Space) (i : Nat) (ws : List Word) :
    (s.putWords sp i ws).root = s.root := by
  induction ws generalizing s i with
  | nil => rfl
  | cons w ws ih => simp [State.putWords, ih]

@[simp] theorem State.putWords_inbox (s : State) (sp : Space) (i : Nat) (ws : List Word) :
    (s.putWords sp i ws).inbox = s.inbox := by
  induction ws generalizing s i with
  | nil => rfl
  | cons w ws ih => simp [State.putWords, ih]

@[simp] theorem State.putWords_resp (s : State) (sp : Space) (i : Nat) (ws : List Word) :
    (s.putWords sp i ws).resp = s.resp := by
  induction ws generalizing s i with
  | nil => rfl
  | cons w ws ih => simp [State.putWords, ih]

@[simp] theorem State.putWords_len (s : State) (sp : Space) (i : Nat) (ws : List Word) (r : Space) :
    (s.putWords sp i ws).len r = s.len r := by
  induction ws generalizing s i with
  | nil => rfl
  | cons w ws ih => simp [State.putWords, ih]

@[simp] theorem State.deliver_params (s : State) (sp : Space) (n : Nat) (ws : List Word) :
    (s.deliver sp n ws).params = s.params := by simp [State.deliver]

@[simp] theorem State.deliver_cmd (s : State) (sp : Space) (n : Nat) (ws : List Word) :
    (s.deliver sp n ws).cmd = s.cmd := by simp [State.deliver]

@[simp] theorem State.deliver_status (s : State) (sp : Space) (n : Nat) (ws : List Word) :
    (s.deliver sp n ws).status = s.status := by simp [State.deliver]

@[simp] theorem State.deliver_errCode (s : State) (sp : Space) (n : Nat) (ws : List Word) :
    (s.deliver sp n ws).errCode = s.errCode := by simp [State.deliver]

@[simp] theorem State.deliver_errInfo (s : State) (sp : Space) (n : Nat) (ws : List Word) :
    (s.deliver sp n ws).errInfo = s.errInfo := by simp [State.deliver]

@[simp] theorem State.deliver_ctrl (s : State) (sp : Space) (n : Nat) (ws : List Word) :
    (s.deliver sp n ws).ctrl = s.ctrl := by simp [State.deliver]

@[simp] theorem State.deliver_root (s : State) (sp : Space) (n : Nat) (ws : List Word) :
    (s.deliver sp n ws).root = s.root := by simp [State.deliver]

@[simp] theorem State.deliver_inbox (s : State) (sp : Space) (n : Nat) (ws : List Word) :
    (s.deliver sp n ws).inbox = s.inbox := by simp [State.deliver]

@[simp] theorem State.deliver_resp (s : State) (sp : Space) (n : Nat) (ws : List Word) :
    (s.deliver sp n ws).resp = s.resp := by simp [State.deliver]

@[simp] theorem State.deliver_len (s : State) (sp : Space) (n : Nat) (ws : List Word) (r : Space) :
    (s.deliver sp n ws).len r = if r = sp then BitVec.ofNat 32 n else s.len r := by
  simp [State.deliver]

@[simp] theorem State.deliver_mem (s : State) (sp : Space) (n : Nat) (ws : List Word) :
    (s.deliver sp n ws).mem = (s.putWords sp 0 ws).mem := by simp [State.deliver]

@[simp] theorem State.emptyDest_params (s : State) (sp : Space) :
    (s.emptyDest sp).params = s.params := by cases sp <;> rfl

@[simp] theorem State.emptyDest_cmd (s : State) (sp : Space) :
    (s.emptyDest sp).cmd = s.cmd := by cases sp <;> rfl

@[simp] theorem State.emptyDest_status (s : State) (sp : Space) :
    (s.emptyDest sp).status = s.status := by cases sp <;> rfl

@[simp] theorem State.emptyDest_errCode (s : State) (sp : Space) :
    (s.emptyDest sp).errCode = s.errCode := by cases sp <;> rfl

@[simp] theorem State.emptyDest_errInfo (s : State) (sp : Space) :
    (s.emptyDest sp).errInfo = s.errInfo := by cases sp <;> rfl

@[simp] theorem State.emptyDest_ctrl (s : State) (sp : Space) :
    (s.emptyDest sp).ctrl = s.ctrl := by cases sp <;> rfl

@[simp] theorem State.emptyDest_root (s : State) (sp : Space) :
    (s.emptyDest sp).root = if sp = .node then nilPtr else s.root := by
  cases sp <;> rfl

@[simp] theorem State.emptyDest_mem (s : State) (sp : Space) :
    (s.emptyDest sp).mem = s.mem := by cases sp <;> rfl

@[simp] theorem State.emptyDest_inbox (s : State) (sp : Space) :
    (s.emptyDest sp).inbox = s.inbox := by cases sp <;> rfl

@[simp] theorem State.emptyDest_resp (s : State) (sp : Space) :
    (s.emptyDest sp).resp = s.resp := by cases sp <;> rfl

@[simp] theorem State.emptyDest_len (s : State) (sp r : Space) :
    (s.emptyDest sp).len r = if r = sp then 0 else s.len r := by cases sp <;> cases r <;> rfl

@[simp] theorem State.voidDest_params (s : State) (sp : Space) :
    (s.voidDest sp).params = s.params := by cases sp <;> rfl

@[simp] theorem State.voidDest_cmd (s : State) (sp : Space) :
    (s.voidDest sp).cmd = s.cmd := by cases sp <;> rfl

@[simp] theorem State.voidDest_status (s : State) (sp : Space) :
    (s.voidDest sp).status = s.status := by cases sp <;> rfl

@[simp] theorem State.voidDest_errCode (s : State) (sp : Space) :
    (s.voidDest sp).errCode = s.errCode := by cases sp <;> rfl

@[simp] theorem State.voidDest_errInfo (s : State) (sp : Space) :
    (s.voidDest sp).errInfo = s.errInfo := by cases sp <;> rfl

@[simp] theorem State.voidDest_ctrl (s : State) (sp : Space) :
    (s.voidDest sp).ctrl = s.ctrl := by cases sp <;> rfl

@[simp] theorem State.voidDest_root (s : State) (sp : Space) :
    (s.voidDest sp).root = if sp = .node then nilPtr else s.root := by
  cases sp <;> rfl

@[simp] theorem State.voidDest_mem (s : State) (sp : Space) :
    (s.voidDest sp).mem = s.mem.set sp (s.mem.get sp).forget := by cases sp <;> rfl

@[simp] theorem State.voidDest_inbox (s : State) (sp : Space) :
    (s.voidDest sp).inbox = s.inbox := by cases sp <;> rfl

@[simp] theorem State.voidDest_resp (s : State) (sp : Space) :
    (s.voidDest sp).resp = s.resp := by cases sp <;> rfl

@[simp] theorem State.voidDest_len (s : State) (sp r : Space) :
    (s.voidDest sp).len r = if r = sp then 0 else s.len r := by cases sp <;> cases r <;> rfl

/-! ## `State.accept` -/


@[simp] theorem State.accept_params (s : State) (w : Word) : (s.accept w).params = s.params := by
  unfold State.accept; split <;> rfl

@[simp] theorem State.accept_cmd (s : State) (w : Word) : (s.accept w).cmd = w := by
  unfold State.accept; split <;> rfl

@[simp] theorem State.accept_ctrl (s : State) (w : Word) : (s.accept w).ctrl = s.ctrl := by
  unfold State.accept; split <;> rfl

@[simp] theorem State.accept_root (s : State) (w : Word) : (s.accept w).root = s.root := by
  unfold State.accept; split <;> rfl

@[simp] theorem State.accept_mem (s : State) (w : Word) : (s.accept w).mem = s.mem := by
  unfold State.accept; split <;> rfl

@[simp] theorem State.accept_inbox (s : State) (w : Word) : (s.accept w).inbox = s.inbox := by
  unfold State.accept; split <;> rfl

@[simp] theorem State.accept_resp (s : State) (w : Word) : (s.accept w).resp = s.resp := by
  unfold State.accept; split <;> rfl

@[simp] theorem State.accept_len (s : State) (w : Word) (r : Space) :
    (s.accept w).len r = s.len r := by
  unfold State.accept; cases r <;> split <;> rfl

end Sys2Proof.Machine
end

