-- ==== Sys2Proof/Laws/Memory.lean ====
section
/-! SUPPORT. Memory: read after write, what a write leaves alone, layouts, and that every memory
operation keeps the canonical form. -/

namespace Sys2Proof.Machine

open Sys2Proof

/-! ## Fields of a word -/

theorem lowBits_toNat (n : Nat) (w : Word) : (lowBits n w).toNat = w.toNat % 2 ^ n := by
  have h : w.toNat % 2 ^ n ≤ w.toNat := Nat.mod_le _ _
  simp only [lowBits, BitVec.toNat_setWidth]
  exact Nat.mod_eq_of_lt (by omega)

@[simp] theorem lowBits_lowBits (n : Nat) (w : Word) : lowBits n (lowBits n w) = lowBits n w := by
  apply BitVec.eq_of_toNat_eq
  simp [lowBits_toNat]

theorem lowBits_eq_self {n : Nat} {w : Word} (h : w.toNat < 2 ^ n) : lowBits n w = w := by
  apply BitVec.eq_of_toNat_eq
  rw [lowBits_toNat, Nat.mod_eq_of_lt h]

theorem lowBits_getLsbD (n : Nat) (w : Word) (k : Nat) :
    (lowBits n w).getLsbD k = (decide (k < n) && w.getLsbD k) := by
  simp only [lowBits, BitVec.getLsbD_setWidth]
  by_cases hk : k < 32
  · simp [hk]
  · simp [hk, BitVec.getLsbD_of_ge w k (by omega)]

/-- Writing a word in its layout changes nothing of it. -/
theorem layout_idem {p : Params} (h : p.Legal) (sp : Space) (i : Nat) (w : Word) :
    sp.layout p i (sp.layout p i w) = sp.layout p i w := by
  obtain ⟨⟨-, hs⟩, -, -, ⟨-, hc⟩, -⟩ := h
  cases sp <;> simp only [Space.layout]
  case text => simp
  case out => simp
  case bits => simp
  case bytes => simp
  case hex => simp
  case freq => split <;> simp
  case node =>
    split
    · ext k hk
      have h31 : kindBit.getLsbD k = decide (k = 31) := by
        revert k; decide
      simp only [← BitVec.getLsbD_eq_getElem, BitVec.getLsbD_or, BitVec.getLsbD_and, lowBits_getLsbD, h31]
      by_cases h1 : k = 31 <;> by_cases h2 : k < p.symW <;> simp [h1, h2]
    · rfl
  case code =>
    split
    · simp
    · split
      · apply BitVec.eq_of_toNat_eq
        have h1 : w.toNat % (p.codeMaxLen + 1) < p.codeMaxLen + 1 := Nat.mod_lt _ (by omega)
        simp only [BitVec.toNat_ofNat]
        rw [Nat.mod_eq_of_lt (show w.toNat % (p.codeMaxLen + 1) < 2 ^ 32 by omega),
          Nat.mod_eq_of_lt h1, Nat.mod_eq_of_lt (by omega)]
      · rfl

/-! ## The list of written words -/

theorem lookup_cellsPut (i : Nat) (w : Word) (cs : List (Nat × Word)) (j : Nat) :
    (cellsPut i w cs).lookup j = if j = i then some w else cs.lookup j := by
  have key (k : Nat) (v : Word) (ds : List (Nat × Word)) :
      ((k, v) :: ds).lookup j = if j = k then some v else ds.lookup j := by
    rw [List.lookup_cons]
    by_cases h : j = k
    · simp [h]
    · have : (j == k) = false := by simpa using h
      simp [this, h]
  induction cs with
  | nil => exact key i w []
  | cons c cs ih =>
    obtain ⟨k, v⟩ := c
    simp only [cellsPut]
    split
    · exact key i w _
    · split
      · rename_i h1 h2
        subst h2
        rw [key, key]
        split <;> rfl
      · rename_i h1 h2
        rw [key, key, ih]
        by_cases h : j = i
        · subst h; simp [h2]
        · simp [h]

theorem mem_cellsPut {i : Nat} {w : Word} {cs : List (Nat × Word)} {c : Nat × Word}
    (h : c ∈ cellsPut i w cs) : c = (i, w) ∨ c ∈ cs := by
  induction cs with
  | nil => simpa [cellsPut] using h
  | cons d cs ih =>
    obtain ⟨k, v⟩ := d
    simp only [cellsPut] at h
    split at h
    · simpa using h
    · split at h
      · rcases List.mem_cons.1 h with h | h
        · exact .inl h
        · exact .inr (List.mem_cons_of_mem _ h)
      · rcases List.mem_cons.1 h with h | h
        · exact .inr (by simp [h])
        · rcases ih h with h | h
          · exact .inl h
          · exact .inr (List.mem_cons_of_mem _ h)

/-- A write keeps the indices strictly rising. -/
theorem cellsPut_sorted {i : Nat} {w : Word} {cs : List (Nat × Word)}
    (h : cs.Pairwise fun x y => x.1 < y.1) : (cellsPut i w cs).Pairwise fun x y => x.1 < y.1 := by
  induction cs with
  | nil => simp [cellsPut]
  | cons d cs ih =>
    obtain ⟨k, v⟩ := d
    rw [List.pairwise_cons] at h
    simp only [cellsPut]
    split
    · rename_i h1
      refine List.pairwise_cons.2 ⟨fun c hc => ?_, List.pairwise_cons.2 h⟩
      rcases List.mem_cons.1 hc with rfl | hc
      · exact h1
      · have := h.1 c hc; simp only at this ⊢; omega
    · split
      · rename_i h1 h2
        subst h2
        exact List.pairwise_cons.2 h
      · refine List.pairwise_cons.2 ⟨fun c hc => ?_, ih h.2⟩
        rcases mem_cellsPut hc with rfl | hc
        · simp only; omega
        · exact h.1 c hc

/-! ## Memory -/

@[simp] theorem Memory.get_set (m : Memory) (sp r : Space) (b : Buf) :
    (m.set sp b).get r = if r = sp then b else m.get r := by cases sp <;> cases r <;> rfl

@[simp] theorem Memory.get_forgetAll (m : Memory) (r : Space) :
    m.forgetAll.get r = (m.get r).forget := by cases r <;> rfl

@[simp] theorem Space.mem_all (sp : Space) : sp ∈ Space.all := by cases sp <;> decide

theorem Buf.wf_forget (p : Params) (sp : Space) (b : Buf) : b.forget.wf p sp := by
  simp [Buf.wf, Buf.forget]

/-- Writing a word in its layout, inside the space, keeps a buffer's canonical form. -/
theorem Buf.wf_put {p : Params} {sp : Space} {b : Buf} {i : Nat} {w : Word} (hb : b.wf p sp)
    (hi : i < sp.size p) (hw : sp.layout p i w = w) : (b.put i w).wf p sp :=
  ⟨cellsPut_sorted hb.1, fun c hc => by
    rcases mem_cellsPut hc with rfl | hc
    · exact ⟨hi, hw⟩
    · exact hb.2 c hc⟩

theorem Memory.wf_set {p : Params} {m : Memory} {sp : Space} {b : Buf} (hm : m.wf p)
    (hb : b.wf p sp) : (m.set sp b).wf p := by
  intro r hr
  rw [Memory.get_set]
  split
  · rename_i h; exact h ▸ hb
  · exact hm r hr

theorem Memory.wf_forgetAll (p : Params) (m : Memory) : m.forgetAll.wf p := by
  intro r _
  rw [Memory.get_forgetAll]
  exact Buf.wf_forget _ _ _

/-- The memory after reset has the canonical form. -/
theorem reset_mem_wf : State.reset.mem.wf State.reset.params := by
  intro r _; cases r <;> exact ⟨List.Pairwise.nil, fun c hc => by cases hc⟩

/-! ## One word -/

/-- What a word reads as depends on memory and the parameters alone. -/
theorem State.word_congr {s t : State} (hp : t.params = s.params) (hm : t.mem = s.mem) (sp : Space)
    (i : Nat) : t.word sp i = s.word sp i := by
  simp only [State.word, hp, hm]

@[simp] theorem State.setLen_word (s : State) (r : Space) (v : Word) (sp : Space) (i : Nat) :
    (s.setLen r v).word sp i = s.word sp i := State.word_congr (by simp) (by simp) sp i

@[simp] theorem State.setRoot_word (s : State) (v : Word) (sp : Space) (i : Nat) :
    (s.setRoot v).word sp i = s.word sp i := rfl

@[simp] theorem State.setStage_word (s : State) (n : BitVec 4) (sp : Space) (i : Nat) :
    (s.setStage n).word sp i = s.word sp i := rfl

@[simp] theorem State.complete_word (s : State) (sp : Space) (i : Nat) :
    s.complete.word sp i = s.word sp i := rfl

@[simp] theorem State.takeError_word (s : State) (e : CmdError) (sp : Space) (i : Nat) :
    (s.takeError e).word sp i = s.word sp i := rfl

@[simp] theorem State.emptyDest_word (s : State) (r sp : Space) (i : Nat) :
    (s.emptyDest r).word sp i = s.word sp i := State.word_congr (by simp) (by simp) sp i

@[simp] theorem State.accept_word (s : State) (w : Word) (sp : Space) (i : Nat) :
    (s.accept w).word sp i = s.word sp i := State.word_congr (by simp) (by simp) sp i

/-- Read after write: the word written, in its layout, and every other word as before. -/
@[simp] theorem State.putWord_word (s : State) (sp : Space) (i : Nat) (w : Word) (r : Space)
    (j : Nat) : (s.putWord sp i w).word r j =
      if r = sp ∧ j = i then sp.layout s.params i w else s.word r j := by
  simp only [State.word, State.putWord_mem, State.putWord_params, Memory.get_set]
  by_cases hr : r = sp
  · subst hr
    simp only [if_true, Buf.find, Buf.put, lookup_cellsPut, true_and]
    by_cases hj : j = i
    · simp [hj]
    · simp [hj]
  · simp [hr]

/-- A sequence of words written from index `i` on. -/
theorem State.putWords_word (s : State) (sp : Space) (i : Nat) (ws : List Word) (r : Space)
    (j : Nat) : (s.putWords sp i ws).word r j =
      if r = sp ∧ i ≤ j ∧ j < i + ws.length then sp.layout s.params j (ws.getD (j - i) 0)
      else s.word r j := by
  induction ws generalizing s i with
  | nil => simp [State.putWords, show ¬(i ≤ j ∧ j < i) by omega]
  | cons w ws ih =>
    simp only [State.putWords, ih, State.putWord_word, State.putWord_params, List.length_cons]
    by_cases hr : r = sp
    · subst hr
      rcases Nat.lt_trichotomy j i with hj | rfl | hj
      · rw [if_neg (by omega), if_neg (by omega), if_neg (by omega)]
      · rw [if_neg (by omega), if_pos ⟨rfl, rfl⟩, if_pos (by refine ⟨rfl, ?_, ?_⟩ <;> omega)]
        simp
      · by_cases hk : j < i + (ws.length + 1)
        · rw [if_pos (by refine ⟨rfl, ?_, ?_⟩ <;> omega),
            if_pos (by refine ⟨rfl, ?_, ?_⟩ <;> omega)]
          have : j - i = (j - (i + 1)) + 1 := by omega
          rw [this, List.getD_cons_succ]
        · rw [if_neg (by omega), if_neg (by omega), if_neg (by omega)]
    · simp [hr]

/-- What a destination reads as after `deliver`: the words written, and above them what was there. -/
@[simp] theorem State.deliver_word (s : State) (sp : Space) (n : Nat) (ws : List Word) (r : Space)
    (j : Nat) : (s.deliver sp n ws).word r j =
      if r = sp ∧ j < ws.length then sp.layout s.params j (ws.getD j 0) else s.word r j := by
  simp [State.deliver, State.putWords_word]

theorem State.forget_word_other (s : State) {sp r : Space} (h : r ≠ sp) (i : Nat) :
    (s.forget sp).word r i = s.word r i := by
  simp [State.word, h]

theorem State.voidDest_word_other (s : State) {sp r : Space} (h : r ≠ sp) (i : Nat) :
    (s.voidDest sp).word r i = s.word r i := by
  simp [State.word, h]

/-! ## Canonical form -/

/-- Writing a word inside its space keeps the canonical form. -/
theorem State.putWord_wf {s : State} (hp : s.params.Legal) (hm : s.mem.wf s.params) {sp : Space}
    {i : Nat} (hi : i < sp.size s.params) (w : Word) : (s.putWord sp i w).mem.wf s.params := by
  rw [State.putWord_mem]
  exact Memory.wf_set hm (Buf.wf_put (hm sp (Space.mem_all sp)) hi (layout_idem hp _ _ _))

theorem State.putWords_wf {s : State} (hp : s.params.Legal) (hm : s.mem.wf s.params) {sp : Space}
    {i : Nat} {ws : List Word} (hi : i + ws.length ≤ sp.size s.params) :
    (s.putWords sp i ws).mem.wf s.params := by
  induction ws generalizing s i with
  | nil => simpa [State.putWords] using hm
  | cons w ws ih =>
    rw [List.length_cons] at hi
    have h1 := State.putWord_wf hp hm (sp := sp) (i := i) (by omega) w
    have := ih (s := s.putWord sp i w) (i := i + 1) (by simpa using hp) (by simpa using h1)
      (by simp; omega)
    simpa [State.putWords] using this

theorem State.forget_wf {s : State} (hm : s.mem.wf s.params) (sp : Space) :
    (s.forget sp).mem.wf s.params := by
  rw [State.forget_mem]; exact Memory.wf_set hm (Buf.wf_forget _ _ _)

theorem State.voidDest_wf {s : State} (hm : s.mem.wf s.params) (sp : Space) :
    (s.voidDest sp).mem.wf s.params := by
  rw [State.voidDest_mem]; exact Memory.wf_set hm (Buf.wf_forget _ _ _)

/-- A word read from a canonical memory is in its layout. -/
theorem State.word_layout {s : State} (hp : s.params.Legal) (hm : s.mem.wf s.params) (sp : Space)
    (i : Nat) : sp.layout s.params i (s.word sp i) = s.word sp i := by
  simp only [State.word]
  split
  · rename_i w h
    obtain ⟨l₁, l₂, hl, -⟩ := List.lookup_eq_some_iff.1 h
    exact ((hm sp (Space.mem_all sp)).2 (i, w) (by rw [hl]; simp)).2
  · exact layout_idem hp _ _ _

end Sys2Proof.Machine
end

