-- ==== Sys2Proof/Laws/Elements.lean ====
section
/-! SUPPORT. Elements: what the operand forms read back after a destination took its new value, one
lemma per buffer, and that what they read is in its layout. -/

namespace Sys2Proof.Machine

open Sys2Proof

/-! ## Sequences laid out element after element -/

theorem length_flatMap_const {α β : Type} {f : α → List β} {k : Nat} {es : List α}
    (h : ∀ e ∈ es, (f e).length = k) : (es.flatMap f).length = es.length * k := by
  induction es with
  | nil => simp
  | cons e es ih =>
    rw [List.flatMap_cons, List.length_append, h e (by simp),
      ih fun x hx => h x (List.mem_cons_of_mem _ hx), List.length_cons]
    ring

/-- Word `r` of element `i`, when every element takes `k` words. -/
theorem getD_flatMap_const {α β : Type} {f : α → List β} {k : Nat} {es : List α} {d : β}
    (h : ∀ e ∈ es, (f e).length = k) {i r : Nat} (hi : i < es.length) (hr : r < k) :
    (es.flatMap f).getD (i * k + r) d = (f es[i]).getD r d := by
  induction es generalizing i with
  | nil => simp at hi
  | cons e es ih =>
    have he := h e (by simp)
    rw [List.flatMap_cons]
    cases i with
    | zero =>
      rw [Nat.zero_mul, Nat.zero_add, List.getD_append _ _ _ _ (by omega)]
      rfl
    | succ i =>
      have hk : (i + 1) * k + r = k + (i * k + r) := by ring
      rw [hk, List.getD_append_right _ _ _ _ (by omega), he, Nat.add_sub_cancel_left,
        ih (fun x hx => h x (List.mem_cons_of_mem _ hx)) (by simpa using hi)]
      rfl

theorem ofNat_toNat_of_lt {n : Nat} (h : n < 2 ^ 32) : (BitVec.ofNat 32 n).toNat = n := by
  rw [BitVec.toNat_ofNat, Nat.mod_eq_of_lt h]

@[simp] theorem below_length {α : Type} (n : Word) (f : Nat → α) : (below n f).length = n.toNat := by
  simp [below]

theorem below_congr {α : Type} {n : Word} {f g : Nat → α} (h : ∀ i, i < n.toNat → f i = g i) :
    below n f = below n g := by
  simp only [below, List.map_inj_left, List.mem_range]
  exact h

/-- The elements below a length are `l` when there are as many and each is `l`'s. -/
theorem below_eq {α : Type} {n : Word} {f : Nat → α} {l : List α} (hn : n.toNat = l.length)
    (h : ∀ i (hi : i < l.length), f i = l[i]) : below n f = l := by
  apply List.ext_getElem
  · simp [hn]
  · intro i h1 h2
    simp [below, h i h2]

theorem below_getElem? {α : Type} {n : Word} {f : Nat → α} {i : Nat} (h : i < n.toNat) :
    (below n f)[i]? = some (f i) := by
  simp [below, h]

theorem mem_below {α : Type} {n : Word} {f : Nat → α} {x : α} (h : x ∈ below n f) :
    ∃ i, i < n.toNat ∧ f i = x := by
  simpa [below] using h

/-! ## Bits and words -/

theorem msbFirst_append (bs : List Bool) (b : Bool) :
    msbFirst (bs ++ [b]) = 2 * msbFirst bs + b.toNat := by
  simp [msbFirst]

/-- Bit `i` of the number a bit sequence stands for is the sequence's bit `i` from its end. -/
theorem msbFirst_testBit (bs : List Bool) (i : Nat) :
    (msbFirst bs).testBit i = (decide (i < bs.length) && bs.getD (bs.length - 1 - i) false) := by
  induction bs using List.reverseRecOn generalizing i with
  | nil => simp [msbFirst]
  | append_singleton bs b ih =>
    rw [msbFirst_append]
    cases i with
    | zero =>
      rw [Nat.testBit_zero]
      cases b <;> simp
    | succ i =>
      have h1 : (2 * msbFirst bs + b.toNat).testBit (i + 1) = (msbFirst bs).testBit i := by
        rw [Nat.testBit_succ]
        congr 1
        cases b
        · simp
        · simp; omega
      rw [h1, ih]
      simp only [List.length_append, List.length_singleton]
      by_cases hi : i < bs.length
      · have e1 : bs.length + 1 - 1 - (i + 1) = bs.length - 1 - i := by omega
        rw [e1, List.getD_append _ _ _ _ (by omega)]
        simp [hi]
      · simp [hi]

theorem msbFirst_lt (bs : List Bool) : msbFirst bs < 2 ^ bs.length := by
  apply Nat.lt_pow_two_of_testBit
  intro i hi
  rw [msbFirst_testBit]
  simp; omega

@[simp] theorem bitGroup_length (w : Nat) (bs : List Bool) (j : Nat) :
    (bitGroup w bs j).length = w := by simp [bitGroup]

theorem bitGroup_getD (w : Nat) (bs : List Bool) (j k : Nat) (hk : k < w) :
    (bitGroup w bs j).getD k false = bs.getD (w * j + k) false := by
  simp [bitGroup, List.getD_eq_getElem?_getD, hk]

/-- Bit `w - 1 - k` of group `j` put in a word is bit `w * j + k` of the bit string (R46, R50). -/
theorem ofNat_bitGroup_getLsbD (w : Nat) (bs : List Bool) (j k : Nat) (hk : k < w) :
    (BitVec.ofNat w (msbFirst (bitGroup w bs j))).getLsbD (w - 1 - k) =
      bs.getD (w * j + k) false := by
  rw [BitVec.getLsbD_ofNat, msbFirst_testBit, bitGroup_length,
    show w - 1 - (w - 1 - k) = k by omega, bitGroup_getD _ _ _ _ hk]
  simp [show w - 1 - k < w by omega]

theorem bitWord_getLsbD (b : Bool) : (bitWord b).getLsbD 0 = b := by cases b <;> rfl

/-! ## Symbols -/

/-- A symbol is a `SYM_W`-bit number (R8). -/
def SymOk (p : Params) (x : Word) : Prop := lowBits p.symW x = x

theorem symOk_zero (p : Params) : SymOk p 0 := lowBits_eq_self (by simp)

theorem text_symOk {s : State} (hi : s.DataOk) {x : Word} (h : x ∈ s.text) : SymOk s.params x := by
  obtain ⟨i, -, rfl⟩ := mem_below h
  exact State.word_layout hi.params_legal hi.mem_wf .text i

theorem freqMap_symOk {s : State} (hi : s.DataOk) {e : FreqEntry} (h : e ∈ s.freqMap) :
    SymOk s.params e.sym := by
  obtain ⟨i, -, rfl⟩ := mem_below h
  have := State.word_layout hi.params_legal hi.mem_wf .freq (2 * i)
  simpa [Space.layout, SymOk, State.freqAt] using this

theorem freqMap_cnt_lt {s : State} {e : FreqEntry} (h : e ∈ s.freqMap) : e.cnt < 2 ^ 32 := by
  obtain ⟨i, -, rfl⟩ := mem_below h
  exact BitVec.isLt _

theorem nodes_symOk {s : State} {n : TreeNode} (h : n ∈ s.nodes) : SymOk s.params n.sym := by
  obtain ⟨i, -, rfl⟩ := mem_below h
  simp [SymOk, State.nodeAt]

theorem codeTable_symOk {s : State} (hi : s.DataOk) {e : CodeEntry} (h : e ∈ s.codeTable) :
    SymOk s.params e.sym := by
  obtain ⟨i, -, rfl⟩ := mem_below h
  have := State.word_layout hi.params_legal hi.mem_wf .code (i * s.params.codeStride)
  simpa [Space.layout, SymOk, State.codeAt] using this

/-- No code in CODE is longer than `CODE_MAXLEN` (R15, R46). -/
theorem codeTable_len_le {s : State} (hi : s.DataOk) {e : CodeEntry} (h : e ∈ s.codeTable) :
    e.bits.length ≤ s.params.codeMaxLen := by
  obtain ⟨i, -, rfl⟩ := mem_below h
  have hl := State.word_layout hi.params_legal hi.mem_wf .code (i * s.params.codeStride + 1)
  have hS : 2 ≤ s.params.codeStride := by simp [Params.codeStride]
  have hm : (i * s.params.codeStride + 1) % s.params.codeStride = 1 := by
    rw [Nat.mul_comm, Nat.mul_add_mod, Nat.mod_eq_of_lt (by omega)]
  simp only [Space.layout] at hl
  rw [hm, if_neg (by omega), if_pos rfl] at hl
  simp only [State.codeAt, List.length_map, List.length_range]
  rw [← hl, BitVec.toNat_ofNat]
  have h1 := Nat.mod_lt ((s.word Space.code (i * s.params.codeStride + 1)).toNat)
    (by omega : 0 < s.params.codeMaxLen + 1)
  exact le_trans (Nat.mod_le _ _) (by omega)

/-! ## What a destination reads as after its delivery -/

/-- The FREQ table after it was delivered. -/
theorem freqMap_deliver (s : State) {es : List FreqEntry} (hn : es.length < 2 ^ 32)
    (hs : ∀ e ∈ es, SymOk s.params e.sym) (hc : ∀ e ∈ es, e.cnt < 2 ^ 32) :
    (s.deliver .freq es.length (es.flatMap FreqEntry.words)).freqMap = es := by
  have hk : ∀ e ∈ es, (FreqEntry.words e).length = 2 := fun _ _ => rfl
  refine below_eq (n := State.len _ Space.freq) ?_ fun i hi => ?_
  · simpa using hn
  · have hl := length_flatMap_const hk
    have e0 := getD_flatMap_const (d := (0 : Word)) hk hi (show 0 < 2 by omega)
    have e1 := getD_flatMap_const (d := (0 : Word)) hk hi (show 1 < 2 by omega)
    rw [Nat.mul_comm] at e0 e1
    have m := List.getElem_mem hi
    simp only [State.freqAt, State.deliver_word, Space.layout, true_and]
    rw [if_pos (by omega), if_pos (by omega), if_pos (by omega), if_neg (by omega), e1,
      show (2 * i) = 2 * i + 0 from rfl, e0]
    simp only [FreqEntry.words, List.getD_cons_zero, List.getD_cons_succ]
    rw [hs _ m, ofNat_toNat_of_lt (hc _ m)]

theorem kindOf_headWord {p : Params} (hp : p.Legal) {n : TreeNode} (hs : SymOk p n.sym) (w : Word)
    (hw : w = (n.headWord &&& kindBit) ||| lowBits p.symW n.headWord) :
    kindOf w = n.kind ∧ lowBits p.symW w = n.sym := by
  have hS : p.symW ≤ 31 := hp.1.2
  have h31 : ∀ k, kindBit.getLsbD k = decide (k = 31) := by
    intro k
    by_cases hk : k < 32
    · revert k; decide
    · rw [BitVec.getLsbD_of_ge _ _ (by omega)]
      simp; omega
  have hsb : ∀ k, n.sym.getLsbD k = (decide (k < p.symW) && n.sym.getLsbD k) := by
    intro k
    have := congrArg (fun v => v.getLsbD k) hs
    simp only [lowBits_getLsbD] at this
    exact this.symm
  have hs31 : n.sym.getLsbD 31 = false := by
    rw [hsb]; simp; omega
  have hh : ∀ k, n.headWord.getLsbD k =
      ((decide (n.kind = .internal) && decide (k = 31)) || n.sym.getLsbD k) := by
    intro k
    unfold TreeNode.headWord
    cases n.kind <;> simp [h31]
  subst hw
  constructor
  · unfold kindOf
    simp only [BitVec.getLsbD_or, BitVec.getLsbD_and, h31, hh, lowBits_getLsbD, hs31]
    cases n.kind <;> simp
  · apply BitVec.eq_of_getLsbD_eq
    intro k _
    simp only [lowBits_getLsbD, BitVec.getLsbD_or, BitVec.getLsbD_and, h31, hh]
    rw [hsb k]
    by_cases h1 : k < p.symW
    · simp [h1, show k ≠ 31 by omega]
    · simp [h1]

/-- The NODE table after it was delivered. -/
theorem nodes_deliver (s : State) (hp : s.params.Legal) {ns : List TreeNode}
    (hn : ns.length < 2 ^ 32) (hs : ∀ n ∈ ns, SymOk s.params n.sym) :
    (s.deliver .node ns.length (ns.flatMap TreeNode.words)).nodes = ns := by
  have hk : ∀ n ∈ ns, (TreeNode.words n).length = 4 := fun _ _ => rfl
  refine below_eq (n := State.len _ Space.node) ?_ fun i hi => ?_
  · simpa using hn
  · have hl := length_flatMap_const hk
    have e0 := getD_flatMap_const (d := (0 : Word)) hk hi (show 0 < 4 by omega)
    have e1 := getD_flatMap_const (d := (0 : Word)) hk hi (show 1 < 4 by omega)
    have e2 := getD_flatMap_const (d := (0 : Word)) hk hi (show 2 < 4 by omega)
    have e3 := getD_flatMap_const (d := (0 : Word)) hk hi (show 3 < 4 by omega)
    rw [Nat.mul_comm] at e0 e1 e2 e3
    rw [Nat.add_zero] at e0
    have m := List.getElem_mem hi
    have kh := kindOf_headWord hp (hs _ m) _ rfl
    simp only [State.nodeAt, State.deliver_word, State.deliver_params, Space.layout, true_and]
    rw [if_pos (by omega), if_pos (by omega), if_pos (by omega), if_neg (by omega),
      if_pos (by omega), if_neg (by omega), if_pos (by omega), if_neg (by omega), e0, e1, e2, e3]
    simp only [TreeNode.words, List.getD_cons_zero, List.getD_cons_succ]
    rw [kh.1, kh.2]

theorem CodeEntry.words_length (p : Params) (e : CodeEntry) :
    (CodeEntry.words p e).length = p.codeStride := by
  simp [CodeEntry.words, Params.codeStride]; omega

/-- The CODE table after it was delivered. -/
theorem codeTable_deliver (s : State) (hp : s.params.Legal) {tbl : List CodeEntry}
    (hn : tbl.length < 2 ^ 32) (hs : ∀ e ∈ tbl, SymOk s.params e.sym)
    (hb : ∀ e ∈ tbl, e.bits.length ≤ s.params.codeMaxLen) :
    (s.deliver .code tbl.length (tbl.flatMap (CodeEntry.words s.params))).codeTable = tbl := by
  have hk : ∀ e ∈ tbl, (CodeEntry.words s.params e).length = s.params.codeStride :=
    fun e _ => CodeEntry.words_length _ e
  have hS : 2 ≤ s.params.codeStride := by simp [Params.codeStride]
  have hM : s.params.codeMaxLen ≤ 2 ^ 28 := hp.2.2.2.1.2
  refine below_eq (n := State.len _ Space.code) ?_ fun i hi => ?_
  · simpa using hn
  · have hl := length_flatMap_const hk
    have hrange : ∀ r, r < s.params.codeStride →
        i * s.params.codeStride + r < (tbl.flatMap (CodeEntry.words s.params)).length := by
      intro r hr
      rw [hl]
      calc i * s.params.codeStride + r < (i + 1) * s.params.codeStride := by
            rw [Nat.add_mul]; omega
        _ ≤ _ := Nat.mul_le_mul_right _ hi
    have hword : ∀ r, r < s.params.codeStride →
        (s.deliver .code tbl.length (tbl.flatMap (CodeEntry.words s.params))).word .code
          (i * s.params.codeStride + r) =
        Space.code.layout s.params (i * s.params.codeStride + r)
          ((CodeEntry.words s.params tbl[i]).getD r 0) := by
      intro r hr
      rw [State.deliver_word, if_pos ⟨rfl, hrange r hr⟩, getD_flatMap_const hk hi hr]
    have m := List.getElem_mem hi
    have hbl := hb _ m
    have w0 := hword 0 (by omega)
    have w1 := hword 1 (by omega)
    rw [Nat.add_zero] at w0
    have m0 : (i * s.params.codeStride) % s.params.codeStride = 0 := Nat.mul_mod_left _ _
    have mr : ∀ r, r < s.params.codeStride →
        (i * s.params.codeStride + r) % s.params.codeStride = r := by
      intro r hr
      rw [Nat.mul_comm, Nat.mul_add_mod, Nat.mod_eq_of_lt hr]
    simp only [Space.layout] at w0 w1
    rw [m0, if_pos rfl] at w0
    rw [mr 1 (by omega), if_neg (by omega), if_pos rfl] at w1
    simp only [CodeEntry.words, List.getD_cons_zero, List.getD_cons_succ] at w0 w1
    rw [ofNat_toNat_of_lt (by omega), Nat.mod_eq_of_lt (by omega)] at w1
    simp only [State.codeAt, State.deliver_params]
    rw [w0, w1, ofNat_toNat_of_lt (by omega), hs _ m]
    have hbits : (List.range tbl[i].bits.length).map
        (State.codeBit (s.deliver .code tbl.length (tbl.flatMap (CodeEntry.words s.params))) i) =
        tbl[i].bits := by
      apply List.ext_getElem
      · simp
      · intro k h1 h2
        have hk32 : k / 32 < s.params.codeWords := by
          simp only [Params.codeWords]
          omega
        have hr : 2 + k / 32 < s.params.codeStride := by
          simp only [Params.codeStride]; omega
        simp only [List.getElem_map, List.getElem_range, State.codeBit, State.deliver_params]
        rw [hword _ hr]
        simp only [Space.layout]
        rw [mr _ hr, if_neg (by omega), if_neg (by omega)]
        have : (CodeEntry.words s.params tbl[i]).getD (2 + k / 32) 0 =
            BitVec.ofNat 32 (msbFirst (bitGroup 32 tbl[i].bits (k / 32))) := by
          rw [show 2 + k / 32 = k / 32 + 1 + 1 by omega]
          simp only [CodeEntry.words, List.getD_cons_succ]
          simp [List.getD_eq_getElem?_getD, hk32]
        rw [this, show 31 - k % 32 = 32 - 1 - k % 32 by omega,
          ofNat_bitGroup_getLsbD _ _ _ _ (Nat.mod_lt _ (by omega)), Nat.div_add_mod]
        simp [List.getD_eq_getElem?_getD, h2]
    rw [hbits]

/-- Every code bit of a delivered entry: the code, then zeros up to the end of its words (R46). -/
theorem codeBit_deliver (s : State) {tbl : List CodeEntry} {i k : Nat}
    (hi : i < tbl.length) (hk : k < 32 * s.params.codeWords) :
    (s.deliver .code tbl.length (tbl.flatMap (CodeEntry.words s.params))).codeBit i k =
      tbl[i].bits.getD k false := by
  have hst : ∀ e ∈ tbl, (CodeEntry.words s.params e).length = s.params.codeStride :=
    fun e _ => CodeEntry.words_length _ e
  have hr : 2 + k / 32 < s.params.codeStride := by
    simp only [Params.codeStride]; omega
  have hrange : i * s.params.codeStride + (2 + k / 32) <
      (tbl.flatMap (CodeEntry.words s.params)).length := by
    rw [length_flatMap_const hst]
    calc i * s.params.codeStride + (2 + k / 32) < (i + 1) * s.params.codeStride := by
          rw [Nat.add_mul]; omega
      _ ≤ _ := Nat.mul_le_mul_right _ hi
  have hmod : (i * s.params.codeStride + (2 + k / 32)) % s.params.codeStride = 2 + k / 32 := by
    rw [Nat.mul_comm, Nat.mul_add_mod, Nat.mod_eq_of_lt hr]
  simp only [State.codeBit, State.deliver_params]
  rw [State.deliver_word, if_pos ⟨rfl, hrange⟩, getD_flatMap_const hst hi hr]
  simp only [Space.layout]
  rw [hmod, if_neg (by omega), if_neg (by omega)]
  have : (CodeEntry.words s.params tbl[i]).getD (2 + k / 32) 0 =
      BitVec.ofNat 32 (msbFirst (bitGroup 32 tbl[i].bits (k / 32))) := by
    rw [show 2 + k / 32 = k / 32 + 1 + 1 by omega]
    simp only [CodeEntry.words, List.getD_cons_succ]
    have : k / 32 < s.params.codeWords := by omega
    simp [List.getD_eq_getElem?_getD, this]
  rw [this, show 31 - k % 32 = 32 - 1 - k % 32 by omega,
    ofNat_bitGroup_getLsbD _ _ _ _ (Nat.mod_lt _ (by omega)), Nat.div_add_mod]

/-- The BitString after it was delivered. -/
theorem bitString_deliver (s : State) {bs : List Bool} (hn : bs.length < 2 ^ 32) :
    (s.deliver .bits bs.length (bs.map bitWord)).bitString = bs := by
  refine below_eq (n := State.len _ Space.bits) ?_ fun i hi => ?_
  · simpa using hn
  · rw [State.deliver_word, if_pos ⟨rfl, by simpa using hi⟩]
    simp only [Space.layout, lowBits_getLsbD, List.getD_eq_getElem?_getD, List.getElem?_map,
      List.getElem?_eq_getElem hi, Option.map_some, Option.getD_some, bitWord_getLsbD]
    simp

theorem setWidth_lowBits_byte (b : Byte) : (lowBits 8 (b.setWidth 32)).setWidth 8 = b := by
  apply BitVec.eq_of_toNat_eq
  have := b.isLt
  simp only [BitVec.toNat_setWidth, lowBits_toNat]
  omega

/-- The PackedBytes after they were delivered. -/
theorem packedBytes_deliver (s : State) {bs : List Byte} (hn : bs.length < 2 ^ 32) :
    (s.deliver .bytes bs.length (bs.map (BitVec.setWidth 32))).packedBytes = bs := by
  refine below_eq (n := State.len _ Space.bytes) ?_ fun i hi => ?_
  · simpa using hn
  · rw [State.deliver_word, if_pos ⟨rfl, by simpa using hi⟩]
    simp [Space.layout, List.getD_eq_getElem?_getD, hi, setWidth_lowBits_byte]

/-- The hex string after it was delivered. -/
theorem hexString_deliver (s : State) {bs : List Byte} (hn : bs.length < 2 ^ 32) :
    (s.deliver .hex bs.length (bs.map (BitVec.setWidth 32))).hexString = bs := by
  refine below_eq (n := State.len _ Space.hex) ?_ fun i hi => ?_
  · simpa using hn
  · rw [State.deliver_word, if_pos ⟨rfl, by simpa using hi⟩]
    simp [Space.layout, List.getD_eq_getElem?_getD, hi, setWidth_lowBits_byte]

/-- The decoded text after it was delivered. -/
theorem outText_deliver (s : State) {xs : List Word} (hn : xs.length < 2 ^ 32)
    (hs : ∀ x ∈ xs, SymOk s.params x) : (s.deliver .out xs.length xs).outText = xs := by
  refine below_eq (n := State.len _ Space.out) ?_ fun i hi => ?_
  · simpa using hn
  · rw [State.deliver_word, if_pos ⟨rfl, hi⟩]
    simp only [Space.layout, List.getD_eq_getElem?_getD]
    rw [List.getElem?_eq_getElem hi]
    exact hs _ (List.getElem_mem hi)

end Sys2Proof.Machine
end

