-- ==== Sys2Proof/Laws/Tree.lean ====
section
/-! SUPPORT. TreeBuilder: the stable sort, the invariant of the merge loop, and what `buildTree`
answers (R85 to R91). -/

namespace Sys2Proof.Machine

open Sys2Proof

/-! ## The stable sort (R88) -/

/-- The selection order on the pool: smaller frequency first, then smaller index. -/
def PoolBefore (x y : PoolEntry) : Prop := x.freq < y.freq ∨ (x.freq = y.freq ∧ x.idx < y.idx)

/-- Two entries of equal frequency stand in index order. -/
def TieOrder (x y : PoolEntry) : Prop := x.freq = y.freq → x.idx < y.idx

theorem insertByFreq_perm (x : PoolEntry) (ys : List PoolEntry) :
    (insertByFreq x ys).Perm (x :: ys) := by
  induction ys with
  | nil => exact .refl _
  | cons y ys ih =>
    simp only [insertByFreq]
    split
    · exact .refl _
    · exact (ih.cons y).trans (.swap x y ys)

theorem stableSort_perm (xs : List PoolEntry) : (stableSort xs).Perm xs := by
  induction xs with
  | nil => exact .refl _
  | cons x xs ih => exact (insertByFreq_perm x _).trans (ih.cons x)

theorem insertByFreq_sorted {x : PoolEntry} {ys : List PoolEntry} (hx : ∀ y ∈ ys, TieOrder x y)
    (h : ys.Pairwise PoolBefore) : (insertByFreq x ys).Pairwise PoolBefore := by
  induction ys with
  | nil => simp [insertByFreq]
  | cons y ys ih =>
    rw [List.pairwise_cons] at h
    simp only [insertByFreq]
    split
    · rename_i hxy
      refine List.pairwise_cons.2 ⟨fun z hz => ?_, List.pairwise_cons.2 h⟩
      have hxz : x.freq ≤ z.freq := by
        rcases List.mem_cons.1 hz with rfl | hz'
        · exact hxy
        · rcases h.1 z hz' with h1 | h1 <;> omega
      rcases Nat.lt_or_eq_of_le hxz with h1 | h1
      · exact .inl h1
      · exact .inr ⟨h1, hx z hz h1⟩
    · rename_i hxy
      refine List.pairwise_cons.2 ⟨fun z hz => ?_,
        ih (fun z hz => hx z (List.mem_cons_of_mem _ hz)) h.2⟩
      rcases List.mem_cons.1 ((insertByFreq_perm x ys).mem_iff.1 hz) with rfl | hz'
      · exact .inl (by omega)
      · exact h.1 z hz'

/-- A pool whose ties stand in index order is sorted by (frequency, index). -/
theorem stableSort_sorted {xs : List PoolEntry} (h : xs.Pairwise TieOrder) :
    (stableSort xs).Pairwise PoolBefore := by
  induction xs with
  | nil => simp [stableSort]
  | cons x xs ih =>
    rw [List.pairwise_cons] at h
    exact insertByFreq_sorted (fun y hy => h.1 y ((stableSort_perm xs).mem_iff.1 hy)) (ih h.2)

/-! ## What is there stays when a node is appended -/

theorem nodeOf_append {ns : List TreeNode} {p : Word} {n : TreeNode} (h : nodeOf ns p = some n)
    (m : List TreeNode) : nodeOf (ns ++ m) p = some n := by
  unfold nodeOf at h ⊢
  split at h
  · simp at h
  · rename_i hp
    rw [if_neg hp, List.getElem?_append_left (List.getElem?_eq_some_iff.1 h).1, h]

theorem Represents.append {ns : List TreeNode} {T : HTree} {p : Word} (h : Represents ns p T)
    (m : List TreeNode) : Represents (ns ++ m) p T := by
  induction T generalizing p with
  | leaf x =>
    obtain ⟨n, h1, h2, h3⟩ := h
    exact ⟨n, nodeOf_append h1 m, h2, h3⟩
  | node l r ihl ihr =>
    obtain ⟨n, h1, h2, h3, h4⟩ := h
    exact ⟨n, nodeOf_append h1 m, h2, ihl h3, ihr h4⟩

theorem nodeOf_ofNat {ns : List TreeNode} {i : Nat} {n : TreeNode} (h : ns[i]? = some n)
    (hi : i < 2 ^ 32 - 1) : nodeOf ns (BitVec.ofNat 32 i) = some n := by
  have h1 : (BitVec.ofNat 32 i).toNat = i := by
    rw [BitVec.toNat_ofNat, Nat.mod_eq_of_lt (by omega)]
  have h2 : BitVec.ofNat 32 i ≠ nilPtr := by
    intro hh
    have := congrArg BitVec.toNat hh
    rw [h1] at this
    simp [nilPtr] at this
    omega
  rw [nodeOf, if_neg h2, h1, h]

theorem unmerged_append {ns : List TreeNode} {n k c : Nat} (m : List TreeNode)
    (hk : k ≤ ns.length) : Unmerged (ns ++ m) n k c ↔ Unmerged ns n k c := by
  unfold Unmerged
  refine and_congr_right fun _ => forall_congr' fun j => forall_congr' fun x => ?_
  refine forall_congr' fun _ => forall_congr' fun hj => ?_
  rw [List.getElem?_append_left (by omega)]

theorem picksBefore_append {ns : List TreeNode} {c d : Nat} (m : List TreeNode)
    (hc : c < ns.length) (hd : d < ns.length) :
    PicksBefore (ns ++ m) c d ↔ PicksBefore ns c d := by
  unfold PicksBefore
  rw [List.getElem?_append_left hc, List.getElem?_append_left hd]

/-! ## The invariant of the merge loop -/

/-- One merge as R85, R87 and R88 say it: the node at index `k` of `ns`. -/
def MergedAt (n : Nat) (ns : List TreeNode) (k : Nat) (m : TreeNode) : Prop :=
  ∃ (a b : Nat) (ma mb : TreeNode), m.kind = .internal ∧ m.sym = 0 ∧ m.left.toNat = a ∧
    m.right.toNat = b ∧ a ≠ b ∧ ns[a]? = some ma ∧ ns[b]? = some mb ∧
    m.freq.toNat = ma.freq.toNat + mb.freq.toNat ∧
    Unmerged ns n k a ∧ Unmerged ns n k b ∧ PicksBefore ns a b ∧
    ∀ c, Unmerged ns n k c → c ≠ a → c ≠ b → PicksBefore ns b c

theorem MergedAt.append {n : Nat} {ns : List TreeNode} {k : Nat} {x : TreeNode}
    (h : MergedAt n ns k x) (hk : k ≤ ns.length) (m : List TreeNode) : MergedAt n (ns ++ m) k x := by
  obtain ⟨a, b, ma, mb, h1, h2, h3, h4, h5, ha, hb, h6, ua, ub, pab, h7⟩ := h
  have hla := (List.getElem?_eq_some_iff.1 ha).1
  have hlb := (List.getElem?_eq_some_iff.1 hb).1
  refine ⟨a, b, ma, mb, h1, h2, h3, h4, h5, by rw [List.getElem?_append_left hla, ha],
    by rw [List.getElem?_append_left hlb, hb], h6, (unmerged_append m hk).2 ua,
    (unmerged_append m hk).2 ub, (picksBefore_append m hla hlb).2 pab, fun c hc hca hcb => ?_⟩
  have uc := (unmerged_append m hk).1 hc
  exact (picksBefore_append m hlb (by have := uc.1; omega)).2 (h7 c uc hca hcb)

/-- The invariant: after some merges, `ns` are the nodes made and `pool` the unmerged ones; `tree`
gives the tree under each of them. -/
structure LoopInv (es : List FreqEntry) (tree : Nat → HTree) (ns : List TreeNode)
    (pool : List PoolEntry) : Prop where
  count : ns.length + pool.length = 2 * es.length
  nonempty : pool ≠ []
  leaves : ∀ (i : Nat) (e : FreqEntry), es[i]? = some e → ns[i]? = some (leafNode e)
  merges : ∀ (k : Nat) (m : TreeNode), es.length ≤ k → ns[k]? = some m → MergedAt es.length ns k m
  freqs : ∀ e ∈ pool, ∃ m, ns[e.idx]? = some m ∧ m.freq.toNat = e.freq
  unmerged : ∀ c, (∃ e ∈ pool, e.idx = c) ↔ Unmerged ns es.length ns.length c
  ties : pool.Pairwise TieOrder
  distinct : (pool.map PoolEntry.idx).Nodup
  trees : ∀ e ∈ pool, Represents ns (BitVec.ofNat 32 e.idx) (tree e.idx)
  symbols : (pool.flatMap fun e => (tree e.idx).symbols).Perm (es.map FreqEntry.sym)
  total : (pool.map PoolEntry.freq).sum = (es.map FreqEntry.cnt).sum

theorem initialPool_eq (es : List FreqEntry) (i : Nat) :
    (initialPool es)[i]? = es[i]?.map fun e => ⟨i, e.cnt⟩ := by
  simp [initialPool, List.getElem?_zipIdx]
  cases es[i]? <;> rfl

theorem initialPool_idx (es : List FreqEntry) :
    (initialPool es).map PoolEntry.idx = List.range es.length := by
  apply List.ext_getElem?
  intro i
  rw [List.getElem?_map, initialPool_eq]
  by_cases h : i < es.length <;> simp [h]

theorem mem_initialPool {es : List FreqEntry} {x : PoolEntry} (h : x ∈ initialPool es) :
    ∃ e, es[x.idx]? = some e ∧ x.freq = e.cnt := by
  obtain ⟨i, hi⟩ := List.getElem?_of_mem h
  rw [initialPool_eq] at hi
  obtain ⟨e, he, rfl⟩ := Option.map_eq_some_iff.1 hi
  exact ⟨e, he, rfl⟩

/-- The tree of a single leaf of the map. -/
def leafTree (es : List FreqEntry) (i : Nat) : HTree := .leaf ((es[i]?.map FreqEntry.sym).getD 0)

theorem loopInv_init {es : List FreqEntry} (hne : es ≠ []) (hlen : 2 * es.length < 2 ^ 32)
    (hc : ∀ e ∈ es, e.cnt < 2 ^ 32) :
    LoopInv es (leafTree es) (es.map leafNode) (initialPool es) := by
  have hpl : (initialPool es).length = es.length := by simp [initialPool]
  have hleaf : ∀ (i : Nat) (e : FreqEntry), es[i]? = some e →
      (es.map leafNode)[i]? = some (leafNode e) := fun i e he => by simp [he]
  refine ⟨by simp [hpl]; omega, ?_, hleaf, ?_, ?_, ?_, ?_, ?_, ?_, ?_, ?_⟩
  · intro h
    rw [h] at hpl
    exact hne (List.length_eq_zero_iff.1 hpl.symm)
  · intro k m hk hm
    have := (List.getElem?_eq_some_iff.1 hm).1
    simp at this; omega
  · intro x hx
    obtain ⟨e, he, hf⟩ := mem_initialPool hx
    refine ⟨_, hleaf _ _ he, ?_⟩
    rw [hf]
    exact ofNat_toNat_of_lt (hc e (List.mem_of_getElem? he))
  · intro c
    have h1 : (∃ e ∈ initialPool es, e.idx = c) ↔ c ∈ (initialPool es).map PoolEntry.idx := by
      simp
    rw [h1, initialPool_idx, List.mem_range]
    constructor
    · intro h
      refine ⟨by simpa using h, fun j m h1 h2 _ => ?_⟩
      simp at h2; omega
    · intro h
      have := h.1
      simpa using this
  · have h1 : (initialPool es).Pairwise fun x y => x.idx < y.idx := by
      rw [← List.pairwise_map (f := PoolEntry.idx), initialPool_idx]
      exact List.pairwise_lt_range
    exact h1.imp fun {a b} h (_ : a.freq = b.freq) => h
  · rw [initialPool_idx]; exact List.nodup_range
  · intro x hx
    obtain ⟨e, he, -⟩ := mem_initialPool hx
    have hlt := (List.getElem?_eq_some_iff.1 he).1
    refine ⟨leafNode e, nodeOf_ofNat (hleaf _ _ he) (by omega), rfl, ?_⟩
    simp [leafNode, he]
  · have h1 : ((initialPool es).flatMap fun e => (leafTree es e.idx).symbols) =
        es.map FreqEntry.sym := by
      have h2 : ((initialPool es).flatMap fun e => (leafTree es e.idx).symbols) =
          ((initialPool es).map PoolEntry.idx).flatMap fun i => (leafTree es i).symbols := by
        rw [List.flatMap_map]
      rw [h2, initialPool_idx]
      simp only [leafTree, HTree.symbols]
      rw [← List.map_eq_flatMap]
      apply List.ext_getElem?
      intro i
      rw [List.getElem?_map, List.getElem?_map]
      by_cases h : i < es.length <;> simp [h]
    rw [h1]
  · have : (initialPool es).map PoolEntry.freq = es.map FreqEntry.cnt := by
      apply List.ext_getElem?
      intro i
      rw [List.getElem?_map, initialPool_eq, List.getElem?_map]
      cases es[i]? <;> rfl
    rw [this]

/-- One merge keeps the invariant. -/
theorem loopInv_merge {es : List FreqEntry} {tree : Nat → HTree} {ns : List TreeNode}
    {pool rest : List PoolEntry} {a b : PoolEntry} (h : LoopInv es tree ns pool)
    (hlen : 2 * es.length < 2 ^ 32) (hs : stableSort pool = a :: b :: rest)
    (hf : a.freq + b.freq ≤ 2 ^ 32 - 1) :
    LoopInv es (fun i => if i = ns.length then .node (tree a.idx) (tree b.idx) else tree i)
      (ns ++ [internalNode (a.freq + b.freq) a.idx b.idx])
      (rest ++ [⟨ns.length, a.freq + b.freq⟩]) := by
  have hperm : (a :: b :: rest).Perm pool := hs ▸ stableSort_perm pool
  have hsort : (a :: b :: rest).Pairwise PoolBefore := hs ▸ stableSort_sorted h.ties
  rw [List.pairwise_cons, List.pairwise_cons] at hsort
  obtain ⟨hsa, hsb, hsr⟩ := hsort
  have hma : a ∈ pool := hperm.mem_iff.1 (by simp)
  have hmb : b ∈ pool := hperm.mem_iff.1 (by simp)
  have hmr : ∀ x ∈ rest, x ∈ pool := fun x hx => hperm.mem_iff.1 (by simp [hx])
  have hnd : (a :: b :: rest).map PoolEntry.idx |>.Nodup :=
    (hperm.map _).nodup_iff.2 h.distinct
  simp only [List.map_cons, List.nodup_cons, List.mem_cons, List.mem_map, not_or] at hnd
  obtain ⟨⟨hab, har⟩, hbr, hrr⟩ := hnd
  have hplen : pool.length = rest.length + 2 := by simpa using hperm.length_eq.symm
  have hnlen : ns.length + rest.length + 2 = 2 * es.length := by have := h.count; omega
  have idx_lt : ∀ x ∈ pool, x.idx < ns.length := fun x hx => by
    obtain ⟨m, hm, -⟩ := h.freqs x hx
    exact (List.getElem?_eq_some_iff.1 hm).1
  have hes : es.length ≤ ns.length := by
    by_contra hh
    have : ns.length < es.length := by omega
    have he := h.leaves ns.length es[ns.length] (by simp [this])
    simp at he
  have la := idx_lt a hma
  have lb := idx_lt b hmb
  obtain ⟨ma, hga, hfa⟩ := h.freqs a hma
  obtain ⟨mb, hgb, hfb⟩ := h.freqs b hmb
  have ta : (BitVec.ofNat 32 a.idx).toNat = a.idx := ofNat_toNat_of_lt (by omega)
  have tb : (BitVec.ofNat 32 b.idx).toNat = b.idx := ofNat_toNat_of_lt (by omega)
  have ts : (BitVec.ofNat 32 (a.freq + b.freq)).toNat = a.freq + b.freq :=
    ofNat_toNat_of_lt (by omega)
  have picks : ∀ x ∈ pool, ∀ y ∈ pool, PoolBefore x y → PicksBefore ns x.idx y.idx := by
    intro x hx y hy hxy m n hm hn
    obtain ⟨m', hm', hmf⟩ := h.freqs x hx
    obtain ⟨n', hn', hnf⟩ := h.freqs y hy
    rw [hm] at hm'; rw [hn] at hn'
    cases hm'; cases hn'
    rw [hmf, hnf]
    exact hxy
  have hbefore : PoolBefore a b := hsa b (by simp)
  have hnew : MergedAt es.length ns ns.length
      (internalNode (a.freq + b.freq) a.idx b.idx) := by
    refine ⟨a.idx, b.idx, ma, mb, rfl, rfl, ta, tb, hab, hga, hgb, ?_,
      (h.unmerged _).1 ⟨a, hma, rfl⟩, (h.unmerged _).1 ⟨b, hmb, rfl⟩,
      picks a hma b hmb hbefore, ?_⟩
    · rw [hfa, hfb]; exact ts
    · intro c hc hca hcb
      obtain ⟨x, hx, rfl⟩ := (h.unmerged c).2 hc
      rcases List.mem_cons.1 (hperm.mem_iff.2 hx) with rfl | hx'
      · exact absurd rfl hca
      · rcases List.mem_cons.1 hx' with rfl | hx''
        · exact absurd rfl hcb
        · exact picks b hmb x hx (hsb x hx'')
  have gold : ∀ {i : Nat} {m : TreeNode}, ns[i]? = some m →
      (ns ++ [internalNode (a.freq + b.freq) a.idx b.idx])[i]? = some m := fun {i m} hm => by
    rw [List.getElem?_append_left (List.getElem?_eq_some_iff.1 hm).1, hm]
  have gnew : (ns ++ [internalNode (a.freq + b.freq) a.idx b.idx])[ns.length]? =
      some (internalNode (a.freq + b.freq) a.idx b.idx) := by simp
  refine ⟨?_, by simp, ?_, ?_, ?_, ?_, ?_, ?_, ?_, ?_, ?_⟩
  · simp only [List.length_append, List.length_singleton]; omega
  · exact fun i e he => gold (h.leaves i e he)
  · intro k m hk hm
    rcases Nat.lt_trichotomy k ns.length with hk' | rfl | hk'
    · rw [List.getElem?_append_left hk'] at hm
      exact (h.merges k m hk hm).append (le_of_lt hk') _
    · rw [gnew] at hm
      cases hm
      exact hnew.append (le_refl _) _
    · have := (List.getElem?_eq_some_iff.1 hm).1
      simp at this; omega
  · intro x hx
    rcases List.mem_append.1 hx with hx | hx
    · obtain ⟨m, hm, hmf⟩ := h.freqs x (hmr x hx)
      exact ⟨m, gold hm, hmf⟩
    · rw [List.mem_singleton] at hx
      subst hx
      exact ⟨_, gnew, ts⟩
  · intro c
    simp only [List.length_append, List.length_singleton]
    constructor
    · rintro ⟨x, hx, rfl⟩
      rcases List.mem_append.1 hx with hx | hx
      · have hu := (h.unmerged x.idx).1 ⟨x, hmr x hx, rfl⟩
        refine ⟨by have := hu.1; omega, fun j m hj hj' hm => ?_⟩
        rcases Nat.lt_or_eq_of_le (Nat.lt_succ_iff.1 hj') with hlt | rfl
        · rw [List.getElem?_append_left hlt] at hm
          exact hu.2 j m hj hlt hm
        · rw [gnew] at hm
          cases hm
          simp only [internalNode]
          rw [ta, tb]
          exact ⟨fun hh => har ⟨x, hx, hh.symm⟩, fun hh => hbr ⟨x, hx, hh.symm⟩⟩
      · rw [List.mem_singleton] at hx
        subst hx
        refine ⟨Nat.lt_succ_self _, fun j m hj hj' hm => ?_⟩
        show m.left.toNat ≠ ns.length ∧ m.right.toNat ≠ ns.length
        rcases Nat.lt_or_eq_of_le (Nat.lt_succ_iff.1 hj') with hlt | rfl
        · rw [List.getElem?_append_left hlt] at hm
          obtain ⟨a', b', -, -, -, -, h3, h4, -, -, -, -, ua, ub, -⟩ := h.merges j m hj hm
          have := ua.1; have := ub.1
          omega
        · rw [gnew] at hm
          cases hm
          simp only [internalNode]
          rw [ta, tb]
          omega
    · rintro ⟨hc, hun⟩
      rcases Nat.lt_or_eq_of_le (Nat.lt_succ_iff.1 hc) with hlt | rfl
      · have hold : Unmerged ns es.length ns.length c := by
          refine ⟨hlt, fun j m hj hj' hm => hun j m hj (by omega) (gold hm)⟩
        obtain ⟨x, hx, rfl⟩ := (h.unmerged c).2 hold
        have hnab := hun ns.length _ hes (by omega) gnew
        simp only [internalNode] at hnab
        rw [ta, tb] at hnab
        rcases List.mem_cons.1 (hperm.mem_iff.2 hx) with rfl | hx'
        · exact absurd rfl hnab.1
        · rcases List.mem_cons.1 hx' with rfl | hx''
          · exact absurd rfl hnab.2
          · exact ⟨x, by simp [hx''], rfl⟩
      · exact ⟨⟨ns.length, a.freq + b.freq⟩, by simp, rfl⟩
  · refine List.pairwise_append.2 ⟨hsr.imp ?_, by simp, ?_⟩
    · intro x y hxy hxy'
      rcases hxy with h1 | h1
      · omega
      · exact h1.2
    · intro x hx y hy _
      rw [List.mem_singleton] at hy
      subst hy
      exact idx_lt x (hmr x hx)
  · rw [List.map_append]
    refine List.nodup_append.2 ⟨hrr, by simp, ?_⟩
    intro i hi j hj
    obtain ⟨x, hx, rfl⟩ := List.mem_map.1 hi
    simp only [List.map_cons, List.map_nil, List.mem_singleton] at hj
    have := idx_lt x (hmr x hx)
    omega
  · intro x hx
    rcases List.mem_append.1 hx with hx | hx
    · have hlt := idx_lt x (hmr x hx)
      rw [if_neg (by omega)]
      exact (h.trees x (hmr x hx)).append _
    · rw [List.mem_singleton] at hx
      subst hx
      rw [if_pos rfl]
      have hsmall : ns.length < 2 ^ 32 - 1 := by omega
      exact ⟨_, nodeOf_ofNat gnew hsmall, rfl, (h.trees a hma).append _, (h.trees b hmb).append _⟩
  · have h1 : ((rest ++ [⟨ns.length, a.freq + b.freq⟩] : List PoolEntry).flatMap fun e =>
        (if e.idx = ns.length then HTree.node (tree a.idx) (tree b.idx)
          else tree e.idx).symbols) =
        (rest.flatMap fun e => (tree e.idx).symbols) ++
          ((tree a.idx).symbols ++ (tree b.idx).symbols) := by
      rw [List.flatMap_append]
      congr 1
      · refine List.flatMap_congr fun x hx => ?_
        have hlt := idx_lt x (hmr x hx)
        rw [if_neg (by omega)]
      · simp [HTree.symbols]
    rw [h1]
    refine List.Perm.trans ?_ ((hperm.flatMap_right _).trans h.symbols)
    simp only [List.flatMap_cons]
    rw [← List.append_assoc (tree a.idx).symbols]
    exact List.perm_append_comm
  · have h1 := (hperm.map PoolEntry.freq).sum_eq
    rw [h.total] at h1
    rw [← h1]
    simp
    omega

/-! ## What `buildTree` answers -/

/-- The loop ends with one node in the pool, or a sum did not fit 32 bits, and then neither does the
sum of all counts. -/
theorem mergeLoop_spec {es : List FreqEntry} (hlen : 2 * es.length < 2 ^ 32) (k : Nat)
    {tree : Nat → HTree} {ns : List TreeNode} {pool : List PoolEntry} (h : LoopInv es tree ns pool)
    (hk : pool.length = k + 1) :
    (∃ tree' ns' r, mergeLoop k ns pool = .ok (ns', [r]) ∧ LoopInv es tree' ns' [r] ∧
        (k ≠ 0 → (es.map FreqEntry.cnt).sum < 2 ^ 32)) ∨
      (mergeLoop k ns pool = .error (.capacityOverflow .freqSum) ∧
        2 ^ 32 ≤ (es.map FreqEntry.cnt).sum) := by
  induction k generalizing tree ns pool with
  | zero =>
    obtain ⟨r, rfl⟩ := List.length_eq_one_iff.1 hk
    exact .inl ⟨tree, ns, r, rfl, h, by simp⟩
  | succ k ih =>
    have hperm := stableSort_perm pool
    obtain ⟨a, b, rest, hs⟩ : ∃ a b rest, stableSort pool = a :: b :: rest := by
      have hl := hperm.length_eq
      rcases hsp : stableSort pool with _ | ⟨a, _ | ⟨b, rest⟩⟩
      · rw [hsp] at hl; simp at hl; omega
      · rw [hsp] at hl; simp at hl; omega
      · exact ⟨a, b, rest, rfl⟩
    have hsum : a.freq + b.freq + (rest.map PoolEntry.freq).sum = (es.map FreqEntry.cnt).sum := by
      rw [← h.total, ← (hperm.map PoolEntry.freq).sum_eq, hs]
      simp; omega
    simp only [mergeLoop, hs]
    by_cases hf : a.freq + b.freq > 2 ^ 32 - 1
    · rw [if_pos hf]
      exact .inr ⟨rfl, by omega⟩
    · rw [if_neg hf]
      have hrl : rest.length + 2 = pool.length := by
        have := hperm.length_eq; rw [hs] at this; simpa using this
      have hm := loopInv_merge h hlen hs (by omega)
      rcases ih hm (by simp; omega) with ⟨tree', ns', r, h1, h2, h3⟩ | h1
      · refine .inl ⟨tree', ns', r, h1, h2, fun _ => ?_⟩
        by_cases hk0 : k = 0
        · subst hk0
          have : rest = [] := List.length_eq_zero_iff.1 (by omega)
          subst this
          simp at hsum; omega
        · exact h3 hk0
      · exact .inr h1

/-- The end of the loop is the tree of R85 to R90. -/
theorem LoopInv.final {es : List FreqEntry} {tree : Nat → HTree} {ns : List TreeNode}
    {r : PoolEntry} (h : LoopInv es tree ns [r]) :
    IsHuffmanTree es ns r.idx ∧ Represents ns (BitVec.ofNat 32 r.idx) (tree r.idx) ∧
      (tree r.idx).symbols.Perm (es.map FreqEntry.sym) ∧
      ∃ m, ns[r.idx]? = some m ∧ m.freq.toNat = (es.map FreqEntry.cnt).sum := by
  have hcount := h.count
  simp only [List.length_singleton] at hcount
  have hroot : r.idx = 2 * es.length - 2 := by
    have hu : Unmerged ns es.length ns.length (ns.length - 1) := by
      refine ⟨by omega, fun j m hj hj' hm => ?_⟩
      obtain ⟨a, b, -, -, -, -, h3, h4, -, -, -, -, ua, ub, -⟩ := h.merges j m hj hm
      have := ua.1; have := ub.1
      omega
    obtain ⟨x, hx, hxi⟩ := (h.unmerged _).2 hu
    rw [List.mem_singleton] at hx
    subst hx
    omega
  obtain ⟨m, hm, hmf⟩ := h.freqs r (by simp)
  refine ⟨⟨by omega, hroot, h.leaves, h.merges⟩, h.trees r (by simp), by simpa using h.symbols,
    m, hm, ?_⟩
  rw [hmf, ← h.total]
  simp

/-- What `buildTree` answers on a map that is not empty: the tree, when one entry or a sum of counts
that fits 32 bits; else CapacityOverflow. -/
theorem buildTree_ok {es : List FreqEntry} (hne : es ≠ []) (hlen : 2 * es.length < 2 ^ 32)
    (hc : ∀ e ∈ es, e.cnt < 2 ^ 32)
    (hsum : es.length = 1 ∨ (es.map FreqEntry.cnt).sum < 2 ^ 32) :
    ∃ ns r T, buildTree es = .ok (ns, r) ∧ IsHuffmanTree es ns r ∧
      Represents ns (BitVec.ofNat 32 r) T ∧ T.symbols.Perm (es.map FreqEntry.sym) ∧
      ∃ m, ns[r]? = some m ∧ m.freq.toNat = (es.map FreqEntry.cnt).sum := by
  have hl : es.length ≠ 0 := fun h => hne (List.length_eq_zero_iff.1 h)
  have hpl : (initialPool es).length = es.length - 1 + 1 := by simp [initialPool]; omega
  rcases mergeLoop_spec hlen _ (loopInv_init hne hlen hc) hpl with
    ⟨tree, ns, r, h1, h2, -⟩ | ⟨h1, h2⟩
  · have h3 := h2.final
    exact ⟨ns, r.idx, tree r.idx, by simp [buildTree, hl, h1], h3⟩
  · exfalso
    rcases hsum with h3 | h3
    · rw [h3] at h1; simp [mergeLoop] at h1
    · omega

theorem buildTree_overflow {es : List FreqEntry} (hlen : 2 * es.length < 2 ^ 32)
    (hc : ∀ e ∈ es, e.cnt < 2 ^ 32) (h2 : 2 ≤ es.length)
    (hsum : 2 ^ 32 ≤ (es.map FreqEntry.cnt).sum) :
    buildTree es = .error (.capacityOverflow .freqSum) := by
  have hne : es ≠ [] := by rintro rfl; simp at h2
  have hpl : (initialPool es).length = es.length - 1 + 1 := by simp [initialPool]; omega
  rcases mergeLoop_spec hlen _ (loopInv_init hne hlen hc) hpl with ⟨tree, ns, r, -, -, h3⟩ | ⟨h1, -⟩
  · have := h3 (by omega); omega
  · have hl : es.length ≠ 0 := by omega
    simp [buildTree, hl, h1]

theorem buildTree_empty : buildTree [] = .error .emptyAlphabet := rfl

/-- Every node of the tree is made from the map: its symbol is a leaf's, or 0 in an Internal
node. -/
theorem IsHuffmanTree.sym_mem {es : List FreqEntry} {ns : List TreeNode} {r : Nat}
    (h : IsHuffmanTree es ns r) {n : TreeNode} (hn : n ∈ ns) :
    n.sym = 0 ∨ n.sym ∈ es.map FreqEntry.sym := by
  obtain ⟨i, hi⟩ := List.getElem?_of_mem hn
  by_cases hl : i < es.length
  · right
    have he : es[i]? = some es[i] := by simp [hl]
    have := h.leaves i _ he
    rw [hi] at this
    cases this
    exact List.mem_map_of_mem (List.getElem_mem hl)
  · left
    obtain ⟨-, -, -, -, -, h2, -⟩ := h.merges i n (by omega) hi
    exact h2

end Sys2Proof.Machine
end

