-- ==== Sys2Proof/Laws/Trees.lean ====
section
/-! SUPPORT. Trees as trees, and what the traversal of R96 answers (R96 to R99). -/

namespace Sys2Proof.Machine

open Sys2Proof

/-! ## Trees -/

namespace HTree

theorem leafCount_pos (T : HTree) : 1 ≤ T.leafCount := by
  induction T with
  | leaf x => exact le_refl _
  | node l r ihl ihr => simp only [leafCount]; omega

theorem table_length (T : HTree) : T.table.length = T.leafCount := by
  induction T with
  | leaf x => rfl
  | node l r ihl ihr => simp [table, leafCount, ihl, ihr]

theorem table_syms (T : HTree) : T.table.map CodeEntry.sym = T.symbols := by
  induction T with
  | leaf x => rfl
  | node l r ihl ihr =>
    simp only [table, symbols, List.map_append, List.map_map, ← ihl, ← ihr]
    rfl

theorem symbols_length (T : HTree) : T.symbols.length = T.leafCount := by
  rw [← table_syms, List.length_map, table_length]

/-- A path passes through at most all the Internal nodes (R7). -/
theorem height_lt_leafCount (T : HTree) : T.height < T.leafCount := by
  induction T with
  | leaf x => simp [height, leafCount]
  | node l r ihl ihr =>
    have := l.leafCount_pos; have := r.leafCount_pos
    simp only [height, leafCount]; omega

theorem bits_length_le {T : HTree} {e : CodeEntry} (h : e ∈ T.table) : e.bits.length ≤ T.height := by
  induction T generalizing e with
  | leaf x => simp [table] at h; subst h; simp [height]
  | node l r ihl ihr =>
    simp only [table, List.mem_append, List.mem_map] at h
    simp only [height]
    rcases h with ⟨d, hd, rfl⟩ | ⟨d, hd, rfl⟩
    · have := ihl hd; simp; omega
    · have := ihr hd; simp; omega

/-- Prefix-free (R99). -/
theorem table_prefix_free (T : HTree) :
    T.table.Pairwise fun a b => ¬ a.bits <+: b.bits ∧ ¬ b.bits <+: a.bits := by
  induction T with
  | leaf x => simp [table]
  | node l r ihl ihr =>
    simp only [table]
    refine List.pairwise_append.2 ⟨List.pairwise_map.2 (ihl.imp ?_),
      List.pairwise_map.2 (ihr.imp ?_), ?_⟩
    · intro a b h; simpa using h
    · intro a b h; simpa using h
    · intro a ha b hb
      obtain ⟨c, -, rfl⟩ := List.mem_map.1 ha
      obtain ⟨d, -, rfl⟩ := List.mem_map.1 hb
      simp

theorem leftmost_mem (T : HTree) : ⟨T.leftmost, List.replicate T.leftDepth false⟩ ∈ T.table := by
  induction T with
  | leaf x => simp [table, leftmost, leftDepth]
  | node l r ihl ihr =>
    simp only [table, List.mem_append, List.mem_map]
    exact .inl ⟨_, ihl, rfl⟩

end HTree

/-- A pointer stands for one tree only. -/
theorem Represents.unique {ns : List TreeNode} {T U : HTree} {p : Word} (h : Represents ns p T)
    (g : Represents ns p U) : T = U := by
  induction T generalizing p U with
  | leaf x =>
    obtain ⟨n, h1, h2, rfl⟩ := h
    cases U with
    | leaf y => obtain ⟨m, g1, -, rfl⟩ := g; rw [h1] at g1; cases g1; rfl
    | node l r => obtain ⟨m, g1, g2, -⟩ := g; rw [h1] at g1; cases g1; rw [h2] at g2; cases g2
  | node l r ihl ihr =>
    obtain ⟨n, h1, h2, h3, h4⟩ := h
    cases U with
    | leaf y => obtain ⟨m, g1, g2, -⟩ := g; rw [h1] at g1; cases g1; rw [h2] at g2; cases g2
    | node l' r' =>
      obtain ⟨m, g1, -, g3, g4⟩ := g
      rw [h1] at g1; cases g1
      rw [ihl h3 g3, ihr h4 g4]

theorem nodeOf_mem {ns : List TreeNode} {p : Word} {n : TreeNode} (h : nodeOf ns p = some n) :
    n ∈ ns := by
  unfold nodeOf at h
  split at h
  · simp at h
  · exact List.mem_of_getElem? h

/-- The symbols of a tree are those of nodes. -/
theorem Represents.sym_mem {ns : List TreeNode} {T : HTree} {p : Word} (h : Represents ns p T)
    {x : Word} (hx : x ∈ T.symbols) : ∃ n ∈ ns, n.sym = x := by
  induction T generalizing p with
  | leaf y =>
    obtain ⟨n, h1, -, h3⟩ := h
    simp [HTree.symbols] at hx
    subst hx
    exact ⟨n, nodeOf_mem h1, h3⟩
  | node l r ihl ihr =>
    obtain ⟨n, -, -, h3, h4⟩ := h
    rcases List.mem_append.1 hx with hx | hx
    · exact ihl h3 hx
    · exact ihr h4 hx

/-! ## The traversal (R96) -/

/-- What the traversal of the tree `T` adds to the entries. -/
def entriesUnder (acc : List Bool) (T : HTree) : List CodeEntry :=
  T.table.map fun e => ⟨e.sym, acc ++ e.bits⟩

theorem entriesUnder_node (acc : List Bool) (l r : HTree) :
    entriesUnder acc (.node l r) =
      entriesUnder (acc ++ [false]) l ++ entriesUnder (acc ++ [true]) r := by
  simp [entriesUnder, HTree.table, List.map_map, Function.comp_def]

@[simp] theorem entriesUnder_nil (T : HTree) : entriesUnder [] T = T.table := by
  simp [entriesUnder]

theorem entriesUnder_length (acc : List Bool) (T : HTree) :
    (entriesUnder acc T).length = T.leafCount := by simp [entriesUnder, HTree.table_length]

theorem walk_leaf {cap : Nat} {ns : List TreeNode} {room : Nat} {p : Word} {n : TreeNode}
    {acc : List Bool} {out : List CodeEntry} (hk : n.kind = .leaf) :
    walk cap ns room p n acc out =
      if out.length = cap then .error (.capacityOverflow .codeTable)
      else .ok (out ++ [⟨n.sym, acc⟩]) := by
  cases room <;> simp [walk, hk]

/-- A tree that is not too deep and has not too many leaves is walked whole, left to right. -/
theorem walk_ok {cap : Nat} {ns : List TreeNode} {T : HTree} {room : Nat} {p : Word} {n : TreeNode}
    {acc : List Bool} {out : List CodeEntry} (h : Represents ns p T) (hn : nodeOf ns p = some n)
    (hh : T.height ≤ room) (hc : out.length + T.leafCount ≤ cap) :
    walk cap ns room p n acc out = .ok (out ++ entriesUnder acc T) := by
  induction T generalizing room p n acc out with
  | leaf x =>
    obtain ⟨m, h1, h2, h3⟩ := h
    rw [hn] at h1; cases h1
    have hcap : out.length ≠ cap := by simp only [HTree.leafCount] at hc; omega
    cases room <;> simp [walk, h2, hcap, entriesUnder, HTree.table, h3]
  | node l r ihl ihr =>
    obtain ⟨m, h1, h2, h3, h4⟩ := h
    rw [hn] at h1; cases h1
    simp only [HTree.height] at hh
    simp only [HTree.leafCount] at hc
    obtain ⟨room, rfl⟩ : ∃ k, room = k + 1 := ⟨room - 1, by omega⟩
    have e3 : ∃ k, nodeOf ns n.left = some k := by
      cases l with
      | leaf y => obtain ⟨k, hk, -⟩ := h3; exact ⟨k, hk⟩
      | node a b => obtain ⟨k, hk, -⟩ := h3; exact ⟨k, hk⟩
    have e4 : ∃ k, nodeOf ns n.right = some k := by
      cases r with
      | leaf y => obtain ⟨k, hk, -⟩ := h4; exact ⟨k, hk⟩
      | node a b => obtain ⟨k, hk, -⟩ := h4; exact ⟨k, hk⟩
    obtain ⟨kl, hl⟩ := e3
    obtain ⟨kr, hr⟩ := e4
    have g1 := ihl (acc := acc ++ [false]) (out := out) h3 hl (show l.height ≤ room by omega)
      (by omega)
    have g2 := ihr (acc := acc ++ [true]) (out := out ++ entriesUnder (acc ++ [false]) l) h4 hr
      (show r.height ≤ room by omega) (by
        rw [List.length_append, entriesUnder_length]; omega)
    simp [walk, h2, hl, hr, g1, g2, entriesUnder_node]

/-- The tree under an Internal node has two subtrees. -/
theorem Represents.of_internal {ns : List TreeNode} {T : HTree} {p : Word} {n : TreeNode}
    (h : Represents ns p T) (hn : nodeOf ns p = some n) (hk : n.kind = .internal) :
    ∃ l r, T = .node l r ∧ Represents ns n.left l ∧ Represents ns n.right r := by
  cases T with
  | leaf x =>
    obtain ⟨m, hm, hk', -⟩ := h
    rw [hn] at hm; cases hm
    rw [hk] at hk'; cases hk'
  | node l r =>
    obtain ⟨m, hm, -, hl, hr⟩ := h
    rw [hn] at hm; cases hm
    exact ⟨l, r, rfl, hl, hr⟩

/-- The path of a walk is no longer than the room it began with. -/
theorem WalkedTo.path_length_le {ns : List TreeNode} {p q : Word} {room : Nat} {path : List Bool}
    {done : List CodeEntry} (h : WalkedTo ns p room q path done) : path.length ≤ room := by
  induction h with
  | here => simp
  | left _ _ _ ih => simpa using ih
  | right _ _ _ _ _ ih => simpa using ih

/-- The walk at a Leaf: the leaf is recorded, or the table is full. -/
theorem walk_at_leaf {cap : Nat} {ns : List TreeNode} (room : Nat) {p : Word} {n : TreeNode}
    {acc : List Bool} {out : List CodeEntry} (hn : nodeOf ns p = some n) (ho : out.length ≤ cap)
    (hk : n.kind = .leaf) :
    (∃ T, walk cap ns room p n acc out = .ok (out ++ entriesUnder acc T) ∧ Represents ns p T ∧
        T.height ≤ room ∧ out.length + T.leafCount ≤ cap) ∨
      (∃ q m path done, walk cap ns room p n acc out = .error (.capacityOverflow .codeTable) ∧
        WalkedTo ns p room q path done ∧ out.length + done.length = cap ∧
        nodeOf ns q = some m ∧ m.kind = .leaf) := by
  rw [walk_leaf hk]
  by_cases hc : out.length = cap
  · exact .inr ⟨p, n, [], [], by simp [hc], .here p room, by simpa using hc, hn, hk⟩
  · rw [if_neg hc]
    exact .inl ⟨.leaf n.sym, by simp [entriesUnder, HTree.table], ⟨n, hn, hk, rfl⟩,
      by simp [HTree.height], by simp only [HTree.leafCount]; omega⟩

/-- Whatever the nodes hold: a walk that succeeds has walked a tree, and one that fails names its
cause and the place where it stood, up to which it had met no error (R98, R152). -/
theorem walk_spec {cap : Nat} {ns : List TreeNode} (room : Nat) {p : Word} {n : TreeNode}
    {acc : List Bool} {out : List CodeEntry} (hn : nodeOf ns p = some n) (ho : out.length ≤ cap) :
    (∃ T, walk cap ns room p n acc out = .ok (out ++ entriesUnder acc T) ∧ Represents ns p T ∧
        T.height ≤ room ∧ out.length + T.leafCount ≤ cap) ∨
      (∃ q m path done, walk cap ns room p n acc out = .error (.badTree q) ∧
        WalkedTo ns p room q path done ∧ path.length < room ∧ out.length + done.length ≤ cap ∧
        nodeOf ns q = some m ∧ m.kind = .internal ∧
        (nodeOf ns m.left = none ∨
          ∃ L, Represents ns m.left L ∧ path.length + 1 + L.height ≤ room ∧
            out.length + done.length + L.leafCount ≤ cap ∧ nodeOf ns m.right = none)) ∨
      (∃ q m path done, walk cap ns room p n acc out = .error (.capacityOverflow .codeLength) ∧
        WalkedTo ns p room q path done ∧ path.length = room ∧ out.length + done.length ≤ cap ∧
        nodeOf ns q = some m ∧ m.kind = .internal) ∨
      (∃ q m path done, walk cap ns room p n acc out = .error (.capacityOverflow .codeTable) ∧
        WalkedTo ns p room q path done ∧ out.length + done.length = cap ∧
        nodeOf ns q = some m ∧ m.kind = .leaf) := by
  induction room generalizing p n acc out with
  | zero =>
    cases hk : n.kind with
    | leaf =>
      rcases walk_at_leaf _ hn ho hk with h | h
      · exact .inl h
      · exact .inr (.inr (.inr h))
    | internal =>
      exact .inr (.inr (.inl ⟨p, n, [], [], by simp [walk, hk], .here p 0, rfl, by simpa using ho,
        hn, hk⟩))
  | succ room ih =>
    cases hk : n.kind with
    | leaf =>
      rcases walk_at_leaf _ hn ho hk with h | h
      · exact .inl h
      · exact .inr (.inr (.inr h))
    | internal =>
      simp only [walk, hk]
      cases hl : nodeOf ns n.left with
      | none =>
        exact .inr (.inl ⟨p, n, [], [], rfl, .here p _, by simp, by simpa using ho, hn, hk, .inl hl⟩)
      | some l =>
        rcases ih (acc := acc ++ [false]) hl ho with
          ⟨L, e1, r1, h1, c1⟩ | ⟨q, m, path, done, e1, w1, d1, f1, n1, k1, b1⟩ |
          ⟨q, m, path, done, e1, w1, d1, f1, n1, k1⟩ | ⟨q, m, path, done, e1, w1, f1, n1, k1⟩
        · simp only [e1]
          cases hr : nodeOf ns n.right with
          | none =>
            exact .inr (.inl ⟨p, n, [], [], rfl, .here p _, by simp, by simpa using ho, hn, hk,
              .inr ⟨L, r1, by simp only [List.length_nil]; omega, by simpa using c1, hr⟩⟩)
          | some r =>
            have hlen : ∀ done : List CodeEntry,
                (L.table.map (fun e => (⟨e.sym, false :: e.bits⟩ : CodeEntry)) ++
                  done.map fun e => (⟨e.sym, true :: e.bits⟩ : CodeEntry)).length =
                  L.leafCount + done.length := fun done => by simp [HTree.table_length]
            rcases ih (acc := acc ++ [true]) (out := out ++ entriesUnder (acc ++ [false]) L) hr
              (by rw [List.length_append, entriesUnder_length]; exact c1) with
              ⟨R, e2, r2, h2, c2⟩ | ⟨q, m, path, done, e2, w2, d2, f2, n2, k2, b2⟩ |
              ⟨q, m, path, done, e2, w2, d2, f2, n2, k2⟩ | ⟨q, m, path, done, e2, w2, f2, n2, k2⟩
            · rw [List.length_append, entriesUnder_length] at c2
              exact .inl ⟨.node L R, by simp [e2, entriesUnder_node], ⟨n, hn, hk, r1, r2⟩,
                by simp only [HTree.height]; omega, by simp only [HTree.leafCount]; omega⟩
            · rw [List.length_append, entriesUnder_length] at f2 b2
              refine .inr (.inl ⟨q, m, _, _, e2, .right hn hk r1 h1 w2, by simpa using d2,
                by rw [hlen]; omega, n2, k2, b2.imp_right ?_⟩)
              rintro ⟨M, m1, m2, m3, m4⟩
              exact ⟨M, m1, by simp only [List.length_cons]; omega, by rw [hlen]; omega, m4⟩
            · rw [List.length_append, entriesUnder_length] at f2
              exact .inr (.inr (.inl ⟨q, m, _, _, e2, .right hn hk r1 h1 w2, by simpa using d2,
                by rw [hlen]; omega, n2, k2⟩))
            · rw [List.length_append, entriesUnder_length] at f2
              exact .inr (.inr (.inr ⟨q, m, _, _, e2, .right hn hk r1 h1 w2, by rw [hlen]; omega,
                n2, k2⟩))
        · simp only [e1]
          refine .inr (.inl ⟨q, m, _, _, rfl, .left hn hk w1, by simpa using d1, by simpa using f1,
            n1, k1, b1.imp_right ?_⟩)
          rintro ⟨M, m1, m2, m3, m4⟩
          exact ⟨M, m1, by simp only [List.length_cons]; omega, by simpa using m3, m4⟩
        · simp only [e1]
          exact .inr (.inr (.inl ⟨q, m, _, _, trivial, .left hn hk w1, by simpa using d1,
            by simpa using f1, n1, k1⟩))
        · simp only [e1]
          exact .inr (.inr (.inr ⟨q, m, _, _, trivial, .left hn hk w1, by simpa using f1, n1, k1⟩))

/-- A pointer that stands for a tree points at a node. -/
theorem Represents.node {ns : List TreeNode} {T : HTree} {p : Word} (h : Represents ns p T) :
    ∃ n, nodeOf ns p = some n := by
  cases T with
  | leaf x => obtain ⟨n, hn, -⟩ := h; exact ⟨n, hn⟩
  | node l r => obtain ⟨n, hn, -⟩ := h; exact ⟨n, hn⟩

/-- `codeTable(tree)` on a tree that fits: its table (R96, R99). -/
theorem codeTableOf_ok {p : Params} {ns : List TreeNode} {root : Word} {T : HTree}
    (h : Represents ns root T) (hh : T.height ≤ p.codeMaxLen) (hc : T.leafCount ≤ p.alphaCap) :
    codeTableOf p ns root = .ok T.table := by
  obtain ⟨n, hn⟩ := h.node
  have := walk_ok (acc := []) (out := []) h hn hh (show 0 + T.leafCount ≤ p.alphaCap by omega)
  simpa [codeTableOf, hn] using this

/-- A tree that is too tall, with a table that could hold its leaves: CapacityOverflow(3). -/
theorem walk_tall {cap : Nat} {ns : List TreeNode} {T : HTree} {room : Nat} {p : Word} {n : TreeNode}
    {acc : List Bool} {out : List CodeEntry} (h : Represents ns p T) (hn : nodeOf ns p = some n)
    (hh : room < T.height) (hc : out.length + T.leafCount ≤ cap) :
    walk cap ns room p n acc out = .error (.capacityOverflow .codeLength) := by
  induction T generalizing room p n acc out with
  | leaf x => simp [HTree.height] at hh
  | node l r ihl ihr =>
    obtain ⟨m, hm, hk, hl, hr⟩ := h
    rw [hn] at hm; cases hm
    cases room with
    | zero => simp [walk, hk]
    | succ room =>
      obtain ⟨nl, hnl⟩ := hl.node
      obtain ⟨nr, hnr⟩ := hr.node
      simp only [HTree.height] at hh
      simp only [HTree.leafCount] at hc
      have := r.leafCount_pos
      simp only [walk, hk, hnl]
      by_cases hlt : room < l.height
      · rw [ihl hl hnl hlt (by omega)]
      · rw [walk_ok hl hnl (by omega) (by omega)]
        simp only [hnr]
        exact ihr hr hnr (by omega) (by rw [List.length_append, entriesUnder_length]; omega)

theorem codeTableOf_tall {p : Params} {ns : List TreeNode} {root : Word} {T : HTree}
    (h : Represents ns root T) (hh : p.codeMaxLen < T.height) (hc : T.leafCount ≤ p.alphaCap) :
    codeTableOf p ns root = .error (.capacityOverflow .codeLength) := by
  obtain ⟨n, hn⟩ := h.node
  simp only [codeTableOf, hn]
  exact walk_tall h hn hh (by simpa using hc)

/-- What `codeTable(tree)` answers, whatever the nodes hold (R98, R152). -/
theorem codeTableOf_spec (p : Params) (ns : List TreeNode) (root : Word) :
    (∃ T, codeTableOf p ns root = .ok T.table ∧ Represents ns root T ∧ T.height ≤ p.codeMaxLen ∧
        T.leafCount ≤ p.alphaCap) ∨
      (codeTableOf p ns root = .error (.badTree root) ∧ nodeOf ns root = none) ∨
      (∃ q m path done, codeTableOf p ns root = .error (.badTree q) ∧
        WalkedTo ns root p.codeMaxLen q path done ∧ path.length < p.codeMaxLen ∧
        done.length ≤ p.alphaCap ∧ nodeOf ns q = some m ∧ m.kind = .internal ∧
        (nodeOf ns m.left = none ∨
          ∃ L, Represents ns m.left L ∧ path.length + 1 + L.height ≤ p.codeMaxLen ∧
            done.length + L.leafCount ≤ p.alphaCap ∧ nodeOf ns m.right = none)) ∨
      (∃ q m path done, codeTableOf p ns root = .error (.capacityOverflow .codeLength) ∧
        WalkedTo ns root p.codeMaxLen q path done ∧ path.length = p.codeMaxLen ∧
        done.length ≤ p.alphaCap ∧ nodeOf ns q = some m ∧ m.kind = .internal) ∨
      (∃ q m path done, codeTableOf p ns root = .error (.capacityOverflow .codeTable) ∧
        WalkedTo ns root p.codeMaxLen q path done ∧ done.length = p.alphaCap ∧
        nodeOf ns q = some m ∧ m.kind = .leaf) := by
  unfold codeTableOf
  cases hn : nodeOf ns root with
  | none => exact .inr (.inl ⟨rfl, rfl⟩)
  | some n =>
    rcases walk_spec (cap := p.alphaCap) (acc := []) (out := []) p.codeMaxLen hn (by simp) with
      ⟨T, h1, h2, h3, h4⟩ | h | h | h
    · exact .inl ⟨T, by simpa using h1, h2, h3, by simpa using h4⟩
    · exact .inr (.inr (.inl (by simpa using h)))
    · exact .inr (.inr (.inr (.inl (by simpa using h))))
    · exact .inr (.inr (.inr (.inr (by simpa using h))))

end Sys2Proof.Machine
end

