-- ==== Sys2Proof/Laws/Codec.lean ====
section
/-! SUPPORT. Encoder, BitPacker and Decoder: what their loops answer (R100, R110 to R118, R121 to
R127). -/

namespace Sys2Proof.Machine

open Sys2Proof

/-! ## Encoder -/

theorem findCode_some {tbl : List CodeEntry} {x : Word} (h : ∃ e ∈ tbl, e.sym = x) :
    ∃ e, findCode tbl x = some e ∧ e ∈ tbl ∧ e.sym = x := by
  obtain ⟨e, he, rfl⟩ := h
  have : (tbl.find? fun d => d.sym == e.sym).isSome := by
    rw [List.find?_isSome]; exact ⟨e, he, by simp⟩
  obtain ⟨d, hd⟩ := Option.isSome_iff_exists.1 this
  exact ⟨d, hd, List.mem_of_find?_eq_some hd, by simpa using List.find?_some hd⟩

theorem findCode_none {tbl : List CodeEntry} {x : Word} (h : ¬ ∃ e ∈ tbl, e.sym = x) :
    findCode tbl x = none := by
  simp only [findCode, List.find?_eq_none]
  intro e he hx
  exact h ⟨e, he, by simpa using hx⟩

theorem codeBits_cons {tbl : List CodeEntry} {x : Word} {e : CodeEntry} (h : findCode tbl x = some e)
    (xs : List Word) : codeBits tbl (x :: xs) = e.bits ++ codeBits tbl xs := by
  unfold findCode at h
  simp [codeBits, h]

theorem codeBits_append (tbl : List CodeEntry) (xs ys : List Word) :
    codeBits tbl (xs ++ ys) = codeBits tbl xs ++ codeBits tbl ys := by
  simp [codeBits]

/-- A covered text goes in whole as long as its codes fit. -/
theorem encodeFrom_append {cap : Nat} {tbl : List CodeEntry} {xs : List Word} (ys : List Word)
    {i : Nat} {acc : List Bool} (hc : Covers tbl xs)
    (hl : acc.length + (codeBits tbl xs).length ≤ cap) :
    encodeFrom cap tbl (xs ++ ys) i acc =
      encodeFrom cap tbl ys (i + xs.length) (acc ++ codeBits tbl xs) := by
  induction xs generalizing i acc with
  | nil => simp [codeBits]
  | cons x xs ih =>
    obtain ⟨e, he, -, -⟩ := findCode_some (hc x (by simp))
    rw [codeBits_cons he] at hl ⊢
    rw [List.length_append] at hl
    have hgt : ¬ acc.length + e.bits.length > cap := by omega
    simp only [List.cons_append, encodeFrom, he]
    rw [if_neg hgt, ih (fun y hy => hc y (List.mem_cons_of_mem _ hy))
      (by rw [List.length_append]; omega), List.length_cons, List.append_assoc]
    congr 1
    omega

theorem encodeFrom_ok {cap : Nat} {tbl : List CodeEntry} {xs : List Word} (hc : Covers tbl xs)
    (hl : (codeBits tbl xs).length ≤ cap) :
    encodeFrom cap tbl xs 0 [] = .ok (codeBits tbl xs) := by
  have := encodeFrom_append (cap := cap) (i := 0) (acc := []) [] hc (by simpa using hl)
  simpa [encodeFrom] using this

/-- UnknownSymbol at the first symbol without an entry (R142). -/
theorem encodeFrom_unknown {cap : Nat} {tbl : List CodeEntry} {xs ys : List Word} {y : Word}
    (hc : Covers tbl xs) (hl : (codeBits tbl xs).length ≤ cap) (hy : ¬ ∃ e ∈ tbl, e.sym = y) :
    encodeFrom cap tbl (xs ++ y :: ys) 0 [] = .error (.unknownSymbol xs.length) := by
  rw [encodeFrom_append _ hc (by simpa using hl)]
  simp [encodeFrom, findCode_none hy]

/-- CapacityOverflow(5) at the first code that would run past `BIT_CAP` (R100). -/
theorem encodeFrom_full {cap : Nat} {tbl : List CodeEntry} {xs ys : List Word} {y : Word}
    (hc : Covers tbl (xs ++ [y])) (hl : (codeBits tbl xs).length ≤ cap)
    (hy : cap < (codeBits tbl (xs ++ [y])).length) :
    encodeFrom cap tbl (xs ++ y :: ys) 0 [] = .error (.capacityOverflow .bitString) := by
  obtain ⟨e, he, -, -⟩ := findCode_some (hc y (by simp))
  have he' : codeBits tbl [y] = e.bits := by rw [codeBits_cons he]; simp [codeBits]
  rw [codeBits_append, he', List.length_append] at hy
  rw [encodeFrom_append _ (fun x hx => hc x (by simp [hx])) (by simpa using hl)]
  simp only [encodeFrom, he, List.nil_append]
  rw [if_pos (by omega)]

/-- The three things the Encoder can answer. -/
theorem encodeFrom_spec (cap : Nat) (tbl : List CodeEntry) (text : List Word) :
    (Covers tbl text ∧ (codeBits tbl text).length ≤ cap ∧
        encodeFrom cap tbl text 0 [] = .ok (codeBits tbl text)) ∨
      (∃ xs y ys, text = xs ++ y :: ys ∧ Covers tbl xs ∧ (codeBits tbl xs).length ≤ cap ∧
        (¬ ∃ e ∈ tbl, e.sym = y) ∧
        encodeFrom cap tbl text 0 [] = .error (.unknownSymbol xs.length)) ∨
      (∃ xs y ys, text = xs ++ y :: ys ∧ Covers tbl (xs ++ [y]) ∧
        (codeBits tbl xs).length ≤ cap ∧ cap < (codeBits tbl (xs ++ [y])).length ∧
        encodeFrom cap tbl text 0 [] = .error (.capacityOverflow .bitString)) := by
  suffices h : ∀ (ys xs : List Word), Covers tbl xs → (codeBits tbl xs).length ≤ cap →
      (Covers tbl (xs ++ ys) ∧ (codeBits tbl (xs ++ ys)).length ≤ cap) ∨
      (∃ us y vs, xs ++ ys = us ++ y :: vs ∧ Covers tbl us ∧ (codeBits tbl us).length ≤ cap ∧
        ¬ ∃ e ∈ tbl, e.sym = y) ∨
      (∃ us y vs, xs ++ ys = us ++ y :: vs ∧ Covers tbl (us ++ [y]) ∧
        (codeBits tbl us).length ≤ cap ∧ cap < (codeBits tbl (us ++ [y])).length) by
    rcases h text [] (by simp [Covers]) (by simp [codeBits]) with ⟨h1, h2⟩ | h1 | h1
    · exact .inl ⟨h1, h2, encodeFrom_ok h1 h2⟩
    · obtain ⟨us, y, vs, h1, h2, h3, h4⟩ := h1
      rw [List.nil_append] at h1
      exact .inr (.inl ⟨us, y, vs, h1, h2, h3, h4, h1 ▸ encodeFrom_unknown h2 h3 h4⟩)
    · obtain ⟨us, y, vs, h1, h2, h3, h4⟩ := h1
      rw [List.nil_append] at h1
      exact .inr (.inr ⟨us, y, vs, h1, h2, h3, h4, h1 ▸ encodeFrom_full h2 h3 h4⟩)
  intro ys
  induction ys with
  | nil => intro xs h1 h2; exact .inl (by simpa using ⟨h1, h2⟩)
  | cons y ys ih =>
    intro xs h1 h2
    by_cases hy : ∃ e ∈ tbl, e.sym = y
    · have hc : Covers tbl (xs ++ [y]) := by
        intro x hx
        rcases List.mem_append.1 hx with hx | hx
        · exact h1 x hx
        · rw [List.mem_singleton] at hx; subst hx; exact hy
      by_cases hl : (codeBits tbl (xs ++ [y])).length ≤ cap
      · have := ih (xs ++ [y]) hc hl
        rwa [List.append_assoc, List.singleton_append] at this
      · exact .inr (.inr ⟨xs, y, ys, rfl, hc, h2, by omega⟩)
    · exact .inr (.inl ⟨xs, y, ys, rfl, h1, h2, hy⟩)

/-- The codes of a covered text spell it. -/
theorem spells_codeBits {tbl : List CodeEntry} {xs : List Word} (h : Covers tbl xs) :
    Spells tbl xs (codeBits tbl xs) := by
  induction xs with
  | nil => exact .nil
  | cons x xs ih =>
    obtain ⟨e, he, hm, hx⟩ := findCode_some (h x (by simp))
    rw [codeBits_cons he]
    exact .cons hm hx (ih fun y hy => h y (List.mem_cons_of_mem _ hy))

/-! ## BitPacker -/

@[simp] theorem packBits_length (bs : List Bool) : (packBits bs).length = (bs.length + 7) / 8 := by
  simp [packBits]

/-- Bit `8j + k` of the bit string is bit `7 - k` of byte `j`, and beyond its end there are zeros
(R50, R110, R111). -/
theorem packBits_getLsbD (bs : List Bool) (j k : Nat) (hj : j < (packBits bs).length) (hk : k < 8) :
    ((packBits bs)[j]).getLsbD (7 - k) = bs.getD (8 * j + k) false := by
  simp only [packBits, List.getElem_map, List.getElem_range]
  exact ofNat_bitGroup_getLsbD 8 bs j k hk

@[simp] theorem byteBits_length (b : Byte) : (byteBits b).length = 8 := by simp [byteBits]

theorem unpackBytes_length (bytes : List Byte) : (unpackBytes bytes).length = 8 * bytes.length := by
  rw [unpackBytes, length_flatMap_const (k := 8) (fun b _ => byteBits_length b)]
  ring

theorem unpackBytes_getD (bytes : List Byte) (j k : Nat) (hj : j < bytes.length) (hk : k < 8) :
    (unpackBytes bytes).getD (8 * j + k) false = (bytes[j]).getLsbD (7 - k) := by
  rw [unpackBytes, Nat.mul_comm, getD_flatMap_const (k := 8) (fun b _ => byteBits_length b) hj hk]
  simp [byteBits, List.getD_eq_getElem?_getD, hk]

/-- UNPACK after PACK (R118). -/
theorem unpack_pack (bs : List Bool) :
    unpackBytes (packBits bs) = bs ++ List.replicate ((8 - bs.length % 8) % 8) false := by
  apply List.ext_getElem
  · rw [unpackBytes_length, packBits_length, List.length_append, List.length_replicate]
    omega
  · intro i h1 h2
    rw [unpackBytes_length] at h1
    have hj : i / 8 < (packBits bs).length := by omega
    have hk : i % 8 < 8 := Nat.mod_lt _ (by omega)
    have e := unpackBytes_getD _ _ _ hj hk
    rw [packBits_getLsbD _ _ _ hj hk, Nat.div_add_mod] at e
    rw [List.getD_eq_getElem _ _ (by rw [unpackBytes_length]; omega)] at e
    rw [e, List.getElem_append]
    by_cases hi : i < bs.length
    · rw [dif_pos hi, List.getD_eq_getElem _ _ hi]
    · rw [dif_neg hi, List.getD_eq_default _ _ (by omega)]
      simp

/-- PACK after UNPACK (R118). -/
theorem pack_unpack (bytes : List Byte) : packBits (unpackBytes bytes) = bytes := by
  apply List.ext_getElem
  · rw [packBits_length, unpackBytes_length]; omega
  · intro j h1 h2
    apply BitVec.eq_of_getLsbD_eq
    intro k hk
    have hk' : 7 - (7 - k) = k := by omega
    rw [← hk', packBits_getLsbD _ _ _ h1 (by omega), unpackBytes_getD _ _ _ h2 (by omega)]

theorem hexOf_length (bytes : List Byte) : (hexOf bytes).length = 3 * bytes.length - 1 := by
  induction bytes with
  | nil => rfl
  | cons b rest ih =>
    cases rest with
    | nil => rfl
    | cons c rest =>
      simp only [hexOf, List.length_cons] at ih ⊢
      omega

/-- The characters of the hex string (R116). -/
theorem hexOf_getD (bytes : List Byte) (j : Nat) (hj : j < bytes.length) :
    (hexOf bytes).getD (3 * j) 0 = hexDigit ((bytes[j]).toNat / 16) ∧
      (hexOf bytes).getD (3 * j + 1) 0 = hexDigit ((bytes[j]).toNat % 16) ∧
      (j + 1 < bytes.length → (hexOf bytes).getD (3 * j + 2) 0 = 0x20) := by
  induction bytes generalizing j with
  | nil => simp at hj
  | cons b rest ih =>
    cases rest with
    | nil =>
      have : j = 0 := by simp at hj; omega
      subst this
      exact ⟨rfl, rfl, fun h => by simp at h⟩
    | cons c rest =>
      cases j with
      | zero => exact ⟨rfl, rfl, fun _ => rfl⟩
      | succ j =>
        have h := ih j (by simpa using hj)
        rw [show 3 * (j + 1) = 3 * j + 3 by ring, show 3 * j + 3 + 1 = 3 * j + 1 + 3 by ring,
          show 3 * j + 3 + 2 = 3 * j + 2 + 3 by ring]
        simp only [hexOf, List.getD_cons_succ]
        exact ⟨h.1, h.2.1, fun hj' => h.2.2 (by simpa using hj')⟩

/-! ## Decoder -/

/-- A walk down to a leaf consumes that leaf's code and writes its symbol (R121). -/
theorem decodeFrom_code {cap : Nat} {ns : List TreeNode} {root : TreeNode} {T : HTree} {p : Word}
    {n : TreeNode} {e : CodeEntry} (h : Represents ns p T) (hn : nodeOf ns p = some n)
    (he : e ∈ T.table) (hne : e.bits ≠ []) (rest : List Bool) (i : Nat) (mid : Bool)
    (out : List Word) :
    decodeFrom cap ns root (e.bits ++ rest) i n mid out =
      if out.length = cap then .error (.capacityOverflow .outText)
      else decodeFrom cap ns root rest (i + e.bits.length) root false (out ++ [e.sym]) := by
  induction T generalizing p n e i mid with
  | leaf x => simp [HTree.table] at he; subst he; simp at hne
  | node l r ihl ihr =>
    obtain ⟨m, h1, h2, h3, h4⟩ := h
    rw [hn] at h1; cases h1
    have side : ∀ (b : Bool) (U : HTree) (d : CodeEntry),
        (∀ {p : Word} {n : TreeNode} {e : CodeEntry}, Represents ns p U → nodeOf ns p = some n →
          e ∈ U.table → e.bits ≠ [] → ∀ (i : Nat) (mid : Bool),
          decodeFrom cap ns root (e.bits ++ rest) i n mid out =
            if out.length = cap then .error (.capacityOverflow .outText)
            else decodeFrom cap ns root rest (i + e.bits.length) root false (out ++ [e.sym])) →
        Represents ns (if b then n.right else n.left) U → d ∈ U.table →
        decodeFrom cap ns root ((b :: d.bits) ++ rest) i n mid out =
          if out.length = cap then .error (.capacityOverflow .outText)
          else decodeFrom cap ns root rest (i + (d.bits.length + 1)) root false
            (out ++ [d.sym]) := by
      intro b U d ih hU hd
      obtain ⟨c, hc⟩ := hU.node
      simp only [List.cons_append, decodeFrom, h2, hc]
      cases U with
      | leaf x =>
        obtain ⟨c', g1, g2, g3⟩ := hU
        rw [hc] at g1; cases g1
        simp [HTree.table] at hd
        subst hd
        simp [g2, g3]
      | node a z =>
        have hk : c.kind = .internal := by
          obtain ⟨c', g1, g2, -⟩ := hU
          rw [hc] at g1; cases g1; exact g2
        have hdne : d.bits ≠ [] := by
          simp only [HTree.table, List.mem_append, List.mem_map] at hd
          rcases hd with ⟨f, -, rfl⟩ | ⟨f, -, rfl⟩ <;> simp
        rw [hk]
        simp only
        rw [ih hU hc hd hdne]
        congr 2
        omega
    simp only [HTree.table, List.mem_append, List.mem_map] at he
    rcases he with ⟨d, hd, rfl⟩ | ⟨d, hd, rfl⟩
    · simpa using side false l d (fun a b c d i mid => ihl a b c d i mid) (by simpa using h3) hd
    · simpa using side true r d (fun a b c d i mid => ihr a b c d i mid) (by simpa using h4) hd

/-- In a tree of two or more leaves no code is empty (R99). -/
theorem bits_ne_nil {T : HTree} (hT : 2 ≤ T.leafCount) {e : CodeEntry} (he : e ∈ T.table) :
    e.bits ≠ [] := by
  cases T with
  | leaf x => simp [HTree.leafCount] at hT
  | node l r =>
    simp only [HTree.table, List.mem_append, List.mem_map] at he
    rcases he with ⟨f, -, rfl⟩ | ⟨f, -, rfl⟩ <;> simp

/-- A bit string made of codes is taken apart again (R128). -/
theorem decodeFrom_spells {cap : Nat} {ns : List TreeNode} {root : TreeNode} {T : HTree} {p : Word}
    (h : Represents ns p T) (hn : nodeOf ns p = some root) (hT : 2 ≤ T.leafCount) {xs : List Word}
    {bs : List Bool} (hs : Spells T.table xs bs) (rest : List Bool) (i : Nat) (out : List Word)
    (hc : out.length + xs.length ≤ cap) :
    decodeFrom cap ns root (bs ++ rest) i root false out =
      decodeFrom cap ns root rest (i + bs.length) root false (out ++ xs) := by
  induction hs generalizing i out with
  | nil => simp
  | @cons x e xs bs he hx _ ih =>
    simp only [List.length_cons] at hc
    rw [List.append_assoc, decodeFrom_code h hn he (bits_ne_nil hT he),
      if_neg (by omega), ih _ _ (by simp; omega)]
    simp [hx, Nat.add_assoc]

/-- A run of zeros shorter than the leftmost leaf's depth ends between leaves (R122, R127). -/
theorem decodeFrom_short {cap : Nat} {ns : List TreeNode} {root : TreeNode} {T : HTree} {p : Word}
    {n : TreeNode} (h : Represents ns p T) (hn : nodeOf ns p = some n) (k : Nat)
    (hk : k < T.leftDepth) (i : Nat) (mid : Bool) (out : List Word) :
    decodeFrom cap ns root (List.replicate k false) i n mid out =
      if mid = false ∧ k = 0 then .ok out else .error (.malformedBitStream false (i + k)) := by
  induction k generalizing T p n i mid with
  | zero => cases mid <;> simp [decodeFrom]
  | succ k ih =>
    cases T with
    | leaf x => simp [HTree.leftDepth] at hk
    | node l r =>
      simp only [HTree.leftDepth] at hk
      obtain ⟨m, h1, h2, h3, -⟩ := h
      rw [hn] at h1; cases h1
      obtain ⟨c, hc⟩ := h3.node
      have hck : c.kind = .internal := by
        cases l with
        | leaf y => simp [HTree.leftDepth] at hk
        | node a b =>
          obtain ⟨c', g1, g2, -⟩ := h3
          rw [hc] at g1; cases g1; exact g2
      rw [List.replicate_succ]
      simp only [decodeFrom, h2, Bool.false_eq_true, if_false, hc, hck]
      rw [ih h3 hc (by omega), show i + 1 + k = i + (k + 1) by omega]
      simp

/-- Zeros after a bit string that ended at the root: as many copies of the leftmost leaf's symbol as
its code fits in, and an error when some are left over (R127). -/
theorem decodeFrom_zeros {cap : Nat} {ns : List TreeNode} {root : TreeNode} {T : HTree} {p : Word}
    (h : Represents ns p T) (hn : nodeOf ns p = some root) (hT : 2 ≤ T.leafCount) (k i : Nat)
    (out : List Word) (hc : out.length + k / T.leftDepth ≤ cap) :
    decodeFrom cap ns root (List.replicate k false) i root false out =
      if k % T.leftDepth = 0 then .ok (out ++ List.replicate (k / T.leftDepth) T.leftmost)
      else .error (.malformedBitStream false (i + k)) := by
  have hd : 0 < T.leftDepth := by
    cases T with
    | leaf x => simp [HTree.leafCount] at hT
    | node l r => simp [HTree.leftDepth]
  have hsp : ∀ m, Spells T.table (List.replicate m T.leftmost)
      (List.replicate (m * T.leftDepth) false) := by
    intro m
    induction m with
    | zero => simpa using Spells.nil
    | succ m ih =>
      rw [List.replicate_succ, Nat.add_mul, Nat.one_mul, Nat.add_comm, List.replicate_add]
      exact .cons T.leftmost_mem rfl ih
  have hk := Nat.div_add_mod k T.leftDepth
  have e : List.replicate k false = List.replicate (k / T.leftDepth * T.leftDepth) false ++
      List.replicate (k % T.leftDepth) false := by
    rw [← List.replicate_add, Nat.mul_comm, hk]
  conv_lhs => rw [e]
  rw [decodeFrom_spells h hn hT (hsp _) _ _ _ (by simpa using hc),
    decodeFrom_short h hn _ (Nat.mod_lt _ hd)]
  simp only [List.length_replicate, true_and]
  congr 2
  rw [Nat.add_assoc, Nat.mul_comm, hk]

/-- A walk is mid-way at most for as many symbols as there are bits: the symbols decoded are never
more than the bits, and never more than `OUT_CAP`. -/
theorem decodeFrom_ok_length {cap : Nat} {ns : List TreeNode} {root : TreeNode} {bs : List Bool}
    {i : Nat} {n : TreeNode} {mid : Bool} {out xs : List Word} (ho : out.length ≤ cap)
    (h : decodeFrom cap ns root bs i n mid out = .ok xs) :
    xs.length ≤ cap ∧ ∀ x ∈ xs, x ∈ out ∨ ∃ m ∈ ns, m.sym = x := by
  induction bs generalizing i n mid out with
  | nil =>
    cases mid <;> simp [decodeFrom] at h
    subst h
    exact ⟨ho, fun x hx => .inl hx⟩
  | cons b bs ih =>
    simp only [decodeFrom] at h
    split at h
    · simp at h
    · split at h
      · simp at h
      · rename_i c hc
        split at h
        · exact ih ho h
        · split at h
          · simp at h
          · obtain ⟨h1, h2⟩ := ih (by simp; omega) h
            refine ⟨h1, fun x hx => ?_⟩
            rcases h2 x hx with h3 | h3
            · rcases List.mem_append.1 h3 with h4 | h4
              · exact .inl h4
              · rw [List.mem_singleton] at h4
                exact .inr ⟨c, nodeOf_mem hc, h4.symm⟩
            · exact .inr h3

end Sys2Proof.Machine
end

