-- ==== Sys2Proof/Laws/Frequency.lean ====
section
/-! SUPPORT. FrequencyCounter: what the scan of R80 answers, once (R81). -/

namespace Sys2Proof.Machine

open Sys2Proof

theorem isFrequencyMap_nil : IsFrequencyMap [] [] :=
  ⟨by simp, by simp, by simp, by simp, by simp⟩

/-- A FrequencyMap has as many entries as its text has distinct symbols. -/
theorem IsFrequencyMap.length_eq {text : List Word} {es : List FreqEntry}
    (h : IsFrequencyMap text es) : es.length = text.dedup.length := by
  have hp : (es.map FreqEntry.sym).Perm text.dedup :=
    (List.perm_ext_iff_of_nodup h.keys_distinct (List.nodup_dedup text)).2 fun x => by
      rw [h.keys_exact, List.mem_dedup]
  simpa using hp.length_eq

theorem dedup_length_append_le (pre post : List Word) :
    pre.dedup.length ≤ (pre ++ post).dedup.length :=
  (List.nodup_dedup pre).subperm (fun x hx => by
    rw [List.mem_dedup] at hx ⊢; exact List.mem_append_left _ hx) |>.length_le

theorem sum_bump {es : List FreqEntry} {x : Word} (hn : (es.map FreqEntry.sym).Nodup)
    (hx : x ∈ es.map FreqEntry.sym) :
    ((es.map fun e => if e.sym = x then { e with cnt := e.cnt + 1 } else e).map
      FreqEntry.cnt).sum = (es.map FreqEntry.cnt).sum + 1 := by
  induction es with
  | nil => simp at hx
  | cons e es ih =>
    simp only [List.map_cons, List.nodup_cons, List.mem_cons] at hn hx
    simp only [List.map_cons, List.sum_cons]
    by_cases he : e.sym = x
    · have hid : (es.map fun e => if e.sym = x then { e with cnt := e.cnt + 1 } else e) = es := by
        conv_rhs => rw [← List.map_id es]
        refine List.map_congr_left fun d hd => ?_
        have : d.sym ≠ x := fun h => hn.1 (by rw [he, ← h]; exact List.mem_map_of_mem hd)
        simp [this]
      rw [hid]
      simp [he]; omega
    · have := ih hn.2 (hx.resolve_left fun h => he h.symm)
      rw [this, if_neg he]
      omega

/-- One symbol of the scan keeps the table the FrequencyMap of what has been scanned. -/
theorem countSymbol_spec {cap : Nat} {pre : List Word} {tbl : List FreqEntry} (x : Word)
    (h : IsFrequencyMap pre tbl) (hl : tbl.length ≤ cap) :
    (∃ tbl', countSymbol cap tbl x = .ok tbl' ∧ IsFrequencyMap (pre ++ [x]) tbl' ∧
        tbl'.length ≤ cap) ∨
      (countSymbol cap tbl x = .error (.capacityOverflow .freqTable) ∧
        cap < (pre ++ [x]).dedup.length) := by
  have hany : (tbl.any fun e => e.sym == x) = true ↔ x ∈ tbl.map FreqEntry.sym := by
    simp [List.any_eq_true]
  have hkeys : (tbl.map fun e => if e.sym = x then { e with cnt := e.cnt + 1 } else e).map
      FreqEntry.sym = tbl.map FreqEntry.sym := by
    rw [List.map_map]
    refine List.map_congr_left fun e _ => ?_
    by_cases he : e.sym = x <;> simp [he]
  unfold countSymbol
  by_cases hx : x ∈ tbl.map FreqEntry.sym
  · rw [if_pos (hany.2 hx)]
    have hpre : x ∈ pre := (h.keys_exact x).1 hx
    refine .inl ⟨_, rfl, ⟨?_, ?_, ?_, ?_, ?_⟩, by simpa using hl⟩
    · rw [hkeys]; exact h.keys_distinct
    · intro y
      rw [hkeys, h.keys_exact]
      simp only [List.mem_append, List.mem_singleton]
      constructor
      · exact .inl
      · rintro (hy | rfl)
        · exact hy
        · exact hpre
    · intro e he
      obtain ⟨d, hd, rfl⟩ := List.mem_map.1 he
      have hv := h.values d hd
      by_cases hdx : d.sym = x
      · simp [hdx, hv, List.count_append]
      · simp [hdx, hv, List.count_append, Ne.symm hdx]
    · refine List.pairwise_map.2 (h.order.imp_of_mem ?_)
      intro a b ha hb hab
      have hs : ∀ e ∈ tbl, (if e.sym = x then { e with cnt := e.cnt + 1 } else e : FreqEntry).sym =
          e.sym := fun e _ => by by_cases he : e.sym = x <;> simp [he]
      rw [hs a ha, hs b hb, List.idxOf_append_of_mem ((h.keys_exact _).1 (List.mem_map_of_mem ha)),
        List.idxOf_append_of_mem ((h.keys_exact _).1 (List.mem_map_of_mem hb))]
      exact hab
    · rw [sum_bump h.keys_distinct hx, h.conserved]; simp
  · rw [if_neg (fun hh => hx (hany.1 hh))]
    have hpre : x ∉ pre := fun hh => hx ((h.keys_exact x).2 hh)
    by_cases hc : tbl.length = cap
    · rw [if_pos hc]
      refine .inr ⟨rfl, ?_⟩
      have h1 : (pre ++ [x]).dedup.length = pre.dedup.length + 1 := by
        have hp : (pre ++ [x]).dedup.Perm (x :: pre.dedup) := by
          refine (List.perm_ext_iff_of_nodup (List.nodup_dedup _) ?_).2 fun y => ?_
          · exact List.nodup_cons.2 ⟨by rwa [List.mem_dedup], List.nodup_dedup _⟩
          · simp [List.mem_dedup, or_comm]
        rw [hp.length_eq]; simp
      rw [h1, ← h.length_eq, hc]; omega
    · rw [if_neg hc]
      refine .inl ⟨_, rfl, ⟨?_, ?_, ?_, ?_, ?_⟩, by simp; omega⟩
      · simp only [List.map_append, List.map_cons, List.map_nil]
        exact List.nodup_append.2 ⟨h.keys_distinct, by simp, by
          intro a ha b hb; simp at hb; rintro rfl; exact hx (hb ▸ ha)⟩
      · intro y
        have := h.keys_exact y
        simp only [List.map_append, List.mem_append, this]
        simp
      · intro e he
        rcases List.mem_append.1 he with he | he
        · have hv := h.values e he
          have hne : e.sym ≠ x := fun hh => hx (hh ▸ List.mem_map_of_mem he)
          simp [hv, List.count_append, Ne.symm hne]
        · rw [List.mem_singleton] at he
          subst he
          simp [List.count_append, List.count_eq_zero.2 hpre]
      · refine List.pairwise_append.2 ⟨h.order.imp_of_mem ?_, by simp, ?_⟩
        · intro a b ha hb hab
          rw [List.idxOf_append_of_mem ((h.keys_exact _).1 (List.mem_map_of_mem ha)),
            List.idxOf_append_of_mem ((h.keys_exact _).1 (List.mem_map_of_mem hb))]
          exact hab
        · intro a ha b hb
          rw [List.mem_singleton] at hb
          subst hb
          have hap := (h.keys_exact _).1 (List.mem_map_of_mem ha)
          rw [List.idxOf_append_of_mem hap, List.idxOf_append_of_notMem hpre]
          have := List.idxOf_lt_length_of_mem hap
          omega
      · simp [h.conserved]

/-- The scan answers the FrequencyMap of the text, or the table is full, and then the text has more
distinct symbols than the table has entries. -/
theorem countSymbols_spec {cap : Nat} (text : List Word) {pre : List Word} {tbl : List FreqEntry}
    (h : IsFrequencyMap pre tbl) (hl : tbl.length ≤ cap) :
    (∃ es, countSymbols cap text tbl = .ok es ∧ IsFrequencyMap (pre ++ text) es ∧
        es.length ≤ cap) ∨
      (countSymbols cap text tbl = .error (.capacityOverflow .freqTable) ∧
        cap < (pre ++ text).dedup.length) := by
  induction text generalizing pre tbl with
  | nil => exact .inl ⟨tbl, rfl, by simpa using h, hl⟩
  | cons x xs ih =>
    rcases countSymbol_spec x h hl with ⟨tbl', h1, h2, h3⟩ | ⟨h1, h2⟩
    · have := ih h2 h3
      rw [List.append_assoc, List.singleton_append] at this
      simpa [countSymbols, h1] using this
    · refine .inr ⟨by simp [countSymbols, h1], lt_of_lt_of_le h2 ?_⟩
      have := dedup_length_append_le (pre ++ [x]) xs
      simpa using this

/-- The scan of a whole text: which of the two it answers is decided by the number of distinct
symbols. -/
theorem countSymbols_ok {cap : Nat} {text : List Word} (h : text.dedup.length ≤ cap) :
    ∃ es, countSymbols cap text [] = .ok es ∧ IsFrequencyMap text es ∧ es.length ≤ cap := by
  rcases countSymbols_spec (cap := cap) text isFrequencyMap_nil (by simp) with h1 | h1
  · simpa using h1
  · have := h1.2; simp at this; omega

theorem countSymbols_full {cap : Nat} {text : List Word} (h : cap < text.dedup.length) :
    countSymbols cap text [] = .error (.capacityOverflow .freqTable) := by
  rcases countSymbols_spec (cap := cap) text isFrequencyMap_nil (by simp) with ⟨es, -, h2, h3⟩ | h1
  · have := h2.length_eq; simp at this; omega
  · exact h1.1

/-- A text has one FrequencyMap (R81). -/
theorem IsFrequencyMap.unique {text : List Word} {es fs : List FreqEntry}
    (h : IsFrequencyMap text es) (k : IsFrequencyMap text fs) : es = fs := by
  have hperm : (es.map FreqEntry.sym).Perm (fs.map FreqEntry.sym) :=
    (List.perm_ext_iff_of_nodup h.keys_distinct k.keys_distinct).2 fun x => by
      rw [h.keys_exact, k.keys_exact]
  have hkeys : es.map FreqEntry.sym = fs.map FreqEntry.sym := by
    refine hperm.eq_of_pairwise (le := fun a b => text.idxOf a < text.idxOf b) ?_
      (List.pairwise_map.2 h.order) (List.pairwise_map.2 k.order)
    intro a b _ _ h1 h2
    exact absurd h1 (by omega)
  have hself : ∀ {gs : List FreqEntry}, IsFrequencyMap text gs →
      gs = (gs.map FreqEntry.sym).map fun x => ⟨x, text.count x⟩ := by
    intro gs hg
    rw [List.map_map]
    conv_lhs => rw [← List.map_id gs]
    refine List.map_congr_left fun e he => ?_
    have := hg.values e he
    cases e
    simp_all
  rw [hself h, hself k, hkeys]

end Sys2Proof.Machine
end

