-- ==== Sys2Proof/Laws/Bodies.lean ====
section
/-! SUPPORT. The bodies of the commands at the level of State: what each leaves when it succeeds,
that it keeps the data invariant, and what it leaves alone (R149, R150). -/

namespace Sys2Proof.Machine

open Sys2Proof

/-! ## The values in the buffers depend on their words and lengths alone -/

theorem State.text_congr {s t : State} (hl : t.len .text = s.len .text)
    (hw : ∀ i, t.word .text i = s.word .text i) : t.text = s.text := by
  unfold State.text
  rw [show t.textLen = s.textLen from hl]
  exact below_congr fun i _ => hw i

theorem State.freqMap_congr {s t : State} (hl : t.len .freq = s.len .freq)
    (hw : ∀ i, t.word .freq i = s.word .freq i) : t.freqMap = s.freqMap := by
  unfold State.freqMap
  rw [show t.freqN = s.freqN from hl]
  exact below_congr fun i _ => by simp [State.freqAt, hw]

theorem State.nodes_congr {s t : State} (hp : t.params = s.params) (hl : t.len .node = s.len .node)
    (hw : ∀ i, t.word .node i = s.word .node i) : t.nodes = s.nodes := by
  unfold State.nodes
  rw [show t.nodeN = s.nodeN from hl]
  exact below_congr fun i _ => by simp [State.nodeAt, hw, hp]

theorem State.codeTable_congr {s t : State} (hp : t.params = s.params)
    (hl : t.len .code = s.len .code) (hw : ∀ i, t.word .code i = s.word .code i) :
    t.codeTable = s.codeTable := by
  unfold State.codeTable
  rw [show t.codeN = s.codeN from hl]
  refine below_congr fun i _ => ?_
  have : t.codeBit i = s.codeBit i := by funext k; simp [State.codeBit, hp, hw]
  simp [State.codeAt, hp, hw, this]

theorem State.bitString_congr {s t : State} (hl : t.len .bits = s.len .bits)
    (hw : ∀ i, t.word .bits i = s.word .bits i) : t.bitString = s.bitString := by
  unfold State.bitString
  rw [show t.bitLen = s.bitLen from hl]
  exact below_congr fun i _ => by rw [hw]

theorem State.packedBytes_congr {s t : State} (hl : t.len .bytes = s.len .bytes)
    (hw : ∀ i, t.word .bytes i = s.word .bytes i) : t.packedBytes = s.packedBytes := by
  unfold State.packedBytes
  rw [show t.byteLen = s.byteLen from hl]
  exact below_congr fun i _ => by rw [hw]

theorem State.outText_congr {s t : State} (hl : t.len .out = s.len .out)
    (hw : ∀ i, t.word .out i = s.word .out i) : t.outText = s.outText := by
  unfold State.outText
  rw [show t.outLen = s.outLen from hl]
  exact below_congr fun i _ => hw i

theorem State.hexString_congr {s t : State} (hl : t.len .hex = s.len .hex)
    (hw : ∀ i, t.word .hex i = s.word .hex i) : t.hexString = s.hexString := by
  unfold State.hexString
  rw [show t.hexLen = s.hexLen from hl]
  exact below_congr fun i _ => by rw [hw]

/-- How many elements a buffer's value has. -/
theorem State.value_lengths (s : State) :
    s.text.length = s.textLen.toNat ∧ s.freqMap.length = s.freqN.toNat ∧
      s.nodes.length = s.nodeN.toNat ∧ s.codeTable.length = s.codeN.toNat ∧
      s.bitString.length = s.bitLen.toNat ∧ s.packedBytes.length = s.byteLen.toNat ∧
      s.hexString.length = s.hexLen.toNat ∧ s.outText.length = s.outLen.toNat := by
  simp [State.text, State.freqMap, State.nodes, State.codeTable, State.bitString,
    State.packedBytes, State.hexString, State.outText]

/-! ## The data invariant under the named operations -/

/-- The data invariant depends on the parameters, memory and the lengths alone. -/
theorem State.DataOk.congr {s t : State} (h : s.DataOk) (hp : t.params = s.params)
    (hm : t.mem = s.mem) (hl : ∀ r, t.len r = s.len r) : t.DataOk :=
  ⟨hp ▸ h.params_legal, by rw [hm, hp]; exact h.mem_wf, fun r => by rw [hl, hp]; exact h.len_le r⟩

theorem State.DataOk.deliver {s : State} (h : s.DataOk) {sp : Space} {n : Nat} {ws : List Word}
    (hn : n ≤ sp.cap s.params) (hw : ws.length = n * sp.stride s.params) :
    (s.deliver sp n ws).DataOk := by
  refine ⟨by simpa using h.params_legal, ?_, fun r => ?_⟩
  · have hle : ws.length ≤ sp.size s.params := by
      rw [hw]; exact Nat.mul_le_mul_right _ hn
    have := State.putWords_wf h.params_legal h.mem_wf (sp := sp) (i := 0) (ws := ws) (by omega)
    simpa using this
  · rw [State.deliver_len, State.deliver_params]
    split
    · rename_i hr
      subst hr
      rw [BitVec.toNat_ofNat]
      exact le_trans (Nat.mod_le _ _) hn
    · exact h.len_le r

theorem State.DataOk.emptyDest {s : State} (h : s.DataOk) (sp : Space) : (s.emptyDest sp).DataOk :=
  ⟨by simpa using h.params_legal, by simpa using h.mem_wf, fun r => by
    rw [State.emptyDest_len, State.emptyDest_params]
    split
    · simp
    · exact h.len_le r⟩

theorem State.DataOk.voidDest {s : State} (h : s.DataOk) (sp : Space) : (s.voidDest sp).DataOk :=
  ⟨by simpa using h.params_legal, by rw [State.voidDest_params]; exact State.voidDest_wf h.mem_wf sp,
    fun r => by
      rw [State.voidDest_len, State.voidDest_params]
      split
      · simp
      · exact h.len_le r⟩

theorem State.DataOk.setRoot {s : State} (h : s.DataOk) (v : Word) : (s.setRoot v).DataOk :=
  h.congr rfl rfl fun r => by simp

theorem State.DataOk.setStage {s : State} (h : s.DataOk) (n : BitVec 4) : (s.setStage n).DataOk :=
  h.congr rfl rfl fun r => by simp

theorem State.DataOk.complete {s : State} (h : s.DataOk) : s.complete.DataOk :=
  h.congr rfl rfl fun r => by simp

theorem State.DataOk.takeError {s : State} (h : s.DataOk) (e : CmdError) : (s.takeError e).DataOk :=
  h.congr rfl rfl fun r => by simp

theorem State.DataOk.accept {s : State} (h : s.DataOk) (w : Word) : (s.accept w).DataOk :=
  h.congr (by simp) (by simp) fun r => by simp

/-! ## What a body that succeeds has done -/

/-- The destination took a value that fits it; where the Tree is the destination, ROOT took one
too. -/
def Delivers (dest : Space) (s t : State) : Prop :=
  ∃ n ws root, n ≤ dest.cap s.params ∧ ws.length = n * dest.stride s.params ∧
    t = (s.deliver dest n ws).setRoot root ∧ (dest ≠ .node → root = s.root)

theorem delivers_of_deliver {dest : Space} {s : State} {n : Nat} {ws : List Word}
    (hn : n ≤ dest.cap s.params) (hw : ws.length = n * dest.stride s.params) :
    Delivers dest s (s.deliver dest n ws) := by
  refine ⟨n, ws, s.root, hn, hw, ?_, fun _ => rfl⟩
  have : (s.deliver dest n ws).root = s.root := by simp
  rw [← this]; rfl

theorem Delivers.dataOk {dest : Space} {s t : State} (h : Delivers dest s t) (hd : s.DataOk) :
    t.DataOk := by
  obtain ⟨n, ws, root, hn, hw, rfl, -⟩ := h
  exact (hd.deliver hn hw).setRoot root

theorem freq_words_length (es : List FreqEntry) :
    (es.flatMap FreqEntry.words).length = es.length * 2 :=
  length_flatMap_const fun _ _ => rfl

theorem node_words_length (ns : List TreeNode) :
    (ns.flatMap TreeNode.words).length = ns.length * 4 :=
  length_flatMap_const fun _ _ => rfl

theorem code_words_length (p : Params) (tbl : List CodeEntry) :
    (tbl.flatMap (CodeEntry.words p)).length = tbl.length * p.codeStride :=
  length_flatMap_const fun e _ => CodeEntry.words_length p e

/-! ### FREQ -/

/-- The FREQ body on a text whose distinct symbols fit the table. -/
theorem freqBody_ok {s : State} (hd : s.DataOk) (h : s.text.dedup.length ≤ s.params.alphaCap) :
    ∃ es, freqBody s = .ok (s.deliver .freq es.length (es.flatMap FreqEntry.words)) ∧
      IsFrequencyMap s.text es ∧ es.length ≤ s.params.alphaCap ∧
      (∀ e ∈ es, SymOk s.params e.sym) ∧ (∀ e ∈ es, e.cnt < 2 ^ 32) ∧
      (s.deliver .freq es.length (es.flatMap FreqEntry.words)).freqMap = es := by
  obtain ⟨es, h1, h2, h3⟩ := countSymbols_ok h
  have hsym : ∀ e ∈ es, SymOk s.params e.sym := fun e he =>
    text_symOk hd ((h2.keys_exact _).1 (List.mem_map_of_mem he))
  have htext : s.text.length ≤ 2 ^ 28 := by
    rw [s.value_lengths.1]
    exact le_trans (hd.len_le .text) hd.params_legal.2.1.2
  have hcnt : ∀ e ∈ es, e.cnt < 2 ^ 32 := fun e he => by
    rw [h2.values e he]
    have := List.count_le_length (a := e.sym) (l := s.text)
    omega
  have hcap := hd.params_legal.2.2.1.2.1
  exact ⟨es, by simp [freqBody, h1], h2, h3, hsym, hcnt,
    freqMap_deliver s (by omega) hsym hcnt⟩

theorem freqBody_full {s : State} (h : s.params.alphaCap < s.text.dedup.length) :
    freqBody s = .error (.capacityOverflow .freqTable) := by
  simp [freqBody, countSymbols_full h]

theorem freqBody_delivers {s t : State} (hd : s.DataOk) (h : freqBody s = .ok t) :
    Delivers .freq s t := by
  by_cases hc : s.text.dedup.length ≤ s.params.alphaCap
  · obtain ⟨es, h1, -, h3, -⟩ := freqBody_ok hd hc
    rw [h1] at h; cases h
    exact delivers_of_deliver h3 (freq_words_length es)
  · rw [freqBody_full (by omega)] at h; cases h

/-! ### BUILD -/

theorem freqMap_length_le {s : State} (hd : s.DataOk) :
    s.freqMap.length ≤ s.params.alphaCap ∧ 2 * s.freqMap.length < 2 ^ 32 := by
  have h1 : s.freqMap.length ≤ s.params.alphaCap := by
    rw [s.value_lengths.2.1]; exact hd.len_le .freq
  have := hd.params_legal.2.2.1.2.1
  omega

/-- The BUILD body on a map that is not empty and whose counts add up to less than 2^32. -/
theorem buildBody_ok {s : State} (hd : s.DataOk) (hne : s.freqMap ≠ [])
    (hsum : s.freqMap.length = 1 ∨ (s.freqMap.map FreqEntry.cnt).sum < 2 ^ 32) :
    ∃ ns r T t, buildBody s = .ok t ∧
      t = (s.deliver .node ns.length (ns.flatMap TreeNode.words)).setRoot (BitVec.ofNat 32 r) ∧
      IsHuffmanTree s.freqMap ns r ∧ Represents ns (BitVec.ofNat 32 r) T ∧
      T.symbols.Perm (s.freqMap.map FreqEntry.sym) ∧ t.nodes = ns ∧
      (∃ m, ns[r]? = some m ∧ m.freq.toNat = (s.freqMap.map FreqEntry.cnt).sum) := by
  obtain ⟨hl1, hl2⟩ := freqMap_length_le hd
  obtain ⟨ns, r, T, h1, h2, h3, h4, h5⟩ := buildTree_ok hne hl2 (fun e he => freqMap_cnt_lt he) hsum
  have hsym : ∀ n ∈ ns, SymOk s.params n.sym := fun n hn => by
    rcases h2.sym_mem hn with h | h
    · rw [h]; exact symOk_zero _
    · obtain ⟨e, he, hes⟩ := List.mem_map.1 h
      rw [← hes]; exact freqMap_symOk hd he
  refine ⟨ns, r, T, _, by simp [buildBody, h1], rfl, h2, h3, h4, ?_, h5⟩
  have hnodes := nodes_deliver s hd.params_legal (ns := ns) (by have := h2.size; omega) hsym
  exact (State.nodes_congr (s := s.deliver .node ns.length (ns.flatMap TreeNode.words)) rfl
    (by simp) fun i => by simp).trans hnodes

theorem buildBody_empty {s : State} (h : s.freqMap = []) : buildBody s = .error .emptyAlphabet := by
  simp [buildBody, h, buildTree_empty]

theorem buildBody_overflow {s : State} (hd : s.DataOk) (h2 : 2 ≤ s.freqMap.length)
    (hsum : 2 ^ 32 ≤ (s.freqMap.map FreqEntry.cnt).sum) :
    buildBody s = .error (.capacityOverflow .freqSum) := by
  simp [buildBody, buildTree_overflow (freqMap_length_le hd).2 (fun e he => freqMap_cnt_lt he) h2
    hsum]

/-- The three cases of BUILD: they exclude one another and leave nothing out. -/
theorem buildBody_cases {s : State} : s.freqMap = [] ∨
    (s.freqMap ≠ [] ∧
      (s.freqMap.length = 1 ∨ (s.freqMap.map FreqEntry.cnt).sum < 2 ^ 32)) ∨
    (2 ≤ s.freqMap.length ∧ 2 ^ 32 ≤ (s.freqMap.map FreqEntry.cnt).sum) := by
  by_cases h : s.freqMap = []
  · exact .inl h
  · have : s.freqMap.length ≠ 0 := fun hh => h (List.length_eq_zero_iff.1 hh)
    by_cases h1 : s.freqMap.length = 1
    · exact .inr (.inl ⟨h, .inl h1⟩)
    · by_cases h2 : (s.freqMap.map FreqEntry.cnt).sum < 2 ^ 32
      · exact .inr (.inl ⟨h, .inr h2⟩)
      · exact .inr (.inr ⟨by omega, by omega⟩)

theorem buildBody_delivers {s t : State} (hd : s.DataOk) (h : buildBody s = .ok t) :
    Delivers .node s t := by
  rcases buildBody_cases (s := s) with h1 | ⟨h1, h2⟩ | ⟨h1, h2⟩
  · rw [buildBody_empty h1] at h; cases h
  · obtain ⟨ns, r, T, u, g1, g2, g3, -⟩ := buildBody_ok hd h1 h2
    rw [g1] at h; cases h
    refine ⟨ns.length, _, _, ?_, node_words_length ns, g2, by simp⟩
    rw [g3.size]
    have := (freqMap_length_le hd).1
    simp only [Space.cap, Params.nodeCap]
    omega
  · rw [buildBody_overflow hd h1 h2] at h; cases h

/-! ### CODES -/

theorem symOk_of_represents {s : State} {T : HTree} {p : Word} (h : Represents s.nodes p T)
    {e : CodeEntry} (he : e ∈ T.table) : SymOk s.params e.sym := by
  have : e.sym ∈ T.symbols := by rw [← T.table_syms]; exact List.mem_map_of_mem he
  obtain ⟨n, hn, hs⟩ := h.sym_mem this
  rw [← hs]
  exact nodes_symOk hn

/-- The CODES body on a tree that fits. -/
theorem codesBody_ok {s : State} (hd : s.DataOk) {T : HTree} (h : s.HasTree T)
    (hh : T.height ≤ s.params.codeMaxLen) (hc : T.leafCount ≤ s.params.alphaCap) :
    codesBody s =
        .ok (s.deliver .code T.table.length (T.table.flatMap (CodeEntry.words s.params))) ∧
      (s.deliver .code T.table.length
        (T.table.flatMap (CodeEntry.words s.params))).codeTable = T.table := by
  refine ⟨by simp [codesBody, codeTableOf_ok h hh hc], ?_⟩
  have := hd.params_legal.2.2.1.2.1
  exact codeTable_deliver s hd.params_legal (by rw [T.table_length]; omega)
    (fun e he => symOk_of_represents h he)
    (fun e he => le_trans (HTree.bits_length_le he) hh)

/-- The code bits of the table, and zeros beyond each code (R46). -/
theorem codesBody_bits {s : State} {tbl : List CodeEntry} {i k : Nat} (hi : i < tbl.length)
    (hk : k < 32 * s.params.codeWords) (hl : (tbl[i]).bits.length ≤ k) :
    (s.deliver .code tbl.length (tbl.flatMap (CodeEntry.words s.params))).codeBit i k = false := by
  rw [codeBit_deliver s hi hk]
  simp [List.getD_eq_getElem?_getD, hl]

theorem codesBody_error {s : State} {e : CmdError}
    (h : codeTableOf s.params s.nodes s.root = .error e) : codesBody s = .error e := by
  simp [codesBody, h]

/-- When the CODES body succeeds there is a tree, and it fits. -/
theorem codesBody_tree {s t : State} (h : codesBody s = .ok t) :
    ∃ T, s.HasTree T ∧ T.height ≤ s.params.codeMaxLen ∧ T.leafCount ≤ s.params.alphaCap := by
  rcases codeTableOf_spec s.params s.nodes s.root with ⟨T, -, h2⟩ | ⟨h1, -⟩ |
    ⟨q, m, path, done, h1, -⟩ | ⟨q, m, path, done, h1, -⟩ | ⟨q, m, path, done, h1, -⟩
  · exact ⟨T, h2⟩
  all_goals rw [codesBody_error h1] at h; cases h

theorem codesBody_delivers {s t : State} (hd : s.DataOk) (h : codesBody s = .ok t) :
    Delivers .code s t := by
  obtain ⟨T, h1, h2, h3⟩ := codesBody_tree h
  rw [(codesBody_ok hd h1 h2 h3).1] at h; cases h
  exact delivers_of_deliver (by rw [T.table_length]; exact h3) (code_words_length _ _)

/-! ### ENCODE -/

theorem encodeBody_ok {s : State} (hd : s.DataOk) (hc : Covers s.codeTable s.text)
    (hl : (codeBits s.codeTable s.text).length ≤ s.params.bitCap) :
    encodeBody s = .ok (s.deliver .bits (codeBits s.codeTable s.text).length
        ((codeBits s.codeTable s.text).map bitWord)) ∧
      (s.deliver .bits (codeBits s.codeTable s.text).length
        ((codeBits s.codeTable s.text).map bitWord)).bitString = codeBits s.codeTable s.text := by
  have := hd.params_legal.2.2.2.2.2.1.2.1
  exact ⟨by simp [encodeBody, encodeFrom_ok hc hl], bitString_deliver s (by omega)⟩

theorem encodeBody_delivers {s t : State} (h : encodeBody s = .ok t) : Delivers .bits s t := by
  rcases encodeFrom_spec s.params.bitCap s.codeTable s.text with ⟨-, h2, h3⟩ |
    ⟨_, _, _, -, -, -, -, h3⟩ | ⟨_, _, _, -, -, -, -, h3⟩
  · simp only [encodeBody, h3] at h
    cases h
    exact delivers_of_deliver h2 (by simp [Space.stride])
  all_goals simp [encodeBody, h3] at h

/-! ### PACK, UNPACK, TOHEX -/

theorem bitString_length_le {s : State} (hd : s.DataOk) :
    s.bitString.length ≤ s.params.bitCap ∧ s.params.bitCap ≤ 2 ^ 28 ∧ s.params.bitCap % 8 = 0 := by
  have := hd.params_legal.2.2.2.2.2.1
  exact ⟨by rw [s.value_lengths.2.2.2.2.1]; exact hd.len_le .bits, this.2⟩

theorem packedBytes_length_le {s : State} (hd : s.DataOk) :
    s.packedBytes.length ≤ s.params.byteCap ∧ 8 * s.params.byteCap = s.params.bitCap ∧
      s.params.bitCap ≤ 2 ^ 28 := by
  have := hd.params_legal.2.2.2.2.2.1
  refine ⟨by rw [s.value_lengths.2.2.2.2.2.1]; exact hd.len_le .bytes, ?_, this.2.1⟩
  simp only [Params.byteCap]; omega

theorem packBody_ok {s : State} (hd : s.DataOk) :
    packBody s = .ok (s.deliver .bytes (packBits s.bitString).length
        ((packBits s.bitString).map (BitVec.setWidth 32))) ∧
      (s.deliver .bytes (packBits s.bitString).length
        ((packBits s.bitString).map (BitVec.setWidth 32))).packedBytes = packBits s.bitString ∧
      (packBits s.bitString).length ≤ s.params.byteCap := by
  have := bitString_length_le hd
  have hl := packBits_length s.bitString
  exact ⟨rfl, packedBytes_deliver s (by omega), by simp only [Params.byteCap]; omega⟩

theorem unpackBody_ok {s : State} (hd : s.DataOk) :
    unpackBody s = .ok (s.deliver .bits (unpackBytes s.packedBytes).length
        ((unpackBytes s.packedBytes).map bitWord)) ∧
      (s.deliver .bits (unpackBytes s.packedBytes).length
        ((unpackBytes s.packedBytes).map bitWord)).bitString = unpackBytes s.packedBytes ∧
      (unpackBytes s.packedBytes).length ≤ s.params.bitCap := by
  have := packedBytes_length_le hd
  have hl := unpackBytes_length s.packedBytes
  exact ⟨rfl, bitString_deliver s (by omega), by omega⟩

theorem toHexBody_ok {s : State} (hd : s.DataOk) :
    toHexBody s = .ok (s.deliver .hex (hexOf s.packedBytes).length
        ((hexOf s.packedBytes).map (BitVec.setWidth 32))) ∧
      (s.deliver .hex (hexOf s.packedBytes).length
        ((hexOf s.packedBytes).map (BitVec.setWidth 32))).hexString = hexOf s.packedBytes ∧
      (hexOf s.packedBytes).length ≤ s.params.hexCap := by
  have := packedBytes_length_le hd
  have hl := hexOf_length s.packedBytes
  exact ⟨rfl, hexString_deliver s (by omega), by simp only [Params.hexCap]; omega⟩

theorem packBody_delivers {s t : State} (hd : s.DataOk) (h : packBody s = .ok t) :
    Delivers .bytes s t := by
  rw [(packBody_ok hd).1] at h; cases h
  exact delivers_of_deliver (packBody_ok hd).2.2 (by simp [Space.stride])

theorem unpackBody_delivers {s t : State} (hd : s.DataOk) (h : unpackBody s = .ok t) :
    Delivers .bits s t := by
  rw [(unpackBody_ok hd).1] at h; cases h
  exact delivers_of_deliver (unpackBody_ok hd).2.2 (by simp [Space.stride])

theorem toHexBody_delivers {s t : State} (hd : s.DataOk) (h : toHexBody s = .ok t) :
    Delivers .hex s t := by
  rw [(toHexBody_ok hd).1] at h; cases h
  exact delivers_of_deliver (toHexBody_ok hd).2.2 (by simp [Space.stride])

/-! ### DECODE -/

theorem decodeBits_ok_props {cap : Nat} {ns : List TreeNode} {root : Word} {bs : List Bool}
    {xs : List Word} (h : decodeBits cap ns root bs = .ok xs) :
    xs.length ≤ cap ∧ ∀ x ∈ xs, ∃ m ∈ ns, m.sym = x := by
  unfold decodeBits at h
  split at h
  · cases h
  · have := decodeFrom_ok_length (by simp) h
    exact ⟨this.1, fun x hx => (this.2 x hx).resolve_left (by simp)⟩

theorem decodeBody_ok {s : State} (hd : s.DataOk) {xs : List Word}
    (h : decodeBits s.params.outCap s.nodes s.root s.bitString = .ok xs) :
    decodeBody s = .ok (s.deliver .out xs.length xs) ∧
      (s.deliver .out xs.length xs).outText = xs ∧ xs.length ≤ s.params.outCap := by
  obtain ⟨h1, h2⟩ := decodeBits_ok_props h
  have := hd.params_legal.2.2.2.2.2.2.2
  refine ⟨by simp [decodeBody, h], outText_deliver s (by omega) fun x hx => ?_, h1⟩
  obtain ⟨m, hm, rfl⟩ := h2 x hx
  exact nodes_symOk hm

theorem decodeBody_delivers {s t : State} (hd : s.DataOk) (h : decodeBody s = .ok t) :
    Delivers .out s t := by
  cases hb : decodeBits s.params.outCap s.nodes s.root s.bitString with
  | error e => simp [decodeBody, hb] at h
  | ok xs =>
    obtain ⟨h1, -, h3⟩ := decodeBody_ok hd hb
    rw [h1] at h; cases h
    exact delivers_of_deliver h3 (by simp [Space.stride])

end Sys2Proof.Machine
end

