-- ==== Sys2Proof/Laws/Exec.lean ====
section
/-! SUPPORT. What executing a command can do, said once: it always answers a next state, it leaves
alone everything but its destinations (R149, R150), and it completes with success or with one error
(R67, R153). -/

namespace Sys2Proof.Machine

open Sys2Proof

/-! ## What a command may touch -/

/-- From `s` to `t` only the flags, ERRCODE, ERRINFO and the destinations `ds` (with ROOT, if the
Tree is among them) may differ. -/
structure Touches (ds : List Space) (s t : State) : Prop where
  control : SameControl s t
  outside : SameOutside ds s t
  root : Space.node ∉ ds → t.root = s.root

theorem SameControl.refl (s : State) : SameControl s s := ⟨rfl, rfl, rfl, rfl, rfl, rfl⟩

theorem SameControl.trans {s t u : State} (h : SameControl s t) (k : SameControl t u) :
    SameControl s u := by
  obtain ⟨h1, h2, h3, h4, h5, h6⟩ := h
  obtain ⟨k1, k2, k3, k4, k5, k6⟩ := k
  exact ⟨k1.trans h1, k2.trans h2, k3.trans h3, k4.trans h4, k5.trans h5, k6.trans h6⟩

theorem Touches.refl (ds : List Space) (s : State) : Touches ds s s :=
  ⟨.refl s, fun _ _ => ⟨rfl, fun _ => rfl⟩, fun _ => rfl⟩

theorem Touches.trans {ds : List Space} {s t u : State} (h : Touches ds s t) (k : Touches ds t u) :
    Touches ds s u :=
  ⟨h.control.trans k.control, fun sp hsp =>
    ⟨(k.outside sp hsp).1.trans (h.outside sp hsp).1, fun a =>
      ((k.outside sp hsp).2 a).trans ((h.outside sp hsp).2 a)⟩,
    fun hn => (k.root hn).trans (h.root hn)⟩

theorem Touches.mono {ds es : List Space} {s t : State} (h : Touches ds s t) (hs : ds ⊆ es) :
    Touches es s t :=
  ⟨h.control, fun sp hsp => h.outside sp fun hm => hsp (hs hm), fun hn => h.root fun hm => hn (hs hm)⟩

theorem touches_complete (s : State) : Touches [] s s.complete :=
  ⟨⟨rfl, rfl, rfl, rfl, rfl, rfl⟩, fun _ _ => ⟨by simp, fun _ => by simp⟩, fun _ => rfl⟩

theorem touches_takeError (s : State) (e : CmdError) : Touches [] s (s.takeError e) :=
  ⟨⟨rfl, rfl, rfl, rfl, rfl, rfl⟩, fun _ _ => ⟨by simp, fun _ => by simp⟩, fun _ => rfl⟩

theorem touches_setStage (s : State) (n : BitVec 4) : Touches [] s (s.setStage n) :=
  ⟨⟨rfl, rfl, rfl, rfl, rfl, rfl⟩, fun _ _ => ⟨by simp, fun _ => by simp⟩, fun _ => rfl⟩

theorem touches_emptyDest (s : State) (sp : Space) : Touches [sp] s (s.emptyDest sp) := by
  refine ⟨⟨by simp, by simp, by simp, by simp, by simp, by simp⟩, fun r hr => ?_, fun hn => ?_⟩
  · have : r ≠ sp := by simpa using hr
    exact ⟨by simp [this], fun _ => by simp⟩
  · have : ¬ sp = .node := fun h => hn (by simp [h])
    simp [this]

theorem touches_voidDest (s : State) (sp : Space) : Touches [sp] s (s.voidDest sp) := by
  refine ⟨⟨by simp, by simp, by simp, by simp, by simp, by simp⟩, fun r hr => ?_, fun hn => ?_⟩
  · have : r ≠ sp := by simpa using hr
    exact ⟨by simp [this], fun _ => State.voidDest_word_other s this _⟩
  · have : ¬ sp = .node := fun h => hn (by simp [h])
    simp [this]

theorem Delivers.touches {dest : Space} {s t : State} (h : Delivers dest s t) :
    Touches [dest] s t := by
  obtain ⟨n, ws, root, -, -, rfl, hroot⟩ := h
  refine ⟨⟨by simp, by simp, by simp, by simp, by simp, by simp⟩, fun r hr => ?_, fun hn => ?_⟩
  · have : r ≠ dest := by simpa using hr
    exact ⟨by simp [this], fun _ => by simp [this]⟩
  · have : dest ≠ .node := fun h => hn (by simp [h])
    simpa using hroot this

/-- In its destination a body writes below the new length only (R149). -/
theorem Delivers.sameAbove {dest : Space} {s t : State} (h : Delivers dest s t) (hd : s.DataOk) :
    SameAbove dest s t := by
  have hcap : dest.cap s.params < 2 ^ 32 := by
    obtain ⟨-, ⟨-, h1⟩, ⟨-, h2, -⟩, -, -, ⟨-, h3, -⟩, ⟨-, h4⟩⟩ := hd.params_legal
    cases dest <;> simp only [Space.cap, Params.nodeCap, Params.byteCap, Params.hexCap] <;> omega
  obtain ⟨n, ws, root, hn, hw, rfl, -⟩ := h
  intro a ha
  simp only [State.setRoot_len, State.deliver_len, if_true] at ha
  rw [ofNat_toNat_of_lt (by omega), ← hw] at ha
  simp [show ¬ a < ws.length by omega]

/-! ## How a command completes -/

/-- Completion: BUSY 0, DONE 1, and either ERR, ERRCODE and ERRINFO as they were or an error
recorded in them (R67). -/
structure Completes (s t : State) : Prop where
  busy : t.status.busy = false
  done : t.status.done = true
  verdict : (t.status.err = s.status.err ∧ t.errCode = s.errCode ∧ t.errInfo = s.errInfo) ∨
    ∃ e : CmdError, t.status.err = true ∧ t.errCode = e.code ∧ t.errInfo = e.info

theorem completes_complete {s u : State} (h1 : u.status.err = s.status.err)
    (h2 : u.errCode = s.errCode) (h3 : u.errInfo = s.errInfo) : Completes s u.complete :=
  ⟨rfl, rfl, .inl ⟨h1, h2, h3⟩⟩

theorem completes_takeError (s u : State) (e : CmdError) : Completes s (u.takeError e) :=
  ⟨rfl, rfl, .inr ⟨e, rfl, rfl, rfl⟩⟩

theorem CmdError.code_pos (e : CmdError) : e.code ≠ 0 ∧ e.code.toNat ≤ 6 := by
  cases e <;> simp [CmdError.code]

/-! ## One command with one destination -/

theorem Delivers.status {dest : Space} {s t : State} (h : Delivers dest s t) :
    t.status = s.status ∧ t.errCode = s.errCode ∧ t.errInfo = s.errInfo := by
  obtain ⟨n, ws, root, -, -, rfl, -⟩ := h
  simp

theorem runBody_ok {dest : Space} {body : State → Except CmdError State} {s t : State}
    (h : body s = .ok t) : s.runBody dest body = t.complete := by simp [State.runBody, h]

theorem runBody_error {dest : Space} {body : State → Except CmdError State} {s : State}
    {e : CmdError} (h : body s = .error e) :
    s.runBody dest body = (s.voidDest dest).takeError e := by simp [State.runBody, h]

/-- Everything that `runBody` can do. -/
theorem runBody_spec {dest : Space} {body : State → Except CmdError State} {s : State}
    (hd : s.DataOk) (hb : ∀ t, body s = .ok t → Delivers dest s t) :
    Touches [dest] s (s.runBody dest body) ∧ Completes s (s.runBody dest body) ∧
      (s.runBody dest body).DataOk ∧ (s.runBody dest body).status.stage = s.status.stage := by
  cases h : body s with
  | ok t =>
    rw [runBody_ok h]
    have hdel := hb t h
    obtain ⟨h1, h2, h3⟩ := hdel.status
    exact ⟨hdel.touches.trans ((touches_complete t).mono (by simp)),
      completes_complete (by rw [h1]) h2 h3, (hdel.dataOk hd).complete, by
        simp [Status.complete, h1]⟩
  | error e =>
    rw [runBody_error h]
    exact ⟨(touches_voidDest s dest).trans ((touches_takeError _ e).mono (by simp)),
      completes_takeError s _ e, (hd.voidDest dest).takeError e, by simp [Status.fail]⟩

/-! ## The stages of COMPRESS -/

theorem CompressStage.delivers {st : CompressStage} {s t : State} (hd : s.DataOk)
    (h : st.body s = .ok t) : Delivers st.dest s t := by
  cases st
  · exact freqBody_delivers hd h
  · exact buildBody_delivers hd h
  · exact codesBody_delivers hd h
  · exact encodeBody_delivers h

theorem emptyLater_spec (later : List CompressStage) {s : State} (hd : s.DataOk) :
    Touches (later.map CompressStage.dest) s (later.foldl (fun u l => u.emptyDest l.dest) s) ∧
      (later.foldl (fun u l => u.emptyDest l.dest) s).DataOk ∧
      (later.foldl (fun u l => u.emptyDest l.dest) s).status = s.status := by
  induction later generalizing s with
  | nil => exact ⟨.refl _ s, hd, rfl⟩
  | cons l later ih =>
    obtain ⟨h1, h2, h3⟩ := ih (hd.emptyDest l.dest)
    exact ⟨((touches_emptyDest s l.dest).mono (by simp)).trans (h1.mono (by simp)), h2,
      h3.trans (by simp)⟩

/-- Everything that running stages can do. -/
theorem runStages_spec (stages : List CompressStage) {s : State} (hd : s.DataOk) :
    Touches (stages.map CompressStage.dest) s (runStages stages s) ∧
      Completes s (runStages stages s) ∧ (runStages stages s).DataOk ∧
      ((runStages stages s).status.stage = s.status.stage ∨
        ∃ st ∈ stages, (runStages stages s).status.stage = st.number) := by
  induction stages generalizing s with
  | nil =>
    exact ⟨touches_complete s, completes_complete rfl rfl rfl, hd.complete, .inl rfl⟩
  | cons st later ih =>
    have hset : Touches ((st :: later).map CompressStage.dest) s (s.setStage st.number) :=
      (touches_setStage s st.number).mono (by simp)
    have hds := hd.setStage st.number
    cases h : st.body (s.setStage st.number) with
    | ok t =>
      have hrun : runStages (st :: later) s = runStages later t := by simp [runStages, h]
      have hdel := CompressStage.delivers hds h
      obtain ⟨g1, g2, g3⟩ := hdel.status
      obtain ⟨h1, h2, h3, h4⟩ := ih (hdel.dataOk hds)
      rw [hrun]
      refine ⟨(hset.trans (hdel.touches.mono (by simp))).trans (h1.mono (by simp)), ?_, h3, ?_⟩
      · refine ⟨h2.busy, h2.done, h2.verdict.imp (fun v => ?_) id⟩
        rw [g1, g2, g3] at v
        exact v
      · right
        rcases h4 with h4 | ⟨st', hm, h4⟩
        · exact ⟨st, by simp, by rw [h4, g1]; rfl⟩
        · exact ⟨st', by simp [hm], h4⟩
    | error e =>
      have hrun : runStages (st :: later) s =
          (later.foldl (fun u l => u.emptyDest l.dest)
            ((s.setStage st.number).voidDest st.dest)).takeError e := by simp [runStages, h]
      obtain ⟨h1, h2, h3⟩ := emptyLater_spec later (hds.voidDest st.dest)
      rw [hrun]
      refine ⟨((hset.trans ((touches_voidDest _ st.dest).mono (by simp))).trans
        (h1.mono (by simp))).trans ((touches_takeError _ e).mono (by simp)),
        completes_takeError s _ e, h2.takeError e, .inr ⟨st, by simp, ?_⟩⟩
      simp [Status.fail, h3]

/-- Running stages one after another, on states that may go on. -/
theorem runStages_ok {st : CompressStage} {later : List CompressStage} {s t : State}
    (h : st.body (s.setStage st.number) = .ok t) : runStages (st :: later) s = runStages later t := by
  simp [runStages, h]

theorem runStages_error {st : CompressStage} {later : List CompressStage} {s : State} {e : CmdError}
    (h : st.body (s.setStage st.number) = .error e) :
    runStages (st :: later) s =
      (later.foldl (fun u l => u.emptyDest l.dest)
        ((s.setStage st.number).voidDest st.dest)).takeError e := by
  simp [runStages, h]

/-! ## CLEAR -/

theorem emptyDests_spec (ds : List Space) {s : State} (hd : s.DataOk) :
    Touches ds s (ds.foldl State.emptyDest s) ∧ (ds.foldl State.emptyDest s).DataOk ∧
      (ds.foldl State.emptyDest s).status = s.status ∧
      (ds.foldl State.emptyDest s).errCode = s.errCode ∧
      (ds.foldl State.emptyDest s).errInfo = s.errInfo ∧
      (ds.foldl State.emptyDest s).mem = s.mem ∧
      (ds.foldl State.emptyDest s).params = s.params := by
  induction ds generalizing s with
  | nil => exact ⟨.refl _ s, hd, rfl, rfl, rfl, rfl, rfl⟩
  | cons d ds ih =>
    obtain ⟨h1, h2, h3, h4, h5, h6, h7⟩ := ih (hd.emptyDest d)
    exact ⟨((touches_emptyDest s d).mono (by simp)).trans (h1.mono (by simp)), h2,
      h3.trans (by simp), h4.trans (by simp), h5.trans (by simp), h6.trans (by simp),
      h7.trans (by simp)⟩

theorem clearAll_spec {s : State} (hd : s.DataOk) :
    Touches (dests .clear) s (clearAll s) ∧ (clearAll s).DataOk ∧
      (clearAll s).status = s.status ∧ (clearAll s).errCode = s.errCode ∧
      (clearAll s).errInfo = s.errInfo := by
  obtain ⟨h1, h2, h3, h4, h5, -⟩ := emptyDests_spec Space.all hd
  exact ⟨h1, h2, h3, h4, h5⟩

/-- CLEAR empties every value by its length (R131). -/
theorem clearAll_len (s : State) (sp : Space) : (clearAll s).len sp = 0 := by
  simp only [clearAll, Space.all, List.foldl, State.emptyDest_len]
  cases sp <;> simp

theorem clearAll_root (s : State) : (clearAll s).root = nilPtr := by
  simp [clearAll, Space.all, List.foldl]

/-- CLEAR changes no element (R131). -/
theorem clearAll_word (s : State) (sp : Space) (a : Nat) : (clearAll s).word sp a = s.word sp a := by
  simp [clearAll, Space.all, List.foldl]

/-! ## Every command -/

/-- Everything that executing a command can do, said once. -/
theorem exec_spec (i : Instr) {s : State} (hd : s.DataOk) :
    ∃ t, exec i s = .next t ∧ Touches (dests i) s t ∧ Completes s t ∧ t.DataOk ∧
      (t.status.stage = s.status.stage ∨
        (i = .compress ∧ 1 ≤ t.status.stage.toNat ∧ t.status.stage.toNat ≤ 4)) := by
  have one {dest : Space} {body : State → Except CmdError State}
      (hb : ∀ t, body s = .ok t → Delivers dest s t) :
      ∃ t, (Host.Outcome.next (s.runBody dest body) : Host.Outcome State Fault Refusal) = .next t ∧
        Touches [dest] s t ∧ Completes s t ∧ t.DataOk ∧ (t.status.stage = s.status.stage ∨
        (i = .compress ∧ 1 ≤ t.status.stage.toNat ∧ t.status.stage.toNat ≤ 4)) := by
    obtain ⟨h1, h2, h3, h4⟩ := runBody_spec hd hb
    exact ⟨_, rfl, h1, h2, h3, .inl h4⟩
  cases i
  case nop =>
    exact ⟨_, rfl, touches_complete s, completes_complete rfl rfl rfl, hd.complete, .inl rfl⟩
  case freq => exact one fun t => freqBody_delivers hd
  case build => exact one fun t => buildBody_delivers hd
  case codes => exact one fun t => codesBody_delivers hd
  case encode => exact one fun t => encodeBody_delivers
  case pack => exact one fun t => packBody_delivers hd
  case unpack => exact one fun t => unpackBody_delivers hd
  case toHex => exact one fun t => toHexBody_delivers hd
  case decode => exact one fun t => decodeBody_delivers hd
  case compress =>
    obtain ⟨h1, h2, h3, h4⟩ := runStages_spec CompressStage.order hd
    refine ⟨runStages CompressStage.order s, rfl, h1, h2, h3, h4.imp id ?_⟩
    rintro ⟨st, -, h⟩
    rw [h]
    cases st <;> simp [CompressStage.number]
  case clear =>
    obtain ⟨h1, h2, h3, h4, h5⟩ := clearAll_spec hd
    exact ⟨(clearAll s).complete, rfl, h1.trans ((touches_complete _).mono (by simp)),
      completes_complete (by rw [h3]) h4 h5, h2.complete, .inl (by simp [Status.complete, h3])⟩

end Sys2Proof.Machine
end

