-- ==== Sys2Proof/Laws/Port.lean ====
section
/-! SUPPORT. The host port: addresses, which register or word an address names, and when a transaction
is refused (R40, R52, R54). -/

namespace Sys2Proof.Machine

open Sys2Proof

/-! ## Addresses -/

@[simp] theorem spaceNumber_addressOf (n i : Nat) : spaceNumber (addressOf n i) = n % 16 := by
  have : (addressOf n i).extractLsb' 28 4 = BitVec.ofNat 4 n := by
    apply BitVec.eq_of_getLsbD_eq
    intro k hk
    simp only [addressOf, BitVec.getLsbD_extractLsb', BitVec.getLsbD_append]
    simp [hk, show ¬ (28 + k < 28) by omega]
  rw [spaceNumber, this]; simp

@[simp] theorem wordIndex_addressOf (n i : Nat) : wordIndex (addressOf n i) = i % 2 ^ 28 := by
  have : (addressOf n i).extractLsb' 0 28 = BitVec.ofNat 28 i := by
    apply BitVec.eq_of_getLsbD_eq
    intro k hk
    simp only [addressOf, BitVec.getLsbD_extractLsb', BitVec.getLsbD_append]
    simp [hk]
  rw [wordIndex, this]; simp

theorem spaceNumber_lt (a : Word) : spaceNumber a < 16 := (a.extractLsb' 28 4).isLt

theorem wordIndex_lt (a : Word) : wordIndex a < 2 ^ 28 := (a.extractLsb' 0 28).isLt

/-- An address is its space number and its index. -/
theorem addressOf_self (a : Word) : addressOf (spaceNumber a) (wordIndex a) = a := by
  apply BitVec.eq_of_getLsbD_eq
  intro k hk
  simp only [addressOf, spaceNumber, wordIndex, BitVec.ofNat_toNat, BitVec.setWidth_eq,
    BitVec.getLsbD_append, BitVec.getLsbD_extractLsb']
  by_cases h : k < 28
  · simp [h]
  · simp [h, show k - 28 < 4 by omega, show 28 + (k - 28) = k by omega]

theorem eq_addressOf_iff {a : Word} {n i : Nat} (hn : n < 16) (hi : i < 2 ^ 28) :
    a = addressOf n i ↔ spaceNumber a = n ∧ wordIndex a = i := by
  constructor
  · rintro rfl
    exact ⟨by rw [spaceNumber_addressOf, Nat.mod_eq_of_lt hn],
      by rw [wordIndex_addressOf, Nat.mod_eq_of_lt hi]⟩
  · rintro ⟨rfl, rfl⟩
    exact (addressOf_self a).symm

@[simp] theorem spaceOf_number (sp : Space) : spaceOf sp.number = some sp := by cases sp <;> rfl

theorem spaceOf_eq_some {n : Nat} {sp : Space} (h : spaceOf n = some sp) : n = sp.number := by
  simp only [spaceOf] at h
  have := List.find?_some h
  simpa using (beq_iff_eq.1 this).symm

theorem spaceOf_eq_none {n : Nat} (h0 : n ≠ 0) (h : spaceOf n = none) (hn : n < 16) : 9 ≤ n := by
  by_contra hlt
  have : n = 1 ∨ n = 2 ∨ n = 3 ∨ n = 4 ∨ n = 5 ∨ n = 6 ∨ n = 7 ∨ n = 8 := by omega
  rcases this with rfl | rfl | rfl | rfl | rfl | rfl | rfl | rfl <;> simp [spaceOf, Space.all, Space.number] at h

theorem Space.number_pos (sp : Space) : 1 ≤ sp.number ∧ sp.number ≤ 8 := by
  cases sp <;> simp [Space.number]

/-- Every space fits its 2^28 indices (R40). -/
theorem Space.size_le {p : Params} (h : p.Legal) (sp : Space) : sp.size p ≤ 2 ^ 28 := by
  obtain ⟨-, ⟨-, h1⟩, ⟨-, h2, -⟩, -, h5, ⟨-, h3, -⟩, ⟨-, h4⟩⟩ := h
  cases sp <;>
    simp only [Space.size, Space.cap, Space.stride, Params.nodeCap, Params.byteCap,
      Params.hexCap] <;> omega

/-! ## Registers -/

theorem regAt_none (i : Nat) : regAt i = none ↔ (i = 0x0F ∨ 0x16 ≤ i) := by
  by_cases h : 0x16 ≤ i
  · have : regAt i = none := by
      obtain ⟨k, rfl⟩ := Nat.exists_eq_add_of_le h
      rw [Nat.add_comm]; rfl
    simp [this, h]
  · have h' : i < 22 := by omega
    clear h
    revert i; decide

/-- A read of space REG. -/
theorem hostRead_reg (s : State) {i : Nat} (hi : i < 2 ^ 28) : s.hostRead (addressOf 0 i) =
    (regAt i).bind fun r =>
      if s.status.busy && !r.readableBusy then none else some (s.readReg r) := by
  simp only [State.hostRead, spaceNumber_addressOf, wordIndex_addressOf, Nat.mod_eq_of_lt hi]
  cases regAt i <;> simp

/-- A write of space REG. -/
theorem hostWrite_reg (s : State) {i : Nat} (hi : i < 2 ^ 28) (v : Word) :
    s.hostWrite (addressOf 0 i) v = (regAt i).bind fun r => s.writeReg v r := by
  simp only [State.hostWrite, spaceNumber_addressOf, wordIndex_addressOf, Nat.mod_eq_of_lt hi]
  cases regAt i <;> simp

/-- A read of a buffer word. -/
theorem hostRead_word (s : State) (sp : Space) {i : Nat} (hi : i < 2 ^ 28) :
    s.hostRead (addressOf sp.number i) =
      if s.status.busy then none
      else if i < sp.size s.params then some (s.word sp i) else none := by
  have h1 : sp.number % 16 = sp.number := by cases sp <;> rfl
  have h0 : ¬ sp.number = 0 := by cases sp <;> simp [Space.number]
  simp only [State.hostRead, spaceNumber_addressOf, wordIndex_addressOf, Nat.mod_eq_of_lt hi, h1,
    spaceOf_number, if_neg h0]

/-- A write of a buffer word. -/
theorem hostWrite_word (s : State) (sp : Space) {i : Nat} (hi : i < 2 ^ 28) (v : Word) :
    s.hostWrite (addressOf sp.number i) v =
      if s.status.busy || !sp.hostWritable then none
      else if i < sp.size s.params && !codeLenTooLong s.params sp i v then some (s.putWord sp i v)
      else none := by
  have h1 : sp.number % 16 = sp.number := by cases sp <;> rfl
  have h0 : ¬ sp.number = 0 := by cases sp <;> simp [Space.number]
  simp only [State.hostWrite, spaceNumber_addressOf, wordIndex_addressOf, Nat.mod_eq_of_lt hi, h1,
    spaceOf_number, if_neg h0]

/-- Everything that a host write the port takes can do. -/
theorem hostWrite_spec {s t : State} {a v : Word} (h : s.hostWrite a v = some t) :
    (a = addressOf 0 0x01 ∧ s.status.busy = false ∧ t = s.accept v) ∨
      (a = addressOf 0 0x02 ∧ t = { s with status := s.status.hostWrite v }) ∨
      (a = addressOf 0 0x05 ∧ t = { s with ctrl := Ctrl.ofWord v }) ∨
      (a = addressOf 0 0x09 ∧ s.status.busy = false ∧ t = s.setRoot v) ∨
      (∃ sp, spaceNumber a = 0 ∧ regAt (wordIndex a) = some (.len sp) ∧ s.status.busy = false ∧
        sp.hostWritable = true ∧ v.toNat ≤ sp.cap s.params ∧ t = s.setLen sp v) ∨
      (∃ sp, spaceNumber a = sp.number ∧ s.status.busy = false ∧ sp.hostWritable = true ∧
        wordIndex a < sp.size s.params ∧ codeLenTooLong s.params sp (wordIndex a) v = false ∧
        t = s.putWord sp (wordIndex a) v) := by
  have hreg {i : Nat} {r : Reg} (h0 : spaceNumber a = 0) (hi : i < 22)
      (hr : regAt (wordIndex a) = some r) (hinj : ∀ k, k < 22 → regAt k = some r → k = i) :
      a = addressOf 0 i := by
    refine (eq_addressOf_iff (by omega) (by omega)).2 ⟨h0, hinj _ ?_ hr⟩
    by_contra hk
    rw [(regAt_none _).2 (.inr (by omega))] at hr
    cases hr
  simp only [State.hostWrite] at h
  split at h
  · rename_i h0
    split at h
    · cases h
    · rename_i r hr
      cases r with
      | root =>
        simp only [State.writeReg] at h
        split at h
        · cases h
        · rename_i hb
          cases h
          exact .inr (.inr (.inr (.inl ⟨hreg h0 (by omega) hr (by decide), by simpa using hb, rfl⟩)))
      | len sp =>
        simp only [State.writeReg] at h
        split at h
        · cases h
        · rename_i hb
          cases h
          simp only [Bool.or_eq_true, not_or, Bool.not_eq_true, Bool.not_eq_false',
            decide_eq_false_iff_not, not_lt] at hb
          exact .inr (.inr (.inr (.inr (.inl ⟨sp, h0, hr, hb.1.1, hb.1.2, hb.2, rfl⟩))))
      | ctl r =>
        cases r <;> simp only [State.writeReg] at h <;> try cases h
        · split at h
          · cases h
          · rename_i hb
            cases h
            exact .inl ⟨hreg h0 (by omega) hr (by decide), by simpa using hb, rfl⟩
        · exact .inr (.inl ⟨hreg h0 (by omega) hr (by decide), rfl⟩)
        · exact .inr (.inr (.inl ⟨hreg h0 (by omega) hr (by decide), rfl⟩))
  · split at h
    · cases h
    · rename_i sp hsp
      split at h
      · cases h
      · rename_i hb
        split at h
        · rename_i hi
          cases h
          simp only [Bool.or_eq_true, not_or, Bool.not_eq_true, Bool.not_eq_false'] at hb
          simp only [Bool.and_eq_true, decide_eq_true_eq, Bool.not_eq_true'] at hi
          exact .inr (.inr (.inr (.inr (.inr ⟨sp, spaceOf_eq_some hsp, hb.1, hb.2, hi.1, hi.2,
            rfl⟩))))
        · cases h

end Sys2Proof.Machine
end

