-- ==== Sys2Proof/Laws/Step.lean ====
section
/-! SUPPORT. Command words, acceptance, and the step: what each event can do to the control registers,
and that every event keeps the invariant. -/

namespace Sys2Proof.Machine

open Sys2Proof

/-! ## Command words (R60 to R65) -/

theorem word_of_fields (w : Word) : w = (fieldsOf w).rsvd ++ (fieldsOf w).opcode := by
  apply BitVec.eq_of_getLsbD_eq
  intro k hk
  simp only [fieldsOf, BitVec.getLsbD_append, BitVec.getLsbD_extractLsb']
  by_cases h : k < 4
  · simp [h]
  · simp [h, show k - 4 < 28 by omega, show 4 + (k - 4) = k by omega]

theorem fields_toNat (w : Word) :
    (fieldsOf w).rsvd.toNat = w.toNat / 16 ∧ (fieldsOf w).opcode.toNat = w.toNat % 16 := by
  have := w.isLt
  constructor
  · simp only [fieldsOf, BitVec.extractLsb'_toNat, Nat.shiftRight_eq_div_pow]; omega
  · simp only [fieldsOf, BitVec.extractLsb'_toNat, Nat.shiftRight_eq_div_pow]; omega

theorem rsvd_eq_zero (w : Word) : (fieldsOf w).rsvd = 0 ↔ w.toNat < 16 := by
  rw [← BitVec.toNat_inj, (fields_toNat w).1]
  simp

theorem lookupOpcode_spec (op : BitVec 4) :
    (op.toNat ≤ 0xA ∧ ∃ i, lookupOpcode op = some i ∧ opcodeOf i = op) ∨
      (0xA < op.toNat ∧ lookupOpcode op = none) := by
  revert op; decide

theorem encode_toNat (i : Instr) : (encode i).toNat = (opcodeOf i).toNat := by cases i <;> rfl

theorem decode_encode (i : Instr) : decode (encode i) = .ok i := by cases i <;> rfl

/-- What a word decodes to, by its value. -/
theorem decode_spec (w : Word) :
    (w.toNat ≤ 0xA ∧ ∃ i, decode w = .ok i ∧ w = encode i) ∨
      (0xA < w.toNat ∧ w.toNat < 0x10 ∧ decode w = .error .reservedOpcode) ∨
      (0x10 ≤ w.toNat ∧ decode w = .error .reservedBits) := by
  by_cases h : w.toNat < 16
  · have hop := (fields_toNat w).2
    rw [Nat.mod_eq_of_lt h] at hop
    have hdec : decode w = match lookupOpcode (fieldsOf w).opcode with
        | some i => .ok i
        | none => .error .reservedOpcode := by
      unfold decode
      exact if_pos ((rsvd_eq_zero w).2 h)
    rcases lookupOpcode_spec (fieldsOf w).opcode with ⟨h1, i, h2, h3⟩ | ⟨h1, h2⟩
    · refine .inl ⟨by omega, i, by rw [hdec, h2], ?_⟩
      apply BitVec.eq_of_toNat_eq
      rw [encode_toNat, h3, hop]
    · exact .inr (.inl ⟨by omega, h, by rw [hdec, h2]⟩)
  · refine .inr (.inr ⟨by omega, ?_⟩)
    have : ¬ (fieldsOf w).rsvd = 0 := fun hh => h ((rsvd_eq_zero w).1 hh)
    simp only [decode, this, if_false]

theorem decode_eq_ok {w : Word} {i : Instr} : decode w = .ok i ↔ w = encode i := by
  constructor
  · intro h
    rcases decode_spec w with ⟨-, j, h1, h2⟩ | ⟨-, -, h1⟩ | ⟨-, h1⟩
    · rw [h] at h1; cases h1; exact h2
    · rw [h] at h1; cases h1
    · rw [h] at h1; cases h1
  · rintro rfl; exact decode_encode i

theorem encode_le (i : Instr) : (encode i).toNat ≤ 0xA := by cases i <;> decide

theorem encode_inj {i j : Instr} (h : encode i = encode j) : i = j := by
  have := decode_encode i
  rw [h, decode_encode] at this
  exact (Except.ok.inj this).symm

/-! ## Acceptance (R66) -/

theorem accept_encode (s : State) (i : Instr) :
    s.accept (encode i) =
      { s with cmd := encode i, errCode := 0, errInfo := 0,
               status := { (s.status.accept (encode i)) with busy := true } } := by
  simp only [State.accept, decode_encode]

theorem accept_illegal (s : State) {w : Word} (h : 0xA < w.toNat) :
    s.accept w = State.takeError
      { s with cmd := w, status := s.status.accept w, errCode := 0, errInfo := 0 }
      (.illegalCommand w) := by
  rcases decode_spec w with ⟨h1, -⟩ | ⟨-, -, h1⟩ | ⟨-, h1⟩
  · omega
  · simp only [State.accept, h1]
  · simp only [State.accept, h1]

/-- Acceptance, for a legal and for an illegal word. -/
theorem accept_spec (s : State) (w : Word) :
    (∃ i, w = encode i ∧ s.accept w =
      { s with cmd := encode i, errCode := 0, errInfo := 0,
               status := { (s.status.accept (encode i)) with busy := true } }) ∨
      (0xA < w.toNat ∧ s.accept w = State.takeError
        { s with cmd := w, status := s.status.accept w, errCode := 0, errInfo := 0 }
        (.illegalCommand w)) := by
  rcases decode_spec w with ⟨-, i, -, rfl⟩ | ⟨h, -, -⟩ | ⟨h, -⟩
  · exact .inl ⟨i, rfl, accept_encode s i⟩
  · exact .inr ⟨h, accept_illegal s h⟩
  · exact .inr ⟨by omega, accept_illegal s (by omega)⟩

theorem firstStage_encode (i : Instr) :
    firstStage (encode i) = if i = .compress then 0x1 else opcodeOf i := by cases i <;> rfl

theorem fieldsOf_encode (i : Instr) : (fieldsOf (encode i)).opcode = opcodeOf i := by
  cases i <;> rfl

theorem stage_accept (f : Status) (i : Instr) :
    if encode i = encode .compress then
      1 ≤ (f.accept (encode i)).stage.toNat ∧ (f.accept (encode i)).stage.toNat ≤ 4
    else (f.accept (encode i)).stage = (f.accept (encode i)).op := by
  simp only [Status.accept]
  cases i <;> decide

/-! ## The invariant under each event -/

/-- The invariant depends on neither the inbox nor the response. -/
theorem State.Inv.congr_host {s : State} (h : s.Inv) (ib : List PortEvent) (r : PortResponse) :
    State.Inv { s with inbox := ib, resp := r } :=
  { params_legal := h.params_legal, mem_wf := h.mem_wf,
    len_le := fun sp => by have := h.len_le sp; cases sp <;> exact this,
    op_eq := h.op_eq, stage_ok := h.stage_ok, err_iff := h.err_iff, code_le := h.code_le,
    info_zero := h.info_zero, busy_legal := h.busy_legal, busy_clear := h.busy_clear }

/-- A change of the data alone that keeps the data invariant keeps the invariant. -/
theorem State.Inv.congr_data {s t : State} (h : s.Inv) (hd : t.DataOk) (h1 : t.cmd = s.cmd)
    (h2 : t.status = s.status) (h3 : t.errCode = s.errCode) (h4 : t.errInfo = s.errInfo) :
    t.Inv :=
  { toDataOk := hd
    op_eq := by rw [h1, h2]; exact h.op_eq
    stage_ok := by rw [h1, h2]; exact h.stage_ok
    err_iff := by rw [h2, h3]; exact h.err_iff
    code_le := by rw [h3]; exact h.code_le
    info_zero := by rw [h3, h4]; exact h.info_zero
    busy_legal := by rw [h1, h2]; exact h.busy_legal
    busy_clear := by rw [h2]; exact h.busy_clear }

theorem reset_dataOk : State.reset.DataOk :=
  ⟨by decide, reset_mem_wf, fun sp => by cases sp <;> exact Nat.zero_le _⟩

theorem reset_inv : State.reset.Inv :=
  { toDataOk := reset_dataOk
    op_eq := by decide
    stage_ok := by decide
    err_iff := by decide
    code_le := by decide
    info_zero := by decide
    busy_legal := by intro h; cases h
    busy_clear := by intro h; cases h }

/-- Acceptance while idle keeps the invariant. -/
theorem State.Inv.accept {s : State} (h : s.Inv) (_hb : s.status.busy = false) (w : Word) :
    (s.accept w).Inv := by
  rcases accept_spec s w with ⟨i, rfl, he⟩ | ⟨hw, he⟩
  · have hd := h.toDataOk.accept (encode i)
    rw [he] at hd ⊢
    exact
      { toDataOk := hd
        op_eq := rfl
        stage_ok := stage_accept s.status i
        err_iff := by simp [Status.accept]
        code_le := Nat.zero_le _
        info_zero := fun _ => rfl
        busy_legal := fun _ => ⟨i, rfl⟩
        busy_clear := fun _ => ⟨rfl, rfl⟩ }
  · have hd := h.toDataOk.accept w
    rw [he] at hd ⊢
    refine
      { toDataOk := hd
        op_eq := rfl
        stage_ok := ?_
        err_iff := by simp [Status.fail, CmdError.code]
        code_le := by simp [CmdError.code]
        info_zero := by simp [CmdError.code]
        busy_legal := by simp [Status.fail]
        busy_clear := by simp [Status.fail] }
    have hne : ¬ w = encode .compress := by
      rintro rfl
      exact absurd (encode_le .compress) (by omega)
    simp [hne, Status.fail, Status.accept, firstStage]

theorem accept_accepted {s : State} (h : s.Inv) (hb : s.status.busy = false) (i : Instr) :
    (s.accept (encode i)).Accepted i := by
  refine ⟨h.accept hb _, ?_, by simp⟩
  rw [accept_encode]

/-! ## The engine's step -/

theorem State.Accepted.clear {s : State} {i : Instr} (h : s.Accepted i) :
    s.status.err = false ∧ s.status.done = false ∧ s.errCode = 0 ∧ s.errInfo = 0 := by
  obtain ⟨h1, h2⟩ := h.inv.busy_clear h.busy
  have h3 : s.errCode = 0 := by
    by_contra hne
    rw [h.inv.err_iff.2 hne] at h2; cases h2
  exact ⟨h2, h1, h3, h.inv.info_zero h3⟩

theorem State.Accepted.op {s : State} {i : Instr} (h : s.Accepted i) : s.status.op = opcodeOf i := by
  rw [h.inv.op_eq, h.cmd_eq, fieldsOf_encode]

/-- STAGE at and during a command: OP, or one of the four stages for COMPRESS (R23). -/
theorem State.Accepted.stage {s : State} {i : Instr} (h : s.Accepted i) (hi : i ≠ .compress) :
    s.status.stage = opcodeOf i := by
  have := h.inv.stage_ok
  rw [h.cmd_eq, if_neg (fun he => hi (encode_inj he))] at this
  rw [this, h.op]

/-- Executing an accepted command: it answers a next state, which is well, idle, and has touched its
destinations alone. -/
theorem exec_accepted {i : Instr} {s : State} (h : s.Accepted i) :
    ∃ t, exec i s = .next t ∧ t.Inv ∧ Touches (dests i) s t ∧ t.status.busy = false ∧
      t.status.done = true ∧ (i ≠ .compress → t.status.stage = opcodeOf i) ∧
      (Succeeded t ∨ ∃ e : CmdError, FailedAs e.code e.info t) := by
  obtain ⟨t, h1, h2, h3, h4, h5⟩ := exec_spec i h.inv.toDataOk
  obtain ⟨c1, c2, c3, c4⟩ := h.clear
  have hcmd : t.cmd = encode i := h2.control.2.1.trans h.cmd_eq
  refine ⟨t, h1, ?_, h2, h3.busy, h3.done, ?_, ?_⟩
  · refine
      { toDataOk := h4
        op_eq := by rw [h2.control.2.2.2.1, h.op, hcmd, fieldsOf_encode]
        stage_ok := ?_
        err_iff := ?_
        code_le := ?_
        info_zero := ?_
        busy_legal := by rw [h3.busy]; intro hh; cases hh
        busy_clear := by rw [h3.busy]; intro hh; cases hh }
    · rcases h5 with h5 | ⟨rfl, h5⟩
      · rw [hcmd, h5, h2.control.2.2.2.1, ← h.cmd_eq]; exact h.inv.stage_ok
      · rw [hcmd, if_pos rfl]; exact h5
    all_goals rcases h3.verdict with ⟨v1, v2, v3⟩ | ⟨e, v1, v2, v3⟩
    · simp [v1, v2, c1, c3]
    · rw [v1, v2]; exact ⟨fun _ => e.code_pos.1, fun _ => rfl⟩
    · simp [v2, c3]
    · rw [v2]; exact e.code_pos.2
    · simp [v3, c4]
    · intro hz; exact absurd (v2 ▸ hz) e.code_pos.1
  · intro hi
    rcases h5 with h5 | ⟨rfl, -⟩
    · rw [h5, h.stage hi]
    · exact absurd rfl hi
  · rcases h3.verdict with ⟨v1, v2, v3⟩ | ⟨e, v1, v2, v3⟩
    · exact .inl ⟨h3.busy, h3.done, v1.trans c1, v2.trans c3, v3.trans c4⟩
    · exact .inr ⟨e, h3.busy, h3.done, v1, v2, v3⟩

/-- The command that a busy machine is running. -/
theorem State.Inv.accepted {s : State} (h : s.Inv) (hb : s.status.busy = true) :
    ∃ i, s.Accepted i := by
  obtain ⟨i, hi⟩ := h.busy_legal hb
  exact ⟨i, h, hb, hi⟩

theorem engineStep_idle {s : State} (hb : s.status.busy = false) : engineStep s = .next s := by
  simp [engineStep, hb]

theorem engineStep_accepted {s : State} {i : Instr} (hb : s.status.busy = true)
    (hc : decode s.cmd = .ok i) : engineStep s = exec i s := by
  simp [engineStep, hb, hc]

/-- The engine's step keeps the invariant and never stops. -/
theorem engineStep_inv {s : State} (h : s.Inv) : ∃ t, engineStep s = .next t ∧ t.Inv := by
  cases hb : s.status.busy with
  | false => exact ⟨s, engineStep_idle hb, h⟩
  | true =>
    obtain ⟨i, hi⟩ := h.accepted hb
    obtain ⟨t, h1, h2, -⟩ := exec_accepted hi
    exact ⟨t, by rw [engineStep_accepted hb (by rw [hi.cmd_eq, decode_encode]), h1], h2⟩

/-! ## The other events -/

theorem codeLenTooLong_layout {p : Params} {sp : Space} {i : Nat} {v : Word} :
    codeLenTooLong p sp i v = false ↔
      (sp = .code → i % p.codeStride = 1 → v.toNat ≤ p.codeMaxLen) := by
  by_cases h1 : sp = .code <;> by_cases h2 : i % p.codeStride = 1 <;> simp [codeLenTooLong, h1, h2]

/-- A host write the port takes keeps the invariant. -/
theorem State.Inv.hostWrite {s t : State} {a v : Word} (h : s.Inv) (hw : s.hostWrite a v = some t) :
    t.Inv := by
  rcases hostWrite_spec hw with ⟨-, hb, rfl⟩ | ⟨-, rfl⟩ | ⟨-, rfl⟩ | ⟨-, -, rfl⟩ |
    ⟨sp, -, -, -, -, hv, rfl⟩ | ⟨sp, -, -, -, hi, -, rfl⟩
  · exact h.accept hb v
  · have hs : (s.status.hostWrite v).busy = s.status.busy ∧ (s.status.hostWrite v).err = s.status.err ∧
        (s.status.hostWrite v).op = s.status.op ∧ (s.status.hostWrite v).stage = s.status.stage ∧
        (s.status.done = false → (s.status.hostWrite v).done = false) := by
      unfold Status.hostWrite; split <;> simp
    obtain ⟨s1, s2, s3, s4, s5⟩ := hs
    exact
      { toDataOk := h.toDataOk.congr rfl rfl fun r => by cases r <;> rfl
        op_eq := by rw [s3]; exact h.op_eq
        stage_ok := by rw [s3, s4]; exact h.stage_ok
        err_iff := by rw [s2]; exact h.err_iff
        code_le := h.code_le
        info_zero := h.info_zero
        busy_legal := by rw [s1]; exact h.busy_legal
        busy_clear := by
          rw [s1, s2]
          intro hb
          exact ⟨s5 (h.busy_clear hb).1, (h.busy_clear hb).2⟩ }
  · exact h.congr_data (h.toDataOk.congr rfl rfl fun r => by cases r <;> rfl) rfl rfl rfl rfl
  · exact h.congr_data (h.toDataOk.setRoot v) rfl rfl rfl rfl
  · refine h.congr_data ⟨by simpa using h.params_legal, by simpa using h.mem_wf, fun r => ?_⟩
      (by simp) (by simp) (by simp) (by simp)
    rw [State.setLen_len, State.setLen_params]
    split
    · rename_i hr; subst hr; exact hv
    · exact h.len_le r
  · exact h.congr_data ⟨by simpa using h.params_legal, by
      simpa using State.putWord_wf h.params_legal h.mem_wf hi v, fun r => by
      simpa using h.len_le r⟩ (by simp) (by simp) (by simp) (by simp)

/-- The words after the reset input: every one is unspecified again (R170). -/
theorem State.rst_word (s : State) (sp : Space) (a : Nat) :
    s.rst.word sp a =
      sp.layout s.params a (Config.freeWord sp.number ((s.mem.get sp).draw + 1) a) := by
  simp [State.word, State.rst, Buf.find, Buf.forget]

theorem State.Inv.rst {s : State} (h : s.Inv) : s.rst.Inv :=
  { params_legal := h.params_legal
    mem_wf := Memory.wf_forgetAll _ _
    len_le := fun sp => by cases sp <;> exact Nat.zero_le _
    op_eq := reset_inv.op_eq
    stage_ok := reset_inv.stage_ok
    err_iff := reset_inv.err_iff
    code_le := reset_inv.code_le
    info_zero := reset_inv.info_zero
    busy_legal := by intro hh; cases hh
    busy_clear := by intro hh; cases hh }

/-- What a `progress` event can do: nothing, or move STAGE of a running COMPRESS forward by one. -/
theorem compressProgress_spec (s : State) : compressProgress s = s ∨
    (compressProgress s = s.setStage (s.status.stage + 1) ∧ s.status.busy = true ∧
      s.cmd = encode .compress ∧ s.status.stage.toNat < 4) := by
  unfold compressProgress
  split
  · rename_i h
    simp only [Bool.and_eq_true, beq_iff_eq, decide_eq_true_eq] at h
    split
    · exact .inr ⟨rfl, h.1.1, h.1.2, h.2⟩
    · exact .inl rfl
  · exact .inl rfl

theorem State.Inv.progress {s : State} (h : s.Inv) : (compressProgress s).Inv := by
  rcases compressProgress_spec s with he | ⟨he, hb, hc, hlt⟩
  · rw [he]; exact h
  · rw [he]
    have hst := h.stage_ok
    rw [if_pos hc] at hst
    have hadd : (s.status.stage + 1).toNat = s.status.stage.toNat + 1 := by
      rw [BitVec.toNat_add]; simp; omega
    exact
      { toDataOk := h.toDataOk.setStage _
        op_eq := h.op_eq
        stage_ok := by
          rw [State.setStage_cmd, if_pos hc, State.setStage_status]
          simp only [hadd]; omega
        err_iff := h.err_iff
        code_le := h.code_le
        info_zero := h.info_zero
        busy_legal := h.busy_legal
        busy_clear := h.busy_clear }

/-- Every event keeps the invariant and has a next state. -/
theorem takeEvent_inv {s : State} (h : s.Inv) (e : PortEvent) :
    ∃ t, takeEvent e s = .next t ∧ t.Inv := by
  cases e with
  | read a =>
    refine ⟨_, rfl, ?_⟩
    unfold readTransaction
    split
    · exact h.congr_host s.inbox _
    · exact h.congr_host s.inbox _
  | write a v =>
    refine ⟨_, rfl, ?_⟩
    unfold writeTransaction
    split
    · rename_i t ht
      exact (h.hostWrite ht).congr_host t.inbox _
    · exact h.congr_host s.inbox _
  | engine => exact engineStep_inv h
  | progress => exact ⟨_, rfl, h.progress⟩
  | rst => exact ⟨_, rfl, h.rst⟩

/-- A step from a state that meets the invariant has a next state, which meets it too. -/
theorem step_inv {s : State} (h : s.Inv) : ∃ t, step s = .next t ∧ t.Inv := by
  unfold step
  split
  · exact engineStep_inv h
  · rename_i e rest _
    exact takeEvent_inv (h.congr_host rest s.resp) e

/-! ## Transactions do not look at the inbox -/

theorem hostRead_inbox (s : State) (ib : List PortEvent) (a : Word) :
    State.hostRead { s with inbox := ib } a = s.hostRead a := by
  unfold State.hostRead
  have : ∀ r, State.readReg { s with inbox := ib } r = s.readReg r := by
    intro r; cases r with
    | ctl r => cases r <;> rfl
    | len sp => cases sp <;> rfl
    | root => rfl
  simp only [this]
  rfl

theorem accept_inbox (s : State) (ib : List PortEvent) (w : Word) :
    State.accept { s with inbox := ib } w = { s.accept w with inbox := ib } := by
  unfold State.accept
  cases decode w <;> rfl

theorem writeReg_inbox (s : State) (ib : List PortEvent) (v : Word) (r : Reg) :
    State.writeReg { s with inbox := ib } v r =
      (s.writeReg v r).map fun t => { t with inbox := ib } := by
  cases r with
  | ctl r =>
    cases r <;> simp only [State.writeReg, accept_inbox] <;> try rfl
    split <;> rfl
  | len sp => 
    simp only [State.writeReg]
    split
    · rfl
    · cases sp <;> rfl
  | root => simp only [State.writeReg]; split <;> rfl

theorem hostWrite_inbox (s : State) (ib : List PortEvent) (a v : Word) :
    State.hostWrite { s with inbox := ib } a v =
      (s.hostWrite a v).map fun t => { t with inbox := ib } := by
  unfold State.hostWrite
  split
  · cases regAt (wordIndex a) with
    | none => rfl
    | some r => exact writeReg_inbox s ib v r
  · cases spaceOf (spaceNumber a) with
    | none => rfl
    | some sp =>
      dsimp only
      split
      · rfl
      · split <;> rfl

/-! ## Everything a step can do -/

/-- The engine's step comes next: the inbox is empty or says so. -/
def EngineIsNext (s : State) : Prop := s.inbox = [] ∨ ∃ rest, s.inbox = .engine :: rest

/-- Everything a step that has a next state can do, said once. -/
theorem step_cases {s t : State} (h : step s = .next t) :
    (EngineIsNext s ∧ ((s.status.busy = false ∧ t = { s with inbox := s.inbox.tail }) ∨
        (s.status.busy = true ∧ ∃ i, decode s.cmd = .ok i ∧
          exec i { s with inbox := s.inbox.tail } = .next t))) ∨
      (∃ a rest r, s.inbox = .read a :: rest ∧ t = { s with inbox := rest, resp := r }) ∨
      (∃ a v rest, s.inbox = .write a v :: rest ∧
        ((s.hostWrite a v = none ∧ t = { s with inbox := rest, resp := .hostFault }) ∨
          ∃ u, s.hostWrite a v = some u ∧ t = { u with inbox := rest, resp := .done })) ∨
      (∃ rest, s.inbox = .progress :: rest ∧ (t = { s with inbox := rest } ∨
        (t = { s with inbox := rest, status := { s.status with stage := s.status.stage + 1 } } ∧
          s.status.busy = true ∧ s.cmd = encode .compress ∧ s.status.stage.toNat < 4))) ∨
      (∃ rest, s.inbox = .rst :: rest ∧ t = State.rst { s with inbox := rest }) := by
  have engine {u : State} (hu : engineStep u = .next t) :
      (u.status.busy = false ∧ t = u) ∨
        (u.status.busy = true ∧ ∃ i, decode u.cmd = .ok i ∧ exec i u = .next t) := by
    unfold engineStep at hu
    split at hu
    · rename_i hb
      split at hu
      · rename_i i hi
        exact .inr ⟨hb, i, hi, hu⟩
      · cases hu
    · rename_i hb
      cases hu
      exact .inl ⟨by simpa using hb, rfl⟩
  unfold step at h
  split at h
  · rename_i hib
    have hs : ({ s with inbox := s.inbox.tail } : State) = s := by
      cases s; simp_all
    rw [hs]
    exact .inl ⟨.inl hib, engine h⟩
  · rename_i e rest hib
    have ht : s.inbox.tail = rest := by rw [hib]; rfl
    cases e with
    | engine =>
      rw [ht]
      exact .inl ⟨.inr ⟨rest, hib⟩, engine (u := { s with inbox := rest }) h⟩
    | read a =>
      simp only [takeEvent, Host.Outcome.next.injEq, readTransaction] at h
      refine .inr (.inl ⟨a, rest, t.resp, hib, ?_⟩)
      split at h <;> subst h <;> rfl
    | write a v =>
      simp only [takeEvent, Host.Outcome.next.injEq, writeTransaction, hostWrite_inbox] at h
      refine .inr (.inr (.inl ⟨a, v, rest, hib, ?_⟩))
      cases hw : s.hostWrite a v with
      | none => rw [hw] at h; exact .inl ⟨rfl, h.symm⟩
      | some u => rw [hw] at h; exact .inr ⟨u, rfl, h.symm⟩
    | progress =>
      simp only [takeEvent, Host.Outcome.next.injEq] at h
      refine .inr (.inr (.inr (.inl ⟨rest, hib, ?_⟩)))
      rcases compressProgress_spec { s with inbox := rest } with he | ⟨he, h1, h2, h3⟩
      · exact .inl (h.symm.trans he)
      · exact .inr ⟨h.symm.trans he, h1, h2, h3⟩
    | rst =>
      simp only [takeEvent, Host.Outcome.next.injEq] at h
      exact .inr (.inr (.inr (.inr ⟨rest, hib, h.symm⟩)))

theorem step_event {s : State} {e : PortEvent} {rest : List PortEvent} (h : s.inbox = e :: rest) :
    step s = takeEvent e { s with inbox := rest } := by
  unfold step; rw [h]

end Sys2Proof.Machine
end

