-- ==== Sys2Proof/Laws/TreeShape.lean ====
section
/-! SUPPORT. The tree of a FrequencyMap: the selection order makes it unique (R88), and every node but
the root has exactly one parent (R90). -/

namespace Sys2Proof.Machine

open Sys2Proof

/-- The two first of a set, in the order of a frequency and then of the index, are determined. -/
theorem two_first_unique {fr : Nat → Nat} {U : Nat → Prop} {a b a' b' : Nat} (ua : U a) (ub : U b)
    (ua' : U a') (ub' : U b') (hab : fr a < fr b ∨ (fr a = fr b ∧ a < b))
    (hab' : fr a' < fr b' ∨ (fr a' = fr b' ∧ a' < b'))
    (hc : ∀ c, U c → c ≠ a → c ≠ b → fr b < fr c ∨ (fr b = fr c ∧ b < c))
    (hc' : ∀ c, U c → c ≠ a' → c ≠ b' → fr b' < fr c ∨ (fr b' = fr c ∧ b' < c)) :
    a = a' ∧ b = b' := by
  have h1 := hc a' ua'
  have h2 := hc b' ub'
  have h3 := hc' a ua
  have h4 := hc' b ub
  have haa : a = a' := by
    by_contra hne
    by_cases hx : a' = b
    · subst hx
      by_cases hy : b' = a
      · subst hy; omega
      · have := h3 hne (Ne.symm hy); omega
    · have := h1 (Ne.symm hne) hx
      by_cases hy : b' = a
      · subst hy; omega
      · have := h3 hne (Ne.symm hy); omega
  subst haa
  refine ⟨rfl, ?_⟩
  by_contra hne
  have x1 := h2 (by rintro rfl; omega) (Ne.symm hne)
  have x2 := h4 (by rintro rfl; omega) hne
  omega

/-- The order `PicksBefore` by numbers. -/
theorem PicksBefore.fr {ns : List TreeNode} {c d : Nat} (h : PicksBefore ns c d)
    (hc : c < ns.length) (hd : d < ns.length) :
    let fr := fun i : Nat => (ns[i]?.map fun n => n.freq.toNat).getD 0
    fr c < fr d ∨ (fr c = fr d ∧ c < d) := by
  have := h ns[c] ns[d] (List.getElem?_eq_getElem hc) (List.getElem?_eq_getElem hd)
  simpa [List.getElem?_eq_getElem hc, List.getElem?_eq_getElem hd] using this

theorem unmerged_congr {ns ms : List TreeNode} {n k : Nat} (h : ∀ j : Nat, j < k → ns[j]? = ms[j]?)
    {c : Nat} (hu : Unmerged ms n k c) : Unmerged ns n k c :=
  ⟨hu.1, fun j x hj hjk hx => hu.2 j x hj hjk (by rw [← h j hjk]; exact hx)⟩

theorem picksBefore_congr {ns ms : List TreeNode} {k : Nat} (h : ∀ j : Nat, j < k → ns[j]? = ms[j]?)
    {c d : Nat} (hc : c < k) (hd : d < k) (hp : PicksBefore ms c d) : PicksBefore ns c d :=
  fun m n hm hn => hp m n (by rw [← h c hc]; exact hm) (by rw [← h d hd]; exact hn)

/-- A map has one tree (R88). -/
theorem IsHuffmanTree.unique {es : List FreqEntry} {ns ms : List TreeNode} {q r : Nat}
    (h : IsHuffmanTree es ns q) (g : IsHuffmanTree es ms r) : ns = ms ∧ q = r := by
  refine ⟨?_, by rw [h.root_last, g.root_last]⟩
  have hlen : ns.length = ms.length := by rw [h.size, g.size]
  have key : ∀ k : Nat, ns[k]? = ms[k]? := by
    intro k
    induction k using Nat.strong_induction_on with
    | _ k ih =>
      by_cases hk : k < es.length
      · have he : es[k]? = some es[k] := List.getElem?_eq_getElem hk
        rw [h.leaves k _ he, g.leaves k _ he]
      · by_cases hkl : k < ns.length
        · obtain ⟨m, hm⟩ : ∃ m, ns[k]? = some m := ⟨_, List.getElem?_eq_getElem hkl⟩
          obtain ⟨m', hm'⟩ : ∃ m', ms[k]? = some m' :=
            ⟨_, List.getElem?_eq_getElem (by omega)⟩
          obtain ⟨a, b, ma, mb, h1, h2, h3, h4, h5, h6, h7, h8, ua, ub, pab, pc⟩ :=
            h.merges k m (by omega) hm
          obtain ⟨a', b', ma', mb', h1', h2', h3', h4', h5', h6', h7', h8', ua', ub', pab', pc'⟩ :=
            g.merges k m' (by omega) hm'
          have va := unmerged_congr ih ua'
          have vb := unmerged_congr ih ub'
          have hu : ∀ c, Unmerged ns es.length k c → Unmerged ms es.length k c := fun c hc =>
            unmerged_congr (fun j hj => (ih j hj).symm) hc
          have hab : a = a' ∧ b = b' := by
            refine two_first_unique (U := fun c => Unmerged ns es.length k c)
              (fr := fun i : Nat => (ns[i]?.map fun n => n.freq.toNat).getD 0) ua ub va vb
              (pab.fr (by have := ua.1; omega) (by have := ub.1; omega)) ?_ ?_ ?_
            · exact (picksBefore_congr ih va.1 vb.1 pab').fr (by have := va.1; omega)
                (by have := vb.1; omega)
            · exact fun c hc x y => (pc c hc x y).fr (by have := ub.1; omega)
                (by have := hc.1; omega)
            · exact fun c hc x y => (picksBefore_congr ih vb.1 hc.1 (pc' c (hu c hc) x y)).fr
                (by have := vb.1; omega) (by have := hc.1; omega)
          obtain ⟨rfl, rfl⟩ := hab
          have e1 : ma = ma' := by
            have := ih a ua.1; rw [h6, h6'] at this; exact Option.some.inj this
          have e2 : mb = mb' := by
            have := ih b ub.1; rw [h7, h7'] at this; exact Option.some.inj this
          have hl : m.left = m'.left := BitVec.eq_of_toNat_eq (by rw [h3, h3'])
          have hr : m.right = m'.right := BitVec.eq_of_toNat_eq (by rw [h4, h4'])
          have hf : m.freq = m'.freq := BitVec.eq_of_toNat_eq (by rw [h8, h8', e1, e2])
          have : m = m' := by
            cases m; cases m'
            simp only [TreeNode.mk.injEq] at *
            exact ⟨h1.trans h1'.symm, h2.trans h2'.symm, hf, hl, hr⟩
          rw [hm, hm', this]
        · rw [List.getElem?_eq_none (by omega), List.getElem?_eq_none (by omega)]
  exact List.ext_getElem? key

/-- Of an Internal node: both pointers are lower nodes, and they differ. -/
theorem IsHuffmanTree.internal {es : List FreqEntry} {ns : List TreeNode} {r : Nat}
    (h : IsHuffmanTree es ns r) {k : Nat} {m : TreeNode} (hm : ns[k]? = some m) :
    (m.kind = .leaf ∧ k < es.length) ∨
      (m.kind = .internal ∧ es.length ≤ k ∧ m.left.toNat < k ∧ m.right.toNat < k ∧
        m.left.toNat ≠ m.right.toNat) := by
  by_cases hk : k < es.length
  · have := h.leaves k _ (List.getElem?_eq_getElem hk)
    rw [hm] at this; cases this
    exact .inl ⟨rfl, hk⟩
  · obtain ⟨a, b, ma, mb, h1, h2, h3, h4, h5, h6, h7, h8, ua, ub, -⟩ := h.merges k m (by omega) hm
    exact .inr ⟨h1, by omega, by rw [h3]; exact ua.1, by rw [h4]; exact ub.1, by rw [h3, h4]; exact h5⟩

/-- A node has at most one parent (R90). -/
theorem IsHuffmanTree.parent_unique {es : List FreqEntry} {ns : List TreeNode} {r : Nat}
    (h : IsHuffmanTree es ns r) {j k c : Nat} {n m : TreeNode} (hj : ns[j]? = some n)
    (hk : ns[k]? = some m) (hj' : n.kind = .internal) (hk' : m.kind = .internal)
    (hn : n.left.toNat = c ∨ n.right.toNat = c) (hm : m.left.toNat = c ∨ m.right.toNat = c) :
    j = k := by
  have aux : ∀ {j k : Nat} {n m : TreeNode}, ns[j]? = some n → ns[k]? = some m → n.kind = .internal →
      m.kind = .internal → (n.left.toNat = c ∨ n.right.toNat = c) →
      (m.left.toNat = c ∨ m.right.toNat = c) → ¬ j < k := by
    intro j k n m hj hk hj' hk' hn hm hlt
    have hjl : es.length ≤ j := by
      rcases h.internal hj with ⟨hx, -⟩ | ⟨-, hx, -⟩
      · rw [hj'] at hx; cases hx
      · exact hx
    obtain ⟨a, b, ma, mb, h1, h2, h3, h4, h5, h6, h7, h8, ua, ub, -⟩ := h.merges k m (by omega) hk
    rcases hm with hm | hm
    · have := ua.2 j n hjl hlt hj
      rcases hn with hn | hn <;> omega
    · have := ub.2 j n hjl hlt hj
      rcases hn with hn | hn <;> omega
  have h1 := aux hj hk hj' hk' hn hm
  have h2 := aux hk hj hk' hj' hm hn
  omega

/-- Every node but the root has a parent (R90): there are as many child places as such nodes. -/
theorem IsHuffmanTree.parent_exists {es : List FreqEntry} {ns : List TreeNode} {r : Nat}
    (h : IsHuffmanTree es ns r) {c : Nat} (hc : c < ns.length) (hr : c ≠ r) :
    ∃ (k : Nat) (m : TreeNode), ns[k]? = some m ∧ m.kind = .internal ∧ (m.left.toNat = c ∨ m.right.toNat = c) := by
  have hs := h.size
  have hl := h.root_last
  have hlt : ∀ i : Fin (es.length - 1), es.length + i.val < ns.length := fun i => by
    have := i.isLt; omega
  have hint : ∀ i : Fin (es.length - 1), ∃ m, ns[es.length + i.val]? = some m ∧ m.kind = .internal ∧
      m.left.toNat < es.length + i.val ∧ m.right.toNat < es.length + i.val ∧
        m.left.toNat ≠ m.right.toNat := by
    intro i
    have hm : ns[es.length + i.val]? = some ns[es.length + i.val] := List.getElem?_eq_getElem (hlt i)
    rcases h.internal hm with ⟨-, hx⟩ | ⟨h1, -, h2, h3, h4⟩
    · omega
    · exact ⟨_, hm, h1, h2, h3, h4⟩
  choose f hf hk hleft hright hne using hint
  let g : Fin (es.length - 1) × Bool → Fin (2 * es.length - 2) := fun ib =>
    ⟨if ib.2 then (f ib.1).left.toNat else (f ib.1).right.toNat, by
      have h1 := hleft ib.1; have h2 := hright ib.1; have h3 := ib.1.isLt
      split <;> omega⟩
  have hinj : Function.Injective g := by
    rintro ⟨i, b⟩ ⟨j, d⟩ he
    have he' := congrArg Fin.val he
    simp only [g] at he'
    have hij : es.length + i.val = es.length + j.val :=
      h.parent_unique (c := if b then (f i).left.toNat else (f i).right.toNat) (hf i) (hf j) (hk i)
        (hk j) (by cases b <;> simp) (by rw [he']; cases d <;> simp)
    have : i = j := Fin.ext (by omega)
    subst this
    have hi := hne i
    cases b <;> cases d
    · rfl
    · exact absurd he'.symm hi
    · exact absurd he' hi
    · rfl
  have hbij := (Fintype.bijective_iff_injective_and_card g).2 ⟨hinj, by simp; omega⟩
  obtain ⟨⟨i, b⟩, hib⟩ := hbij.2 ⟨c, by omega⟩
  refine ⟨_, f i, hf i, hk i, ?_⟩
  have := congrArg Fin.val hib
  simp only [g] at this
  cases b <;> simp_all

end Sys2Proof.Machine
end

