-- ==== Sys2Proof/Laws/Outcome.lean ====
section
/-! SUPPORT. The two ways a command with one destination ends, in the words of the statements: success
with its frame (R67, R149) and failure with its frame (R150, R153). -/

namespace Sys2Proof.Machine

open Sys2Proof

theorem Touches.frame {ds : List Space} {s t : State} (h : Touches ds s t) : Frame ds s t :=
  ⟨h.control, h.outside, h.root⟩

/-- A body that succeeds on an accepted command. -/
theorem runBody_succeeds {dest : Space} {body : State → Except CmdError State} {s u : State}
    {i : Instr} (ha : s.Accepted i) (hi : i ≠ .compress) (hb : body s = .ok u)
    (hdel : Delivers dest s u) :
    s.runBody dest body = u.complete ∧ Succeeded u.complete ∧
      u.complete.status.stage = opcodeOf i ∧ Frame [dest] s u.complete ∧
      SameAbove dest s u.complete := by
  obtain ⟨c1, -, c3, c4⟩ := ha.clear
  obtain ⟨h1, h2, h3⟩ := hdel.status
  refine ⟨runBody_ok hb, ⟨rfl, rfl, ?_, ?_, ?_⟩, ?_,
    (hdel.touches.trans ((touches_complete u).mono (by simp))).frame, ?_⟩
  · simpa [Status.complete, h1] using c1
  · simpa [h2] using c3
  · simpa [h3] using c4
  · simpa [Status.complete, h1] using ha.stage hi
  · have := hdel.sameAbove ha.inv.toDataOk
    intro a haa
    simpa using this a (by simpa using haa)

/-- A body that fails on an accepted command. -/
theorem runBody_fails {dest : Space} {body : State → Except CmdError State} {s : State}
    {e : CmdError} (hb : body s = .error e) :
    s.runBody dest body = (s.voidDest dest).takeError e ∧
      FailedAs e.code e.info ((s.voidDest dest).takeError e) ∧
      ((s.voidDest dest).takeError e).len dest = 0 ∧
      (dest = .node → ((s.voidDest dest).takeError e).root = nilPtr) ∧
      Frame [dest] s ((s.voidDest dest).takeError e) ∧
      ((s.voidDest dest).takeError e).status.stage = s.status.stage :=
  ⟨runBody_error hb, ⟨rfl, rfl, rfl, rfl, rfl⟩, by simp, fun h => by simp [h],
    ((touches_voidDest s dest).trans ((touches_takeError _ e).mono (by simp))).frame,
    by simp [Status.fail]⟩

/-- A command's body that delivers in its destination whenever it succeeds. -/
theorem succeeded_err {s : State} (h : Succeeded s) : s.status.err = false := h.2.2.1

theorem failedAs_err {s : State} {c i : Word} (h : FailedAs c i s) : s.status.err = true := h.2.2.1

end Sys2Proof.Machine
end

