-- ==== Sys2Proof/Laws/Compress.lean ====
section
/-! SUPPORT. COMPRESS: running stages one after another, and the five ways it ends (R103 to R105). -/

namespace Sys2Proof.Machine

open Sys2Proof

/-! ## Stages in a row -/

/-- The stages all succeed and lead from `s` to `u`. -/
inductive RanThrough : List CompressStage → State → State → Prop where
  | nil (s : State) : RanThrough [] s s
  | cons {st : CompressStage} {later : List CompressStage} {s t u : State} :
      st.body (s.setStage st.number) = .ok t → RanThrough later t u → RanThrough (st :: later) s u

theorem runStages_ran {stages : List CompressStage} {s u : State} (h : RanThrough stages s u)
    (rest : List CompressStage) : runStages (stages ++ rest) s = runStages rest u := by
  induction h with
  | nil => rfl
  | cons hb _ ih => rw [List.cons_append, runStages_ok hb, ih]

/-- Running stages ends in one of two ways: all succeed, or one is the first that fails. -/
theorem runStages_inv (stages : List CompressStage) (s : State) :
    (∃ u, RanThrough stages s u ∧ runStages stages s = u.complete) ∨
      ∃ earlier failed later u e, stages = earlier ++ failed :: later ∧ RanThrough earlier s u ∧
        failed.body (u.setStage failed.number) = .error e := by
  induction stages generalizing s with
  | nil => exact .inl ⟨s, .nil s, rfl⟩
  | cons st later ih =>
    cases h : st.body (s.setStage st.number) with
    | ok t =>
      rcases ih t with ⟨u, h1, h2⟩ | ⟨ea, fa, la, u, e, h1, h2, h3⟩
      · exact .inl ⟨u, .cons h h1, by rw [runStages_ok h, h2]⟩
      · exact .inr ⟨st :: ea, fa, la, u, e, by rw [h1]; rfl, .cons h h2, h3⟩
    | error e => exact .inr ⟨[], st, later, s, e, rfl, .nil s, h⟩

/-- The state in which a failed stage leaves COMPRESS (R104, R150). -/
def stageFailure (failed : CompressStage) (later : List CompressStage) (u : State) (e : CmdError) :
    State :=
  (later.foldl (fun v l => v.emptyDest l.dest)
    ((u.setStage failed.number).voidDest failed.dest)).takeError e

theorem runStages_fails {earlier later : List CompressStage} {failed : CompressStage} {s u : State}
    {e : CmdError} (h : RanThrough earlier s u)
    (hb : failed.body (u.setStage failed.number) = .error e) :
    runStages (earlier ++ failed :: later) s = stageFailure failed later u e := by
  rw [runStages_ran h, runStages_error hb]; rfl

/-- Everything that stages which all succeed can do. -/
theorem RanThrough.spec {stages : List CompressStage} {s u : State} (h : RanThrough stages s u)
    (hd : s.DataOk) :
    Touches (stages.map CompressStage.dest) s u ∧ u.DataOk ∧ u.status.err = s.status.err ∧
      u.errCode = s.errCode ∧ u.errInfo = s.errInfo := by
  induction h with
  | nil s => exact ⟨.refl _ s, hd, rfl, rfl, rfl⟩
  | @cons st later s t u hb _ ih =>
    have hds := hd.setStage st.number
    have hdel := CompressStage.delivers hds hb
    obtain ⟨h1, h2, h3, h4, h5⟩ := ih (hdel.dataOk hds)
    obtain ⟨g1, g2, g3⟩ := hdel.status
    refine ⟨((touches_setStage s st.number).mono (by simp)).trans
      ((hdel.touches.mono (by simp)).trans (h1.mono (by simp))), h2, ?_, ?_, ?_⟩
    · rw [h3, g1]; rfl
    · rw [h4, g2]; rfl
    · rw [h5, g3]; rfl

/-- Of stages with different destinations each writes below its new length only (R149). -/
theorem RanThrough.sameAbove {stages : List CompressStage} {s u : State} (h : RanThrough stages s u)
    (hd : s.DataOk) (hn : (stages.map CompressStage.dest).Nodup) {e : CompressStage}
    (he : e ∈ stages) : SameAbove e.dest s u := by
  induction h with
  | nil s => cases he
  | @cons st later s t u hb hr ih =>
    have hds := hd.setStage st.number
    have hdel := CompressStage.delivers hds hb
    have hdt := hdel.dataOk hds
    rw [List.map_cons, List.nodup_cons] at hn
    have hp : t.params = s.params := hdel.touches.control.1
    rcases List.mem_cons.1 he with rfl | he
    · intro a ha
      have ht := (hr.spec hdt).1.outside e.dest hn.1
      rw [ht.1] at ha
      rw [ht.2]
      have := hdel.sameAbove hds a ha
      simpa using this
    · intro a ha
      have hne : e.dest ∉ [st.dest] := by
        intro hm
        exact hn.1 ((List.mem_singleton.1 hm) ▸ List.mem_map_of_mem he)
      rw [ih hdt hn.2 he a (by rw [hp]; exact ha), (hdel.touches.outside e.dest hne).2]
      simp

/-! ## The destinations of the stages after a failed one -/

theorem emptyLater_len (later : List CompressStage) (s : State) (r : Space) :
    (later.foldl (fun u l => u.emptyDest l.dest) s).len r =
      if r ∈ later.map CompressStage.dest then 0 else s.len r := by
  induction later generalizing s with
  | nil => simp
  | cons l later ih =>
    simp only [List.foldl_cons, ih, State.emptyDest_len, List.map_cons, List.mem_cons]
    by_cases h1 : r ∈ later.map CompressStage.dest
    · simp [h1]
    · by_cases h2 : r = l.dest <;> simp [h1, h2]

theorem emptyLater_root (later : List CompressStage) (s : State) :
    (later.foldl (fun u l => u.emptyDest l.dest) s).root =
      if Space.node ∈ later.map CompressStage.dest then nilPtr else s.root := by
  induction later generalizing s with
  | nil => simp
  | cons l later ih =>
    simp only [List.foldl_cons, ih, State.emptyDest_root, List.map_cons, List.mem_cons]
    by_cases h1 : Space.node ∈ later.map CompressStage.dest
    · simp [h1]
    · by_cases h2 : l.dest = .node
      · simp [h2]
      · simp [h1, h2, Ne.symm h2]

theorem emptyLater_word (later : List CompressStage) (s : State) (r : Space) (a : Nat) :
    (later.foldl (fun u l => u.emptyDest l.dest) s).word r a = s.word r a := by
  induction later generalizing s with
  | nil => rfl
  | cons l later ih => simp [ih]

/-- What a failed stage leaves: its own destination and the later ones are empty, the elements of the
later ones are as they were, and what the earlier ones wrote stays (R104, R150). -/
theorem stageFailure_spec {failed : CompressStage} {later : List CompressStage} {u : State}
    {e : CmdError} (hd : u.DataOk) :
    FailedAs e.code e.info (stageFailure failed later u e) ∧
      (stageFailure failed later u e).status.stage = failed.number ∧
      Touches ((failed :: later).map CompressStage.dest) u (stageFailure failed later u e) ∧
      (∀ l ∈ failed :: later, (stageFailure failed later u e).len l.dest = 0) ∧
      (∀ r a, r ≠ failed.dest → (stageFailure failed later u e).word r a = u.word r a) ∧
      (Space.node ∈ (failed :: later).map CompressStage.dest →
        (stageFailure failed later u e).root = nilPtr) := by
  have hds := hd.setStage failed.number
  obtain ⟨h1, h2, h3⟩ := emptyLater_spec later (hds.voidDest failed.dest)
  refine ⟨⟨rfl, rfl, rfl, rfl, rfl⟩, ?_, ?_, fun l hl => ?_, fun r a hr => ?_, fun hn => ?_⟩
  · simp [stageFailure, Status.fail, h3]
  · exact ((((touches_setStage u failed.number).mono (by simp)).trans
      ((touches_voidDest _ failed.dest).mono (by simp))).trans (h1.mono (by simp))).trans
      ((touches_takeError _ e).mono (by simp))
  · simp only [stageFailure, State.takeError_len, emptyLater_len, State.voidDest_len]
    rcases List.mem_cons.1 hl with rfl | hl
    · simp
    · rw [if_pos (List.mem_map_of_mem hl)]
  · simp only [stageFailure, State.takeError_word, emptyLater_word]
    rw [State.voidDest_word_other _ hr, State.setStage_word]
  · simp only [stageFailure, State.takeError_root, emptyLater_root, State.voidDest_root]
    rw [List.map_cons, List.mem_cons] at hn
    rcases hn with hn | hn
    · simp [← hn]
    · rw [if_pos hn]

/-! ## The five ways COMPRESS ends -/

/-- The entries of a tree's CodeTable cover a text whose symbols are the tree's. -/
theorem covers_of_perm {T : HTree} {es : List FreqEntry} {text : List Word}
    (hT : T.symbols.Perm (es.map FreqEntry.sym)) (hes : IsFrequencyMap text es) :
    Covers T.table text := by
  intro x hx
  have := hT.mem_iff.2 ((hes.keys_exact x).2 hx)
  rw [← T.table_syms] at this
  obtain ⟨e, he, hx⟩ := List.mem_map.1 this
  exact ⟨e, he, hx⟩

theorem text_length_lt {s : State} (hd : s.DataOk) : s.text.length < 2 ^ 32 := by
  rw [s.value_lengths.1]
  have h1 := hd.len_le .text
  have h2 := hd.params_legal.2.1.2
  simp only [State.len, Space.cap] at h1
  omega

/-- The FREQ stage on a text whose symbols fit the table. -/
theorem ranFreq {s : State} (hd : s.DataOk) {es : List FreqEntry} (hes : IsFrequencyMap s.text es)
    (hc : es.length ≤ s.params.alphaCap) :
    ∃ a, RanThrough [.freq] s a ∧ a.freqMap = es ∧ a.text = s.text := by
  have htext : (s.setStage 1).text = s.text := rfl
  obtain ⟨fs, h1, h2, -, -, -, h6⟩ := freqBody_ok (s := s.setStage 1) (hd.setStage 1)
    (by rw [htext, ← hes.length_eq]; exact hc)
  have := h2.unique hes
  subst this
  refine ⟨_, .cons (st := .freq) h1 (.nil _), h6, ?_⟩
  exact State.text_congr (by simp) fun i => by simp

/-- The FREQ and BUILD stages, on a text that is not empty. -/
theorem ranBuild {s : State} (hd : s.DataOk) {es : List FreqEntry} (hes : IsFrequencyMap s.text es)
    (hc : es.length ≤ s.params.alphaCap) (hne : s.text ≠ []) :
    ∃ b ns r T, RanThrough [.freq, .build] s b ∧ b.freqMap = es ∧ b.text = s.text ∧ b.nodes = ns ∧
      b.root = BitVec.ofNat 32 r ∧ IsHuffmanTree es ns r ∧ Represents ns (BitVec.ofNat 32 r) T ∧
      T.symbols.Perm (es.map FreqEntry.sym) ∧ b.HasTree T ∧ T.leafCount ≤ s.params.alphaCap := by
  obtain ⟨a, ha, hmap, htext⟩ := ranFreq hd hes hc
  obtain ⟨-, had, -⟩ := ha.spec hd
  have hmap' : (a.setStage 2).freqMap = es := hmap
  have hes0 : es ≠ [] := by
    rintro rfl
    rcases hs : s.text with _ | ⟨x, xs⟩
    · exact hne hs
    · have := (hes.keys_exact x).2 (by rw [hs]; simp)
      simp at this
  obtain ⟨ns, r, T, t, h1, h2, h3, h4, h5, h6, -⟩ := buildBody_ok (s := a.setStage 2)
    (had.setStage 2) (by rw [hmap']; exact hes0)
    (.inr (by rw [hmap', hes.conserved]; exact text_length_lt hd))
  rw [hmap'] at h3 h5
  have hroot : t.root = BitVec.ofNat 32 r := by rw [h2]; simp
  cases ha with
  | cons hb hr =>
    cases hr
    refine ⟨t, ns, r, T, .cons hb (.cons (st := .build) h1 (.nil _)), ?_, ?_, h6, hroot, h3, h4, h5,
      ?_, ?_⟩
    · rw [← hmap, h2]
      exact State.freqMap_congr (by simp) fun i => by simp
    · rw [← htext, h2]
      exact State.text_congr (by simp) fun i => by simp
    · unfold State.HasTree; rw [h6, hroot]; exact h4
    · rw [← T.symbols_length, h5.length_eq, List.length_map]; exact hc

/-- The first three stages, on a tree that is not too tall. -/
theorem ranCodes {s : State} (hd : s.DataOk) {es : List FreqEntry} (hes : IsFrequencyMap s.text es)
    (hc : es.length ≤ s.params.alphaCap) (hne : s.text ≠ []) {ns : List TreeNode} {r : Nat}
    {T : HTree} (hns : IsHuffmanTree es ns r) (hT : Represents ns (BitVec.ofNat 32 r) T)
    (hh : T.height ≤ s.params.codeMaxLen) :
    ∃ c, RanThrough [.freq, .build, .codes] s c ∧ c.freqMap = es ∧ c.text = s.text ∧ c.nodes = ns ∧
      c.root = BitVec.ofNat 32 r ∧ c.codeTable = T.table ∧ Covers T.table s.text := by
  obtain ⟨b, ms, q, U, hb, hmap, htext, hnodes, hroot, h3, h4, h5, h6, h7⟩ := ranBuild hd hes hc hne
  obtain ⟨rfl, rfl⟩ := h3.unique hns
  have := h4.unique hT
  subst this
  obtain ⟨htouch, hbd, -⟩ := hb.spec hd
  have hp : b.params = s.params := htouch.control.1
  have hT' : (b.setStage 3).HasTree U := h6
  obtain ⟨k1, k2⟩ := codesBody_ok (s := b.setStage 3) (hbd.setStage 3) hT' (by simpa [hp] using hh)
    (by simpa [hp] using h7)
  cases hb with
  | cons hb1 hr1 =>
  cases hr1 with
  | cons hb2 hr2 =>
  cases hr2
  refine ⟨_, .cons hb1 (.cons hb2 (.cons (st := .codes) k1 (.nil _))), ?_, ?_, ?_, ?_, k2,
    covers_of_perm h5 hes⟩
  · rw [← hmap]; exact State.freqMap_congr (by simp) fun i => by simp
  · rw [← htext]; exact State.text_congr (by simp) fun i => by simp
  · rw [← hnodes]; exact State.nodes_congr (by simp) (by simp) fun i => by simp
  · rw [← hroot]; simp

/-- All four stages. -/
theorem ranEncode {s : State} (hd : s.DataOk) {es : List FreqEntry} (hes : IsFrequencyMap s.text es)
    (hc : es.length ≤ s.params.alphaCap) (hne : s.text ≠ []) {ns : List TreeNode} {r : Nat}
    {T : HTree} (hns : IsHuffmanTree es ns r) (hT : Represents ns (BitVec.ofNat 32 r) T)
    (hh : T.height ≤ s.params.codeMaxLen)
    (hl : (codeBits T.table s.text).length ≤ s.params.bitCap) :
    ∃ d, RanThrough CompressStage.order s d ∧ d.freqMap = es ∧ d.text = s.text ∧ d.nodes = ns ∧
      d.root = BitVec.ofNat 32 r ∧ d.codeTable = T.table ∧
      d.bitString = codeBits T.table s.text ∧ d.status.stage = 4 ∧ Covers T.table s.text := by
  obtain ⟨c, hran, hmap, htext, hnodes, hroot, htab, hcov⟩ := ranCodes hd hes hc hne hns hT hh
  obtain ⟨htouch, hcd, -⟩ := hran.spec hd
  have hp : c.params = s.params := htouch.control.1
  have ht : (c.setStage 4).text = s.text := htext
  have hct : (c.setStage 4).codeTable = T.table := htab
  obtain ⟨k1, k2⟩ := encodeBody_ok (s := c.setStage 4) (hcd.setStage 4) (by rw [hct, ht]; exact hcov)
    (by rw [hct, ht]; simpa [hp] using hl)
  rw [hct, ht] at k1 k2
  cases hran with
  | cons hb1 hr1 =>
  cases hr1 with
  | cons hb2 hr2 =>
  cases hr2 with
  | cons hb3 hr3 =>
  cases hr3
  refine ⟨_, .cons hb1 (.cons hb2 (.cons hb3 (.cons (st := .encode) k1 (.nil _)))), ?_, ?_, ?_, ?_,
    ?_, k2, by simp, hcov⟩
  · rw [← hmap]; exact State.freqMap_congr (by simp) fun i => by simp
  · rw [← htext]; exact State.text_congr (by simp) fun i => by simp
  · rw [← hnodes]; exact State.nodes_congr (by simp) (by simp) fun i => by simp
  · rw [← hroot]; simp
  · rw [← htab]; exact State.codeTable_congr (by simp) (by simp) fun i => by simp

/-- The five ways COMPRESS ends: four failures, each with its stage, and success. -/
theorem compress_cases {s : State} (hd : s.DataOk) :
    (s.params.alphaCap < s.text.dedup.length ∧
        runStages CompressStage.order s =
          stageFailure .freq [.build, .codes, .encode] s (.capacityOverflow .freqTable)) ∨
      (s.text = [] ∧ ∃ a, RanThrough [.freq] s a ∧ a.freqMap = [] ∧
        runStages CompressStage.order s = stageFailure .build [.codes, .encode] a .emptyAlphabet) ∨
      (∃ es ns r T, IsFrequencyMap s.text es ∧ es.length ≤ s.params.alphaCap ∧
        IsHuffmanTree es ns r ∧ Represents ns (BitVec.ofNat 32 r) T ∧ s.text ≠ [] ∧
        T.symbols.Perm (es.map FreqEntry.sym) ∧ T.leafCount ≤ s.params.alphaCap ∧
        ((s.params.codeMaxLen < T.height ∧ ∃ b, RanThrough [.freq, .build] s b ∧
            runStages CompressStage.order s =
              stageFailure .codes [.encode] b (.capacityOverflow .codeLength)) ∨
          (T.height ≤ s.params.codeMaxLen ∧
            s.params.bitCap < (codeBits T.table s.text).length ∧
            ∃ c, RanThrough [.freq, .build, .codes] s c ∧ c.codeTable = T.table ∧
              runStages CompressStage.order s =
                stageFailure .encode [] c (.capacityOverflow .bitString)) ∨
          (T.height ≤ s.params.codeMaxLen ∧
            (codeBits T.table s.text).length ≤ s.params.bitCap))) := by
  by_cases hfull : s.params.alphaCap < s.text.dedup.length
  · refine .inl ⟨hfull, runStages_fails (earlier := []) (.nil s) ?_⟩
    exact freqBody_full (s := s.setStage 1) hfull
  · obtain ⟨es, -, hes, hc⟩ := countSymbols_ok (text := s.text) (Nat.le_of_not_lt hfull)
    by_cases hne : s.text = []
    · obtain ⟨a, ha, hmap, -⟩ := ranFreq hd hes hc
      have hnil : es = [] := by
        have := hes.length_eq
        rw [hne] at this
        simpa using this
      refine .inr (.inl ⟨hne, a, ha, hmap.trans hnil, runStages_fails (earlier := [.freq]) ha ?_⟩)
      exact buildBody_empty (s := a.setStage 2) (hmap.trans hnil)
    · obtain ⟨b, ns, r, T, hb, -, -, -, -, h3, h4, h5, h6, h7⟩ := ranBuild hd hes hc hne
      refine .inr (.inr ⟨es, ns, r, T, hes, hc, h3, h4, hne, h5, h7, ?_⟩)
      by_cases hh : T.height ≤ s.params.codeMaxLen
      · by_cases hl : (codeBits T.table s.text).length ≤ s.params.bitCap
        · exact .inr (.inr ⟨hh, hl⟩)
        · obtain ⟨c, hran, -, htext, -, -, htab, hcov⟩ := ranCodes hd hes hc hne h3 h4 hh
          have hp : c.params = s.params := (hran.spec hd).1.control.1
          refine .inr (.inl ⟨hh, by omega, c, hran, htab,
            runStages_fails (earlier := [.freq, .build, .codes]) hran ?_⟩)
          have ht : (c.setStage 4).text = s.text := htext
          have hct : (c.setStage 4).codeTable = T.table := htab
          have hpc : (c.setStage 4).params.bitCap = s.params.bitCap := by simp [hp]
          change encodeBody (c.setStage 4) = _
          simp only [encodeBody]
          rw [ht, hct, hpc]
          rcases encodeFrom_spec s.params.bitCap T.table s.text with ⟨-, h, -⟩ |
            ⟨xs, y, ys, he, -, -, hy, -⟩ | ⟨_, _, _, -, -, -, -, h⟩
          · exact absurd h hl
          · exact absurd (hcov y (by rw [he]; simp)) hy
          · rw [h]
      · have hbp : b.params = s.params := (hb.spec hd).1.control.1
        refine .inl ⟨by omega, b, hb, runStages_fails (earlier := [.freq, .build]) hb ?_⟩
        refine codesBody_error (s := b.setStage 3) ?_
        exact codeTableOf_tall h6 (by simp [hbp]; omega) (by simpa [hbp] using h7)

/-! ## The stages do not look at the flags -/

/-- The same state with other flags. -/
def State.withStatus (s : State) (f : Status) : State := { s with status := f }

theorem putWords_withStatus (s : State) (f : Status) (sp : Space) (i : Nat) (ws : List Word) :
    (s.withStatus f).putWords sp i ws = (s.putWords sp i ws).withStatus f := by
  induction ws generalizing s i with
  | nil => rfl
  | cons w ws ih => exact ih (s.putWord sp i w) (i + 1)

theorem deliver_withStatus (s : State) (f : Status) (sp : Space) (n : Nat) (ws : List Word) :
    (s.withStatus f).deliver sp n ws = (s.deliver sp n ws).withStatus f := by
  simp only [State.deliver, putWords_withStatus]
  cases sp <;> rfl

theorem CompressStage.body_withStatus (st : CompressStage) (s : State) (f : Status) :
    st.body (s.withStatus f) = (st.body s).map fun t => t.withStatus f := by
  cases st
  · simp only [CompressStage.body, freqBody, deliver_withStatus]
    rw [show (s.withStatus f).text = s.text from rfl, show (s.withStatus f).params = s.params from rfl]
    cases countSymbols s.params.alphaCap s.text [] <;> rfl
  · simp only [CompressStage.body, buildBody, deliver_withStatus]
    rw [show (s.withStatus f).freqMap = s.freqMap from rfl]
    cases buildTree s.freqMap <;> rfl
  · simp only [CompressStage.body, codesBody, deliver_withStatus]
    rw [show (s.withStatus f).nodes = s.nodes from rfl, show (s.withStatus f).params = s.params from rfl,
      show (s.withStatus f).root = s.root from rfl]
    cases codeTableOf s.params s.nodes s.root <;> rfl
  · simp only [CompressStage.body, encodeBody, deliver_withStatus]
    rw [show (s.withStatus f).text = s.text from rfl, show (s.withStatus f).params = s.params from rfl,
      show (s.withStatus f).codeTable = s.codeTable from rfl]
    cases encodeFrom s.params.bitCap s.codeTable s.text 0 [] <;> rfl

theorem emptyDest_withStatus (s : State) (f : Status) (sp : Space) :
    (s.withStatus f).emptyDest sp = (s.emptyDest sp).withStatus f := by
  cases sp <;> rfl

/-- One stage of COMPRESS and the command of its name (R103). -/
theorem runStages_cons_command (st : CompressStage) (later : List CompressStage) (s : State) (f : Status) :
    (∃ t, st.body s = .ok t ∧ s.runBody st.dest st.body = t.complete ∧
        runStages (st :: later) (s.withStatus f) =
          runStages later (t.withStatus { f with stage := st.number })) ∨
      ∃ e, st.body s = .error e ∧ s.runBody st.dest st.body = (s.voidDest st.dest).takeError e ∧
        runStages (st :: later) (s.withStatus f) =
          (later.foldl (fun u l => u.emptyDest l.dest) ((s.voidDest st.dest).takeError e)).withStatus { f with busy := false, done := true, err := true, stage := st.number } := by
  cases h : st.body s with
  | ok t =>
    refine .inl ⟨t, rfl, runBody_ok h, ?_⟩
    have hb := st.body_withStatus s { f with stage := st.number }
    rw [h] at hb
    exact runStages_ok (s := s.withStatus f) hb
  | error e =>
    refine .inr ⟨e, rfl, runBody_error h, ?_⟩
    have hb := st.body_withStatus s { f with stage := st.number }
    rw [h] at hb
    rw [runStages_error (s := s.withStatus f) hb]
    have hv : ∀ f', (s.withStatus f').voidDest st.dest = (s.voidDest st.dest).withStatus f' := by
      intro f'; cases st <;> rfl
    have key : ∀ (ls : List CompressStage) (u : State) (g : Status) (e : CmdError),
        (ls.foldl (fun u l => u.emptyDest l.dest) (u.withStatus g)).takeError e =
          (ls.foldl (fun u l => u.emptyDest l.dest) (u.takeError e)).withStatus g.fail := by
      intro ls
      induction ls with
      | nil => intro u g e; rfl
      | cons l ls ih =>
        intro u g e
        rw [List.foldl_cons, List.foldl_cons, emptyDest_withStatus, ih]
        congr 2
        cases l <;> rfl
    change (later.foldl (fun u l => u.emptyDest l.dest) ((s.withStatus { f with stage := st.number }).voidDest st.dest)).takeError e = _
    rw [hv, key]; rfl

/-! ## The first stages of COMPRESS and the commands of their names -/

theorem afterStages_withStatus (stages : List CompressStage) (s : State) (f : Status) :
    afterStages stages (s.withStatus f) = (afterStages stages s).map fun t => t.withStatus f := by
  induction stages generalizing s with
  | nil => rfl
  | cons st later ih =>
    simp only [afterStages, CompressStage.body_withStatus]
    cases st.body s with
    | ok t => exact ih t
    | error e => rfl

/-- The first stages succeed exactly when the commands of their names do, one after another. -/
theorem afterStages_command (st : CompressStage) (later : List CompressStage) {s : State}
    (hd : s.DataOk) (he : s.status.err = false) :
    (∃ v, afterStages (st :: later) s = .ok v) ↔
      (s.runBody st.dest st.body).status.err = false ∧
        ∃ v, afterStages later (s.runBody st.dest st.body) = .ok v := by
  cases h : st.body s with
  | ok t =>
    have herr : (s.runBody st.dest st.body).status.err = false := by
      rw [runBody_ok h]
      simpa [Status.complete, (CompressStage.delivers hd h).status.1] using he
    have hst : s.runBody st.dest st.body = t.withStatus t.status.complete := runBody_ok h
    have hv : afterStages later (s.runBody st.dest st.body) =
        (afterStages later t).map fun u => u.withStatus t.status.complete := by
      rw [hst, afterStages_withStatus]
    rw [hv]
    simp only [herr, afterStages, h, true_and]
    cases afterStages later t <;> simp [Except.map]
  | error e =>
    have herr : (s.runBody st.dest st.body).status.err = true := by rw [runBody_error h]; rfl
    simp [afterStages, h, herr]

end Sys2Proof.Machine
end

