-- ==== Sys2Proof/Laws/Sources.lean ====
section
/-! SUPPORT. Two states that agree on a command's sources: every body does the same on both, and so
does COMPRESS (R148). -/

namespace Sys2Proof.Machine

open Sys2Proof

/-- Two states hold the same value in a buffer: the same length and the same words below it. -/
def SameBelow (sp : Space) (s t : State) : Prop :=
  s.len sp = t.len sp ∧ ∀ a, a < (s.len sp).toNat * sp.stride s.params → s.word sp a = t.word sp a

theorem SameBelow.freqMap {s t : State} (h : SameBelow .freq s t) : s.freqMap = t.freqMap := by
  unfold State.freqMap
  rw [show s.freqN = t.freqN from h.1]
  refine below_congr fun i hi => ?_
  have h2 := h.2
  rw [h.1] at h2
  simp only [State.len, Space.stride] at h2
  simp only [State.freqAt, h2 (2 * i) (by omega), h2 (2 * i + 1) (by omega)]

theorem SameBelow.nodes {s t : State} (hp : s.params = t.params) (h : SameBelow .node s t) :
    s.nodes = t.nodes := by
  unfold State.nodes
  rw [show s.nodeN = t.nodeN from h.1]
  refine below_congr fun i hi => ?_
  have h2 := h.2
  rw [h.1] at h2
  simp only [State.len, Space.stride] at h2
  simp only [State.nodeAt, hp, h2 (4 * i) (by omega), h2 (4 * i + 1) (by omega),
    h2 (4 * i + 2) (by omega), h2 (4 * i + 3) (by omega)]

theorem SameBelow.codeTable {s t : State} (hd : s.DataOk) (hp : s.params = t.params)
    (h : SameBelow .code s t) : s.codeTable = t.codeTable := by
  unfold State.codeTable
  rw [show s.codeN = t.codeN from h.1]
  refine below_congr fun i hi => ?_
  have h2 := h.2
  rw [h.1] at h2
  simp only [State.len, Space.stride] at h2
  have hS : 2 ≤ s.params.codeStride := by simp [Params.codeStride]
  have hlt : ∀ r, r < s.params.codeStride →
      i * s.params.codeStride + r < t.codeN.toNat * s.params.codeStride := fun r hr =>
    calc i * s.params.codeStride + r < (i + 1) * s.params.codeStride := by rw [Nat.add_mul]; omega
      _ ≤ _ := Nat.mul_le_mul_right _ hi
  have w0 := h2 _ (hlt 0 (by omega))
  have w1 := h2 _ (hlt 1 (by omega))
  rw [Nat.add_zero] at w0
  have hmem : s.codeAt i ∈ s.codeTable := by
    unfold State.codeTable below
    exact List.mem_map_of_mem (List.mem_range.2 (by rw [show s.codeN = t.codeN from h.1]; exact hi))
  have hlen := codeTable_len_le hd hmem
  simp only [State.codeAt, List.length_map, List.length_range] at hlen
  simp only [State.codeAt, ← hp, w0, w1]
  congr 1
  refine List.map_congr_left fun k hk => ?_
  rw [List.mem_range, ← w1] at hk
  simp only [State.codeBit, ← hp]
  rw [h2 _ (hlt (2 + k / 32) ?_)]
  simp only [Params.codeStride, Params.codeWords]
  omega

/-- Two bodies did the same: the same error, or the same value into their destination (and the same
ROOT, where the Tree is the destination). -/
def SameResult (dest : Space) (s t : State) (x y : Except CmdError State) : Prop :=
  (∃ e, x = .error e ∧ y = .error e) ∨
    ∃ n ws qs qt, x = .ok ((s.deliver dest n ws).setRoot qs) ∧ y = .ok ((t.deliver dest n ws).setRoot qt) ∧
      ws.length = n * dest.stride s.params ∧ n < 2 ^ 32 ∧ (dest = .node → qs = qt) ∧
      (dest ≠ .node → qs = s.root ∧ qt = t.root)

theorem sameResult_deliver {dest : Space} {s t : State} {n : Nat} {ws : List Word} (hd : dest ≠ .node)
    (hw : ws.length = n * dest.stride s.params) (hn : n < 2 ^ 32) :
    SameResult dest s t (.ok (s.deliver dest n ws)) (.ok (t.deliver dest n ws)) := by
  refine .inr ⟨n, ws, s.root, t.root, ?_, ?_, hw, hn, fun h => absurd h hd, fun _ => ⟨rfl, rfl⟩⟩
  · have : (s.deliver dest n ws).root = s.root := by simp
    rw [← this]; rfl
  · have : (t.deliver dest n ws).root = t.root := by simp
    rw [← this]; rfl

theorem cap_lt {p : Params} (h : p.Legal) (sp : Space) : sp.cap p < 2 ^ 32 := by
  obtain ⟨-, ⟨-, h1⟩, ⟨-, h2, -⟩, -, -, ⟨-, h3, -⟩, ⟨-, h4⟩⟩ := h
  cases sp <;> simp only [Space.cap, Params.nodeCap, Params.byteCap, Params.hexCap] <;> omega

theorem freqBody_same {s t : State} (hd : s.DataOk) (hp : s.params = t.params) (h : s.text = t.text) :
    SameResult .freq s t (freqBody s) (freqBody t) := by
  have hc := cap_lt hd.params_legal .freq
  simp only [Space.cap] at hc
  by_cases hfit : s.text.dedup.length ≤ s.params.alphaCap
  · obtain ⟨es, h1, -, h3⟩ := countSymbols_ok hfit
    have e1 : freqBody s = .ok (s.deliver .freq es.length (es.flatMap FreqEntry.words)) := by
      simp [freqBody, h1]
    have e2 : freqBody t = .ok (t.deliver .freq es.length (es.flatMap FreqEntry.words)) := by
      simp only [freqBody, ← h, ← hp, h1]
    rw [e1, e2]
    exact sameResult_deliver (by simp) (freq_words_length es) (by omega)
  · refine .inl ⟨_, freqBody_full (by omega), freqBody_full (by rw [← h, ← hp]; omega)⟩

theorem buildBody_same {s t : State} (hd : s.DataOk) (h : s.freqMap = t.freqMap) :
    SameResult .node s t (buildBody s) (buildBody t) := by
  cases hb : buildTree s.freqMap with
  | error e => exact .inl ⟨e, by simp [buildBody, hb], by simp [buildBody, ← h, hb]⟩
  | ok x =>
    obtain ⟨ns, r⟩ := x
    have hb1 : buildBody s = .ok ((s.deliver .node ns.length (ns.flatMap TreeNode.words)).setRoot (BitVec.ofNat 32 r)) := by
      simp [buildBody, hb]
    refine .inr ⟨ns.length, _, _, _, hb1, by simp [buildBody, ← h, hb], node_words_length ns, ?_, fun _ => rfl, fun hne => absurd rfl hne⟩
    rcases buildBody_cases (s := s) with h1 | ⟨h1, h2⟩ | ⟨h1, h2⟩
    · rw [buildBody_empty h1] at hb1; cases hb1
    · obtain ⟨ms, q, T, g1, g2, -⟩ := buildTree_ok h1 (freqMap_length_le hd).2 (fun e he => freqMap_cnt_lt he) h2
      rw [hb] at g1; cases g1
      have := (freqMap_length_le hd).2
      have := g2.size
      omega
    · rw [buildBody_overflow hd h1 h2] at hb1; cases hb1

theorem codesBody_same {s t : State} (hd : s.DataOk) (hp : s.params = t.params) (h : s.nodes = t.nodes)
    (hr : s.root = t.root) : SameResult .code s t (codesBody s) (codesBody t) := by
  have hc := cap_lt hd.params_legal .code
  simp only [Space.cap] at hc
  rcases codeTableOf_spec s.params s.nodes s.root with ⟨T, h1, -, -, h4⟩ | ⟨h1, -⟩ |
      ⟨q, m, path, done, h1, -⟩ | ⟨q, m, path, done, h1, -⟩ | ⟨q, m, path, done, h1, -⟩
  · have e1 : codesBody s = .ok (s.deliver .code T.table.length (T.table.flatMap (CodeEntry.words s.params))) := by
      simp [codesBody, h1]
    have e2 : codesBody t = .ok (t.deliver .code T.table.length (T.table.flatMap (CodeEntry.words s.params))) := by
      simp only [codesBody, ← h, ← hp, ← hr, h1]
    rw [e1, e2]
    exact sameResult_deliver (by simp) (code_words_length _ _) (by rw [T.table_length]; omega)
  all_goals exact .inl ⟨_, codesBody_error h1, codesBody_error (by rw [← h, ← hp, ← hr]; exact h1)⟩

theorem encodeBody_same {s t : State} (hd : s.DataOk) (hp : s.params = t.params) (h : s.text = t.text)
    (hct : s.codeTable = t.codeTable) : SameResult .bits s t (encodeBody s) (encodeBody t) := by
  have hc := cap_lt hd.params_legal .bits
  simp only [Space.cap] at hc
  rcases encodeFrom_spec s.params.bitCap s.codeTable s.text with ⟨-, h2, h3⟩ |
    ⟨_, _, _, -, -, -, -, h3⟩ | ⟨_, _, _, -, -, -, -, h3⟩
  · have e1 : encodeBody s = .ok (s.deliver .bits (codeBits s.codeTable s.text).length ((codeBits s.codeTable s.text).map bitWord)) := by
      simp [encodeBody, h3]
    have e2 : encodeBody t = .ok (t.deliver .bits (codeBits s.codeTable s.text).length ((codeBits s.codeTable s.text).map bitWord)) := by
      simp only [encodeBody, ← h, ← hp, ← hct, h3]
    rw [e1, e2]
    exact sameResult_deliver (by simp) (by simp [Space.stride]) (by omega)
  all_goals
    obtain ⟨e, he⟩ : ∃ e, encodeFrom s.params.bitCap s.codeTable s.text 0 [] = .error e := ⟨_, h3⟩
    exact .inl ⟨e, by simp only [encodeBody, he], by simp only [encodeBody, ← h, ← hp, ← hct, he]⟩

theorem packBody_same {s t : State} (hd : s.DataOk) (h : s.bitString = t.bitString) :
    SameResult .bytes s t (packBody s) (packBody t) := by
  have hc := cap_lt hd.params_legal .bytes
  have := (packBody_ok hd).2.2
  simp only [packBody, ← h]
  exact sameResult_deliver (by simp) (by simp [Space.stride]) (lt_of_le_of_lt this hc)

theorem unpackBody_same {s t : State} (hd : s.DataOk) (h : s.packedBytes = t.packedBytes) :
    SameResult .bits s t (unpackBody s) (unpackBody t) := by
  have hc := cap_lt hd.params_legal .bits
  have := (unpackBody_ok hd).2.2
  simp only [unpackBody, ← h]
  exact sameResult_deliver (by simp) (by simp [Space.stride]) (lt_of_le_of_lt this hc)

theorem toHexBody_same {s t : State} (hd : s.DataOk) (h : s.packedBytes = t.packedBytes) :
    SameResult .hex s t (toHexBody s) (toHexBody t) := by
  have hc := cap_lt hd.params_legal .hex
  have := (toHexBody_ok hd).2.2
  simp only [toHexBody, ← h]
  exact sameResult_deliver (by simp) (by simp [Space.stride]) (lt_of_le_of_lt this hc)

theorem decodeBody_same {s t : State} (hd : s.DataOk) (hp : s.params = t.params)
    (h : s.bitString = t.bitString) (hn : s.nodes = t.nodes) (hr : s.root = t.root) :
    SameResult .out s t (decodeBody s) (decodeBody t) := by
  have hc := cap_lt hd.params_legal .out
  cases hb : decodeBits s.params.outCap s.nodes s.root s.bitString with
  | error e =>
    exact .inl ⟨e, by simp [decodeBody, hb], by simp only [decodeBody, ← hp, ← h, ← hn, ← hr, hb]⟩
  | ok xs =>
    have h3 := (decodeBody_ok hd hb).2.2
    have e2 : decodeBody t = .ok (t.deliver .out xs.length xs) := by
      simp only [decodeBody, ← hp, ← h, ← hn, ← hr, hb]
    rw [(decodeBody_ok hd hb).1, e2]
    exact sameResult_deliver (by simp) (by simp [Space.stride]) (lt_of_le_of_lt h3 hc)

/-- The same value was delivered. -/
theorem sameBelow_deliver {dest : Space} {s t : State} (hp : s.params = t.params) {n : Nat} {ws : List Word}
    (hw : ws.length = n * dest.stride s.params) (hn : n < 2 ^ 32) (qs qt : Word) :
    SameBelow dest ((s.deliver dest n ws).setRoot qs) ((t.deliver dest n ws).setRoot qt) := by
  refine ⟨by simp, fun a ha => ?_⟩
  simp only [State.setRoot_len, State.deliver_len, if_true, State.setRoot_params, State.deliver_params] at ha
  rw [ofNat_toNat_of_lt hn, ← hw] at ha
  simp [ha, hp]

/-- What a body does not touch stays the same value. -/
theorem SameBelow.touches {ds : List Space} {sp : Space} {s t u v : State} (h : SameBelow sp s t)
    (hu : Touches ds s u) (hv : Touches ds t v) (hsp : sp ∉ ds) : SameBelow sp u v := by
  obtain ⟨u1, u2⟩ := hu.outside sp hsp
  obtain ⟨v1, v2⟩ := hv.outside sp hsp
  refine ⟨by rw [u1, v1]; exact h.1, fun a ha => ?_⟩
  rw [u1, hu.control.1] at ha
  rw [u2, v2]; exact h.2 a ha

/-- The outcome of a command with one destination on states that agree on its sources. -/
theorem runBody_same {dest : Space} {body : State → Except CmdError State} {s t : State}
    (hp : s.params = t.params) (h : SameResult dest s t (body s) (body t))
    (he : s.status.err = t.status.err) (hc : s.errCode = t.errCode) (hi : s.errInfo = t.errInfo) :
    let u := s.runBody dest body
    let v := t.runBody dest body
    u.status.err = v.status.err ∧ u.errCode = v.errCode ∧ u.errInfo = v.errInfo ∧
      SameBelow dest u v ∧ (dest = .node → u.root = v.root) := by
  rcases h with ⟨e, h1, h2⟩ | ⟨n, ws, qs, qt, h1, h2, h3, h4, h5, -⟩
  · simp only [runBody_error h1, runBody_error h2]
    refine ⟨rfl, rfl, rfl, ⟨by simp, fun a ha => ?_⟩, fun hd => by simp [hd]⟩
    simp at ha
  · simp only [runBody_ok h1, runBody_ok h2]
    refine ⟨by simp [Status.complete, he], by simp [hc], by simp [hi],
      sameBelow_deliver hp h3 h4 qs qt, fun hd => by simp [h5 hd]⟩

/-! ## COMPRESS on two states -/

/-- Two states in the middle of COMPRESS: the same text, verdict and stage, and the same values in the
destinations `done` that have been delivered. -/
structure SamePair (done : List Space) (s t : State) : Prop where
  ok_left : s.DataOk
  ok_right : t.DataOk
  params : s.params = t.params
  text : s.text = t.text
  err : s.status.err = t.status.err
  code : s.errCode = t.errCode
  info : s.errInfo = t.errInfo
  stage : s.status.stage = t.status.stage
  same : ∀ sp ∈ done, SameBelow sp s t
  root : Space.node ∈ done → s.root = t.root

/-- The sources of a stage are there. -/
def CompressStage.Ready (done : List Space) : CompressStage → Prop
  | .freq => True
  | .build => Space.freq ∈ done
  | .codes => Space.node ∈ done
  | .encode => Space.code ∈ done

theorem SamePair.setStage {done : List Space} {s t : State} (h : SamePair done s t) (n : BitVec 4) :
    SamePair done (s.setStage n) (t.setStage n) where
  ok_left := h.ok_left.setStage n
  ok_right := h.ok_right.setStage n
  params := h.params
  text := h.text
  err := h.err
  code := h.code
  info := h.info
  stage := rfl
  same sp hsp := by
    obtain ⟨h1, h2⟩ := h.same sp hsp
    exact ⟨by simpa using h1, fun a ha => by simpa using h2 a (by simpa using ha)⟩
  root := h.root

theorem SamePair.body {done : List Space} {s t : State} {st : CompressStage}
    (h : SamePair done s t) (hr : st.Ready done) :
    SameResult st.dest s t (st.body s) (st.body t) := by
  cases st
  · exact freqBody_same h.ok_left h.params h.text
  · exact buildBody_same h.ok_left (h.same _ hr).freqMap
  · exact codesBody_same h.ok_left h.params ((h.same _ hr).nodes h.params) (h.root hr)
  · exact encodeBody_same h.ok_left h.params h.text ((h.same _ hr).codeTable h.ok_left h.params)

/-- One stage on both sides: the same error, or a pair again. -/
theorem SamePair.stage_step {done : List Space} {s t : State} {st : CompressStage}
    (h : SamePair done s t) (hr : st.Ready done) (hst : Space.text ≠ st.dest) :
    (∃ e, st.body s = .error e ∧ st.body t = .error e) ∨
      ∃ u v, st.body s = .ok u ∧ st.body t = .ok v ∧ SamePair (st.dest :: done) u v := by
  rcases h.body hr with ⟨e, h1, h2⟩ | ⟨n, ws, qs, qt, h1, h2, h3, h4, h5, h6⟩
  · exact .inl ⟨e, h1, h2⟩
  · refine .inr ⟨_, _, h1, h2, ?_⟩
    have d1 := CompressStage.delivers h.ok_left h1
    have d2 := CompressStage.delivers h.ok_right h2
    have key := sameBelow_deliver h.params h3 h4 qs qt
    refine ⟨d1.dataOk h.ok_left, d2.dataOk h.ok_right, ?_, ?_, ?_, ?_, ?_, ?_, fun sp hsp => ?_, fun hn => ?_⟩
    · simpa using h.params
    · have e1 : ((s.deliver st.dest n ws).setRoot qs).text = s.text := by
        obtain ⟨x1, x2⟩ := d1.touches.outside .text (by simpa using hst)
        exact State.text_congr x1 x2
      have e2 : ((t.deliver st.dest n ws).setRoot qt).text = t.text := by
        obtain ⟨x1, x2⟩ := d2.touches.outside .text (by simpa using hst)
        exact State.text_congr x1 x2
      rw [e1, e2]; exact h.text
    · simpa using h.err
    · simpa using h.code
    · simpa using h.info
    · simpa using h.stage
    · by_cases hs : sp = st.dest
      · rw [hs]; exact key
      · rcases List.mem_cons.1 hsp with hx | hx
        · exact absurd hx hs
        · exact (h.same sp hx).touches d1.touches d2.touches (by simpa using hs)
    · simp only [State.setRoot_root]
      by_cases hs : st.dest = .node
      · exact h5 hs
      · obtain ⟨x1, x2⟩ := h6 hs
        rcases List.mem_cons.1 hn with hx | hx
        · exact absurd hx.symm hs
        · rw [x1, x2]; exact h.root hx

/-- Every stage of a list has its sources among what is there and what those before it deliver. -/
def ReadyAll : List Space → List CompressStage → Prop
  | _, [] => True
  | done, st :: later => st.Ready done ∧ ReadyAll (st.dest :: done) later

theorem text_ne_dest (st : CompressStage) : Space.text ≠ st.dest := by cases st <;> decide

/-- Running stages on a pair ends in the same way on both sides. -/
theorem SamePair.runStages {stages : List CompressStage} {done : List Space} {s t : State}
    (h : SamePair done s t) (hr : ReadyAll done stages) :
    let u := Machine.runStages stages s
    let v := Machine.runStages stages t
    u.status.err = v.status.err ∧ u.errCode = v.errCode ∧ u.errInfo = v.errInfo ∧
      u.status.stage = v.status.stage ∧
      (∀ sp ∈ done ++ stages.map CompressStage.dest, SameBelow sp u v) ∧
      (Space.node ∈ done ++ stages.map CompressStage.dest → u.root = v.root) := by
  induction stages generalizing done s t with
  | nil =>
    refine ⟨h.err, h.code, h.info, h.stage, fun sp hsp => ?_, fun hn => h.root (by simpa using hn)⟩
    exact (h.same sp (by simpa using hsp)).touches (touches_complete s) (touches_complete t) (by simp)
  | cons st later ih =>
    have hs := h.setStage st.number
    rcases hs.stage_step hr.1 (text_ne_dest st) with ⟨e, h1, h2⟩ | ⟨u, v, h1, h2, h3⟩
    · have r1 : Machine.runStages (st :: later) s = stageFailure st later s e := by rw [runStages_error h1]; rfl
      have r2 : Machine.runStages (st :: later) t = stageFailure st later t e := by rw [runStages_error h2]; rfl
      simp only [r1, r2]
      obtain ⟨f1, f2, f3, f4, -, f6⟩ := stageFailure_spec (failed := st) (later := later) (e := e) h.ok_left
      obtain ⟨g1, g2, g3, g4, -, g6⟩ := stageFailure_spec (failed := st) (later := later) (e := e) h.ok_right
      refine ⟨f1.2.2.1.trans g1.2.2.1.symm, f1.2.2.2.1.trans g1.2.2.2.1.symm,
        f1.2.2.2.2.trans g1.2.2.2.2.symm, f2.trans g2.symm, fun sp hsp => ?_, fun hn => ?_⟩
      · by_cases hm : sp ∈ (st :: later).map CompressStage.dest
        · obtain ⟨l, hl, rfl⟩ := List.mem_map.1 hm
          refine ⟨(f4 l hl).trans (g4 l hl).symm, fun a ha => ?_⟩
          rw [f4 l hl] at ha
          simp at ha
        · rcases List.mem_append.1 hsp with hx | hx
          · exact (h.same sp hx).touches f3 g3 hm
          · exact absurd hx hm
      · by_cases hm : Space.node ∈ (st :: later).map CompressStage.dest
        · exact (f6 hm).trans (g6 hm).symm
        · rcases List.mem_append.1 hn with hx | hx
          · rw [f3.root hm, g3.root hm]; exact h.root hx
          · exact absurd hx hm
    · have := ih h3 hr.2
      simp only [runStages_ok h1, runStages_ok h2]
      obtain ⟨a1, a2, a3, a4, a5, a6⟩ := this
      exact ⟨a1, a2, a3, a4, fun sp hsp => a5 sp (by simp at hsp ⊢; tauto), fun hn => a6 (by simp at hn ⊢; tauto)⟩

/-- A command with one destination on two states that agree on its sources (R148). -/
theorem exec_single_same {i : Instr} {s t : State} {dest : Space} {body : State → Except CmdError State}
    (hs : s.Accepted i) (ht : t.Accepted i) (hi : i ≠ .compress) (hp : s.params = t.params)
    (es : exec i s = .next (s.runBody dest body)) (et : exec i t = .next (t.runBody dest body))
    (hdest : dests i = [dest]) (hroot : writesRoot i = true → dest = .node)
    (h : SameResult dest s t (body s) (body t)) :
    ∃ s' t', exec i s = .next s' ∧ exec i t = .next t' ∧ s'.status.err = t'.status.err ∧
      s'.errCode = t'.errCode ∧ s'.errInfo = t'.errInfo ∧ s'.status.stage = t'.status.stage ∧
      (∀ sp ∈ dests i, s'.len sp = t'.len sp ∧
        ∀ a, a < (s'.len sp).toNat * sp.stride s.params → s'.word sp a = t'.word sp a) ∧
      (writesRoot i = true → s'.root = t'.root) := by
  obtain ⟨u, u1, u2, u3, -, -, u4, -⟩ := exec_accepted hs
  obtain ⟨v, v1, v2, v3, -, -, v4, -⟩ := exec_accepted ht
  rw [es] at u1; cases u1
  rw [et] at v1; cases v1
  obtain ⟨c1, -, c3, c4⟩ := hs.clear
  obtain ⟨d1, -, d3, d4⟩ := ht.clear
  obtain ⟨a1, a2, a3, a4, a5⟩ := runBody_same hp h (c1.trans d1.symm) (c3.trans d3.symm) (c4.trans d4.symm)
  refine ⟨_, _, es, et, a1, a2, a3, (u4 hi).trans (v4 hi).symm, fun sp hsp => ?_, fun hw => a5 (hroot hw)⟩
  rw [hdest, List.mem_singleton] at hsp
  subst hsp
  refine ⟨a4.1, fun a ha => a4.2 a ?_⟩
  rw [u3.control.1]; exact ha

end Sys2Proof.Machine
end

