-- ==== Sys2Proof/Laws/Walks.lean ====
section
/-! SUPPORT. The decoder on any nodes and any bits: what a walk does, and the five ways DECODE ends
(R121 to R124). -/

namespace Sys2Proof.Machine

open Sys2Proof

theorem Path.snoc {ns : List TreeNode} {p q : Word} {bs : List Bool} {m : TreeNode}
    (h : Path ns p bs q) (hm : nodeOf ns q = some m) (hk : m.kind = .internal) (b : Bool) :
    Path ns p (bs ++ [b]) (if b then m.right else m.left) := by
  induction h with
  | nil p => exact .cons hm hk (.nil _)
  | cons hn hk' _ ih => exact .cons hn hk' (ih hm)

theorem Emits.snoc {ns : List TreeNode} {root q : Word} {us path : List Bool} {xs : List Word}
    {m : TreeNode} (h : Emits ns root xs us) (hne : path ≠ []) (hp : Path ns root path q)
    (hm : nodeOf ns q = some m) (hk : m.kind = .leaf) :
    Emits ns root (xs ++ [m.sym]) (us ++ path) := by
  induction h with
  | nil => simpa using Emits.cons hne hp hm hk .nil
  | cons h1 h2 h3 h4 _ ih => simpa using Emits.cons h1 h2 h3 h4 ih

/-- The decoder along a path of at least one bit. -/
theorem decodeFrom_path {cap : Nat} {ns : List TreeNode} {root n m : TreeNode} {p q : Word}
    {bs : List Bool} (h : Path ns p bs q) (hne : bs ≠ []) (hn : nodeOf ns p = some n)
    (hm : nodeOf ns q = some m) (rest : List Bool) (i : Nat) (mid : Bool) (out : List Word) :
    decodeFrom cap ns root (bs ++ rest) i n mid out =
      if m.kind = .leaf then
        if out.length = cap then .error (.capacityOverflow .outText)
        else decodeFrom cap ns root rest (i + bs.length) root false (out ++ [m.sym])
      else decodeFrom cap ns root rest (i + bs.length) m true out := by
  induction h generalizing n i mid with
  | nil p => exact absurd rfl hne
  | cons hn' hk hp ih =>
    rw [hn] at hn'; cases hn'
    rename_i q' b bs'
    rw [List.cons_append]
    cases hp with
    | nil =>
      simp only [decodeFrom, hk, hm, List.nil_append, List.length_cons, List.length_nil]
      cases hmk : m.kind <;> simp
    | cons hc hck hp' =>
      rename_i c b' bs''
      simp only [decodeFrom, hk, hc, hck]
      rw [ih (by simp) hc hm]
      simp only [List.length_cons]
      rw [show i + 1 + (bs''.length + 1) = i + (bs''.length + 1 + 1) by omega]

/-- The decoder on whole walks. -/
theorem decodeFrom_emits {cap : Nat} {ns : List TreeNode} {n : TreeNode} {root : Word}
    {us : List Bool} {xs : List Word} (h : Emits ns root xs us) (hn : nodeOf ns root = some n)
    (rest : List Bool) (i : Nat) (out : List Word) (hc : out.length + xs.length ≤ cap) :
    decodeFrom cap ns n (us ++ rest) i n false out =
      decodeFrom cap ns n rest (i + us.length) n false (out ++ xs) := by
  induction h generalizing i out with
  | nil => simp
  | cons hne hp hm hk _ ih =>
    simp only [List.length_cons] at hc
    rw [List.append_assoc, decodeFrom_path hp hne hn hm, if_pos hk, if_neg (by omega),
      ih _ _ (by simp; omega)]
    simp [Nat.add_assoc]

/-- A bit into a missing child, or off a Leaf (R123). -/
theorem decodeFrom_missing {cap : Nat} {ns : List TreeNode} {root m : TreeNode} (b : Bool)
    (hm : (m.kind = .internal ∧ nodeOf ns (if b then m.right else m.left) = none) ∨ m.kind = .leaf)
    (rest : List Bool) (i : Nat) (mid : Bool) (out : List Word) :
    decodeFrom cap ns root (b :: rest) i m mid out = .error (.malformedBitStream true i) := by
  rcases hm with ⟨h1, h2⟩ | h1
  · simp [decodeFrom, h1, h2]
  · simp [decodeFrom, h1]

/-- The four ways the loop of R121 ends, from any position of it: after whole walks `us` that gave
`xs`, on the way `vs` to node `m`. -/
theorem decodeFrom_outcomes {cap : Nat} {ns : List TreeNode} {n : TreeNode} {root : Word}
    (hn : nodeOf ns root = some n) (bs : List Bool) {us vs : List Bool} {xs : List Word} {q : Word}
    {m : TreeNode} (hu : Emits ns root xs us) (hc : xs.length ≤ cap) (hp : Path ns root vs q)
    (hm : nodeOf ns q = some m) (hk : vs ≠ [] → m.kind = .internal) :
    (∃ ys, decodeFrom cap ns n bs (us.length + vs.length) m (decide (vs ≠ [])) xs = .ok ys ∧
        Emits ns root ys (us ++ vs ++ bs) ∧ ys.length ≤ cap) ∨
      (∃ ys us' vs' q' m', decodeFrom cap ns n bs (us.length + vs.length) m (decide (vs ≠ [])) xs =
          .error (.malformedBitStream false (us ++ vs ++ bs).length) ∧
        us ++ vs ++ bs = us' ++ vs' ∧ vs' ≠ [] ∧ Emits ns root ys us' ∧ ys.length ≤ cap ∧
        Path ns root vs' q' ∧ nodeOf ns q' = some m' ∧ m'.kind = .internal) ∨
      (∃ ys us' vs' b rest q' m',
        decodeFrom cap ns n bs (us.length + vs.length) m (decide (vs ≠ [])) xs =
          .error (.malformedBitStream true (us' ++ vs').length) ∧
        us ++ vs ++ bs = us' ++ vs' ++ b :: rest ∧ Emits ns root ys us' ∧ ys.length ≤ cap ∧
        Path ns root vs' q' ∧ nodeOf ns q' = some m' ∧
        ((m'.kind = .internal ∧ nodeOf ns (if b then m'.right else m'.left) = none) ∨
          (m'.kind = .leaf ∧ vs' = []))) ∨
      (∃ ys us' vs' rest q' m',
        decodeFrom cap ns n bs (us.length + vs.length) m (decide (vs ≠ [])) xs =
          .error (.capacityOverflow .outText) ∧
        us ++ vs ++ bs = us' ++ vs' ++ rest ∧ vs' ≠ [] ∧ Emits ns root ys us' ∧ ys.length = cap ∧
        Path ns root vs' q' ∧ nodeOf ns q' = some m' ∧ m'.kind = .leaf) := by
  induction bs generalizing us vs xs q m with
  | nil =>
    by_cases hv : vs = []
    · subst hv
      exact .inl ⟨xs, by simp [decodeFrom], by simpa using hu, hc⟩
    · exact .inr (.inl ⟨xs, us, vs, q, m, by simp [decodeFrom, hv], by simp, hv, hu, hc, hp, hm,
        hk hv⟩)
  | cons b bs ih =>
    cases hmk : m.kind with
    | leaf =>
      have hv : vs = [] := by
        by_contra hv
        rw [hk hv] at hmk; cases hmk
      subst hv
      exact .inr (.inr (.inl ⟨xs, us, [], b, bs, q, m, by
        rw [decodeFrom_missing b (.inr hmk)]; simp, by simp, hu, hc, hp, hm, .inr ⟨hmk, rfl⟩⟩))
    | internal =>
      cases hch : nodeOf ns (if b then m.right else m.left) with
      | none =>
        exact .inr (.inr (.inl ⟨xs, us, vs, b, bs, q, m, by
          rw [decodeFrom_missing b (.inl ⟨hmk, hch⟩)]; simp, by simp, hu, hc, hp, hm,
          .inl ⟨hmk, hch⟩⟩))
      | some c =>
        have hp' := hp.snoc hm hmk b
        have hlen : us.length + (vs ++ [b]).length = us.length + vs.length + 1 := by simp; omega
        have happ : us ++ (vs ++ [b]) ++ bs = us ++ vs ++ b :: bs := by simp
        cases hck : c.kind with
        | internal =>
          have := ih hu hc hp' hch fun _ => hck
          rw [hlen, happ, show decide (vs ++ [b] ≠ []) = true by simp] at this
          simpa only [decodeFrom, hmk, hch, hck] using this
        | leaf =>
          by_cases hfull : xs.length = cap
          · exact .inr (.inr (.inr ⟨xs, us, vs ++ [b], bs, _, c, by
              simp [decodeFrom, hmk, hch, hck, hfull], happ.symm, by simp, hu, hfull, hp', hch,
              hck⟩))
          · have hu' := hu.snoc (by simp) hp' hch hck
            have := ih (vs := []) hu' (by simp; omega) (.nil root) hn fun h => absurd rfl h
            rw [List.length_append, List.length_nil, Nat.add_zero, hlen, List.append_nil, happ,
              show decide (([] : List Bool) ≠ []) = false by simp] at this
            simpa only [decodeFrom, hmk, hch, hck, hfull, if_false] using this

/-- DECODE's result on whole walks. -/
theorem decodeBits_emits {cap : Nat} {ns : List TreeNode} {n : TreeNode} {root : Word}
    {bs : List Bool} {xs : List Word} (hn : nodeOf ns root = some n) (h : Emits ns root xs bs)
    (hc : xs.length ≤ cap) : decodeBits cap ns root bs = .ok xs := by
  have := decodeFrom_emits h hn [] 0 [] (by simpa using hc)
  simp only [List.append_nil, List.nil_append] at this
  simp [decodeBits, hn, this, decodeFrom]

/-! ## The traversal of CODES and its paths -/

/-- Every entry of a tree's table is a path to a Leaf. -/
theorem Represents.table_path {ns : List TreeNode} {T : HTree} {p : Word} (h : Represents ns p T)
    {e : CodeEntry} (he : e ∈ T.table) :
    ∃ q m, Path ns p e.bits q ∧ nodeOf ns q = some m ∧ m.kind = .leaf := by
  induction T generalizing p e with
  | leaf x =>
    obtain ⟨n, h1, h2, -⟩ := h
    simp [HTree.table] at he
    subst he
    exact ⟨p, n, .nil p, h1, h2⟩
  | node l r ihl ihr =>
    obtain ⟨n, h1, h2, h3, h4⟩ := h
    simp only [HTree.table, List.mem_append, List.mem_map] at he
    rcases he with ⟨d, hd, rfl⟩ | ⟨d, hd, rfl⟩
    · obtain ⟨q, m, g1, g2⟩ := ihl h3 hd
      exact ⟨q, m, .cons h1 h2 g1, g2⟩
    · obtain ⟨q, m, g1, g2⟩ := ihr h4 hd
      exact ⟨q, m, .cons h1 h2 g1, g2⟩

/-- The codes of a tree's table are different. -/
theorem HTree.table_bits_nodup (T : HTree) : (T.table.map CodeEntry.bits).Nodup := by
  refine List.pairwise_map.2 (T.table_prefix_free.imp fun {a b} h he => h.1 ?_)
  rw [he]

/-- The traversal comes along a path, and what it has recorded are paths to leaves, no longer than
the room, all different from one another and from its own. -/
theorem WalkedTo.paths {ns : List TreeNode} {p q : Word} {room : Nat} {path : List Bool}
    {done : List CodeEntry} (h : WalkedTo ns p room q path done) :
    Path ns p path q ∧ (path :: done.map CodeEntry.bits).Nodup ∧
      ∀ e ∈ done, e.bits.length ≤ room ∧
        ∃ r l, Path ns p e.bits r ∧ nodeOf ns r = some l ∧ l.kind = .leaf := by
  induction h with
  | here p room => exact ⟨.nil p, by simp, by simp⟩
  | @left p q room n path done hn hk _ ih =>
    obtain ⟨h1, h2, h3⟩ := ih
    refine ⟨.cons hn hk h1, ?_, fun e he => ?_⟩
    · have := h2.map (f := (false :: ·)) (fun a b hab => by simpa using hab)
      simpa [List.map_map, Function.comp_def] using this
    · obtain ⟨d, hd, rfl⟩ := List.mem_map.1 he
      obtain ⟨g1, r, l, g2, g3⟩ := h3 d hd
      exact ⟨by simpa using g1, r, l, .cons hn hk g2, g3⟩
  | @right p q room n L path done hn hk hL hh _ ih =>
    obtain ⟨h1, h2, h3⟩ := ih
    refine ⟨.cons hn hk h1, ?_, fun e he => ?_⟩
    · have g1 := h2.map (f := (true :: ·)) (fun a b hab => by simpa using hab)
      have g2 := L.table_bits_nodup.map (f := (false :: ·)) (fun a b hab => by simpa using hab)
      have g3 := List.nodup_append.2 ⟨g2, g1, fun a ha b hb => by
        obtain ⟨c, -, rfl⟩ := List.mem_map.1 ha
        obtain ⟨d, -, rfl⟩ := List.mem_map.1 hb
        simp⟩
      have g4 := (List.perm_middle).nodup_iff.1 g3
      simpa [List.map_map, Function.comp_def] using g4
    · rcases List.mem_append.1 he with he | he
      · obtain ⟨d, hd, rfl⟩ := List.mem_map.1 he
        obtain ⟨r, l, g2, g3⟩ := hL.table_path hd
        have := HTree.bits_length_le hd
        exact ⟨by simp only [List.length_cons]; omega, r, l, .cons hn hk g2, g3⟩
      · obtain ⟨d, hd, rfl⟩ := List.mem_map.1 he
        obtain ⟨g1, r, l, g2, g3⟩ := h3 d hd
        exact ⟨by simpa using g1, r, l, .cons hn hk g2, g3⟩

end Sys2Proof.Machine
end

