-- ==== Sys2Proof/Laws/Command.lean ====
section
/-! SUPPORT. Whole commands as the statements need them: the parameters under every step, the words of
STATUS and CTRL, `run COMMAND` on an idle machine, and COMPRESS from end to end. -/

namespace Sys2Proof.Machine

open Sys2Proof

/-- No stage changes the parameters. -/
theorem CompressStage.body_params {st : CompressStage} {s t : State} (h : st.body s = .ok t) :
    t.params = s.params := by
  cases st <;> simp only [CompressStage.body, freqBody, buildBody, codesBody, encodeBody] at h <;>
    split at h <;> cases h <;> simp

/-- Nor does a command with one destination. -/
theorem runBody_params {dest : Space} {body : State → Except CmdError State} {s : State}
    (h : ∀ t, body s = .ok t → t.params = s.params) : (s.runBody dest body).params = s.params := by
  cases hb : body s with
  | ok t => rw [runBody_ok hb]; simpa using h t hb
  | error e => rw [runBody_error hb]; simp

/-- Nor does emptying destinations. -/
theorem emptyLater_params (later : List CompressStage) (s : State) :
    (later.foldl (fun u l => u.emptyDest l.dest) s).params = s.params := by
  induction later generalizing s with
  | nil => rfl
  | cons l later ih => simp [ih]

/-- Nor does COMPRESS. -/
theorem runStages_params (stages : List CompressStage) (s : State) :
    (runStages stages s).params = s.params := by
  induction stages generalizing s with
  | nil => rfl
  | cons st later ih =>
    cases h : st.body (s.setStage st.number) with
    | ok t => rw [runStages_ok h, ih]; simpa using CompressStage.body_params h
    | error e => rw [runStages_error h]; simp [emptyLater_params]

/-- No command changes the parameters (R29). -/
theorem exec_params {i : Instr} {s t : State} (h : exec i s = .next t) : t.params = s.params := by
  cases i <;> simp only [exec, execNop, execFreq, execBuild, execCodes, execEncode, execCompress,
    execPack, execUnpack, execToHex, execDecode, execClear, Host.Outcome.next.injEq] at h <;>
    subst h
  case nop => rfl
  case compress => exact runStages_params _ _
  case clear => simp [clearAll, Space.all]
  all_goals
    refine runBody_params fun t ht => ?_
    simp only [freqBody, buildBody, codesBody, encodeBody, packBody, unpackBody, toHexBody, decodeBody] at ht
  case pack => cases ht; simp
  case unpack => cases ht; simp
  case toHex => cases ht; simp
  all_goals
    split at ht <;> cases ht <;> simp

/-- Nor does the engine's step. -/
theorem engineStep_params {s t : State} (h : engineStep s = .next t) : t.params = s.params := by
  unfold engineStep at h
  split at h
  · split at h
    · exact exec_params h
    · cases h
  · cases h; rfl

/-- Nor does a host write. -/
theorem hostWrite_params {s t : State} {a v : Word} (h : s.hostWrite a v = some t) :
    t.params = s.params := by
  rcases hostWrite_spec h with ⟨-, -, rfl⟩ | ⟨-, rfl⟩ | ⟨-, rfl⟩ | ⟨-, -, rfl⟩ |
    ⟨_, -, -, -, -, -, rfl⟩ | ⟨_, -, -, -, -, -, rfl⟩ <;> simp

/-- No step changes the parameters (R29). -/
theorem step_params {s t : State} (h : step s = .next t) : t.params = s.params := by
  unfold step at h
  split at h
  · exact engineStep_params h
  · rename_i e rest _
    cases e with
    | read a =>
      simp only [takeEvent, Host.Outcome.next.injEq] at h
      rw [← h]; unfold readTransaction; split <;> rfl
    | write a v =>
      simp only [takeEvent, Host.Outcome.next.injEq] at h
      rw [← h]; unfold writeTransaction
      split
      · rename_i t' ht; exact (hostWrite_params (s := { s with inbox := rest }) ht : t'.params = _)
      · rfl
    | engine => exact engineStep_params (s := { s with inbox := rest }) h
    | progress =>
      simp only [takeEvent, Host.Outcome.next.injEq] at h
      rw [← h]
      rcases compressProgress_spec { s with inbox := rest } with he | ⟨he, -⟩ <;> rw [he] <;> rfl
    | rst => cases h; rfl

/-- STATUS, field by field (R23). -/
theorem status_word (f : Status) : f.word.getLsbD 0 = f.busy ∧
      f.word.getLsbD 1 = f.done ∧ f.word.getLsbD 2 = f.err ∧ f.word.getLsbD 3 = false ∧
      f.word.extractLsb' 4 4 = f.op ∧ f.word.extractLsb' 8 4 = f.stage ∧
      f.word.extractLsb' 12 20 = 0 := by
  obtain ⟨b, d, e, op, st⟩ := f
  refine ⟨?_, ?_, ?_, ?_, ?_, ?_, ?_⟩
  · simp only [Status.word, BitVec.getLsbD_append]; cases b <;> simp
  · simp only [Status.word, BitVec.getLsbD_append]; cases d <;> simp
  · simp only [Status.word, BitVec.getLsbD_append]; cases e <;> simp
  · simp only [Status.word, BitVec.getLsbD_append]; simp
  · apply BitVec.eq_of_getLsbD_eq
    intro k hk
    simp only [Status.word, BitVec.getLsbD_append, BitVec.getLsbD_extractLsb']
    interval_cases k <;> simp
  · apply BitVec.eq_of_getLsbD_eq
    intro k hk
    simp only [Status.word, BitVec.getLsbD_append, BitVec.getLsbD_extractLsb']
    interval_cases k <;> simp
  · apply BitVec.eq_of_getLsbD_eq
    intro k hk
    simp only [Status.word, BitVec.getLsbD_append, BitVec.getLsbD_extractLsb']
    interval_cases k <;> simp

/-- CTRL, field by field (R26). -/
theorem ctrl_word (c : Ctrl) : c.word.getLsbD 0 = c.ie ∧ c.word.extractLsb' 1 31 = 0 := by
  obtain ⟨b⟩ := c
  cases b <;> decide

/-- A CODE entry takes at least three words (R46). -/
theorem stride_ge {p : Params} (h : p.Legal) : 3 ≤ p.codeStride := by
  have := h.2.2.2.1.1
  simp only [Params.codeStride, Params.codeWords]; omega

/-- A node's first word in its layout: KIND and SYM (R45). -/
theorem nodeHead_low {n : Nat} (hn : n ≤ 31) (v : Word) :
    ((v &&& kindBit) ||| lowBits n v).getLsbD 31 = v.getLsbD 31 ∧
    ((v &&& kindBit) ||| lowBits n v).toNat % 2 ^ 31 = v.toNat % 2 ^ n := by
  have h31 : ∀ k, k < 32 → kindBit.getLsbD k = decide (k = 31) := by decide
  constructor
  · simp only [lowBits_getLsbD, BitVec.getLsbD_or, BitVec.getLsbD_and, h31 31 (by omega)]
    simp
  · have h : ((v &&& kindBit) ||| lowBits n v).setWidth 31 = (lowBits n v).setWidth 31 := by
      apply BitVec.eq_of_getLsbD_eq
      intro k hk
      simp only [BitVec.getLsbD_setWidth, BitVec.getLsbD_or, BitVec.getLsbD_and, h31 k (by omega)]
      simp [show k ≠ 31 by omega]
    have h' := congrArg BitVec.toNat h
    rw [BitVec.toNat_setWidth, BitVec.toNat_setWidth, lowBits_toNat] at h'
    rw [h']
    have h1 := Nat.mod_lt v.toNat (show 2 ^ n > 0 by positivity)
    have h2 : 2 ^ n ≤ 2 ^ 31 := Nat.pow_le_pow_right (by norm_num) hn
    exact Nat.mod_eq_of_lt (by omega)

/-- What a host write to CMD does (R66). -/
theorem hostWrite_cmd (s : State) (w : Word) : s.hostWrite (addressOf 0 0x01) w =
    if s.status.busy then none else some (s.accept w) := by
  rw [hostWrite_reg _ (by norm_num)]; simp [regAt, State.writeReg]

/-- STAGE at acceptance (R66). -/
theorem encode_compress_iff (w : Word) : firstStage w = if w = 0x5 then 0x1 else w.extractLsb' 0 4 := by
  unfold firstStage
  rw [show encode .compress = 0x5 from rfl]; rfl

/-- The two ways a word is illegal (R64). -/
theorem illegal_iff (w : Word) : (w.extractLsb' 4 28 ≠ 0 ∨ 0xB ≤ (w.extractLsb' 0 4).toNat) → 0xA < w.toNat := by
  intro h
  have h1 := rsvd_eq_zero w
  have h2 := (fields_toNat w).2
  rcases h with h | h
  · by_contra hh
    exact h (h1.2 (by omega))
  · have : (fieldsOf w).opcode = w.extractLsb' 0 4 := rfl
    rw [← this] at h
    omega

/-- A busy machine whose word decodes to `i` has accepted `i`. -/
theorem exec_of_busy {s : State} (hs : s.Inv) (hb : s.status.busy = true) {i : Instr}
    (hd : decode s.cmd = .ok i) (ib : List PortEvent) : State.Accepted { s with inbox := ib } i :=
  ⟨hs.congr_host ib s.resp, hb, decode_eq_ok.1 hd⟩

/-- A command changes no word outside its destinations (R149). -/
theorem exec_word {i : Instr} {s t : State} (h : s.Accepted i) (he : exec i s = .next t) {sp : Space}
    (hsp : i = .clear ∨ sp ∉ dests i) (a : Nat) : t.word sp a = s.word sp a := by
  rcases hsp with rfl | hsp
  · cases he; simp [clearAll_word]
  · obtain ⟨t', h1, -, h3, -⟩ := exec_accepted h
    rw [h1] at he; cases he
    exact (h3.outside sp hsp).2 a

/-- The hex digits (R116). -/
theorem hexDigit_toNat (d : Nat) (h : d < 16) : (hexDigit d).toNat = if d < 10 then 0x30 + d else 0x61 + d - 10 := by
  interval_cases d <;> rfl

/-- DECODE when the walks succeed. -/
theorem decode_ok {s : State} (ha : s.Accepted .decode) {xs : List Word}
    (h : decodeBits s.params.outCap s.nodes s.root s.bitString = .ok xs) :
    ∃ t, exec .decode s = .next t ∧ Succeeded t ∧ t.status.stage = 9 ∧ t.outText = xs ∧
      t.outLen.toNat = xs.length ∧ Frame [.out] s t ∧ SameAbove .out s t := by
  obtain ⟨h1, h2, h3⟩ := decodeBody_ok ha.inv.toDataOk h
  obtain ⟨g1, g2, g3, g4, g5⟩ := runBody_succeeds ha (by simp) h1 (decodeBody_delivers ha.inv.toDataOk h1)
  refine ⟨_, congrArg Host.Outcome.next g1, g2, g3, h2, ?_, g4, g5⟩
  rw [← (State.value_lengths _).2.2.2.2.2.2.2]
  exact congrArg List.length h2

/-- DECODE when the walks fail. -/
theorem decode_error {s : State} {e : CmdError}
    (h : decodeBits s.params.outCap s.nodes s.root s.bitString = .error e) :
    ∃ t, exec .decode s = .next t ∧ FailedAs e.code e.info t ∧ t.outLen = 0 ∧ Frame [.out] s t := by
  have hb : decodeBody s = .error e := by simp [decodeBody, h]
  obtain ⟨g1, g2, g3, g4, g5, g6⟩ := runBody_fails (s := s) (dest := .out) hb
  exact ⟨_, congrArg Host.Outcome.next g1, g2, g3, g5⟩

/-- BITLEN is the length of the BitString (R16). -/
theorem bitlen (s : State) : s.bitString.length = s.bitLen.toNat := s.value_lengths.2.2.2.2.1

/-- No bits. -/
theorem bits_nil {s : State} (h : s.bitLen = 0) : s.bitString = [] := by
  rw [← List.length_eq_zero_iff, bitlen, h]; rfl

/-- The stages of COMPRESS have four different destinations. -/
theorem nodup_order : (CompressStage.order.map CompressStage.dest).Nodup := by decide

/-- COMPRESS is its stages (R103). -/
theorem exec_compress (s : State) : exec .compress s = .next (runStages CompressStage.order s) := rfl

/-- COMPRESS when all four stages succeed. -/
theorem ran_done {s u : State} (ha : s.Accepted .compress) (h : RanThrough CompressStage.order s u) :
    exec .compress s = .next u.complete ∧ Succeeded u.complete ∧ Frame [.freq, .node, .code, .bits] s u.complete ∧
    ∀ e : CompressStage, SameAbove e.dest s u.complete := by
  obtain ⟨c1, -, c3, c4⟩ := ha.clear
  obtain ⟨h1, h2, h3, h4, h5⟩ := h.spec ha.inv.toDataOk
  have hr := runStages_ran h []
  rw [List.append_nil] at hr
  refine ⟨?_, ⟨rfl, rfl, ?_, ?_, ?_⟩, ?_, fun e a hh => ?_⟩
  · rw [exec_compress, hr]; rfl
  · simp [Status.complete, h3, c1]
  · simp [h4, c3]
  · simp [h5, c4]
  · exact (h1.trans ((touches_complete u).mono (by simp))).frame
  · have := h.sameAbove ha.inv.toDataOk nodup_order (e := e) (by cases e <;> decide) a (by simpa using hh)
    simpa using this

/-- The empty text. -/
theorem text_nil_iff (s : State) : s.text = [] ↔ s.textLen = 0 := by
  rw [← List.length_eq_zero_iff, s.value_lengths.1]
  constructor
  · intro h; exact BitVec.eq_of_toNat_eq h
  · intro h; rw [h]; rfl

/-- COMPRESS when it succeeds: the map, the tree, the table and the bits. -/
theorem compress_ok {s t : State} (ha : s.Accepted .compress) (hex : exec .compress s = .next t) (herr : t.status.err = false) :
    ∃ es ns r T u, IsFrequencyMap s.text es ∧ IsHuffmanTree es ns r ∧ s.text ≠ [] ∧ T.symbols.Perm (es.map FreqEntry.sym) ∧
      RanThrough CompressStage.order s u ∧ t = u.complete ∧ t.freqMap = es ∧ t.nodes = ns ∧ t.HasTree T ∧ t.codeTable = T.table ∧
      t.bitString = codeBits T.table s.text ∧ Covers T.table s.text ∧ t.text = s.text := by
  have hd := ha.inv.toDataOk
  rcases compress_cases hd with ⟨h, h1⟩ | ⟨h, a, h1, h2, h3⟩ | ⟨es, ns, r, T, hes, hc, hns, hT, hne, hperm, hlc, h⟩
  · rw [exec_compress, h1] at hex; cases hex; cases herr
  · rw [exec_compress, h3] at hex; cases hex; cases herr
  · rcases h with ⟨hh, b, hb, h1⟩ | ⟨hh, hl, c, hc', h1, h2⟩ | ⟨hh, hl⟩
    · rw [exec_compress, h1] at hex; cases hex; cases herr
    · rw [exec_compress, h2] at hex; cases hex; cases herr
    · obtain ⟨d, h1, h2, h3, h4, h5, h6, h7, h8, h9⟩ := ranEncode hd hes hc hne hns hT hh hl
      obtain ⟨g1, g2, -⟩ := ran_done ha h1
      rw [g1] at hex; cases hex
      refine ⟨es, ns, r, T, d, hes, hns, hne, hperm, h1, rfl, h2, h4, ?_, h6, h7, h9, h3⟩
      change Represents d.nodes d.root T
      rw [h4, h5]; exact hT

/-- The length of the BitString, summed over the map (R102). -/
theorem codeBits_length_sum {tbl : List CodeEntry} {text : List Word} {es : List FreqEntry} (hes : IsFrequencyMap text es) :
    (codeBits tbl text).length = (es.map fun e => e.cnt * (codeBits tbl [e.sym]).length).sum := by
  have h1 : (codeBits tbl text).length = (text.map fun x => (codeBits tbl [x]).length).sum := by
    clear hes
    induction text with
    | nil => rfl
    | cons x xs ih =>
      rw [show x :: xs = [x] ++ xs from rfl, codeBits_append, List.length_append, ih]; simp
  have h2 : (es.map fun e => e.cnt * (codeBits tbl [e.sym]).length).sum = ((es.map FreqEntry.sym).map fun x => text.count x * (codeBits tbl [x]).length).sum := by
    rw [List.map_map]
    congr 1
    refine List.map_congr_left fun e he => ?_
    simp [hes.values e he]
  rw [h1, h2]
  have hf : (es.map FreqEntry.sym).toFinset = text.toFinset := by
    ext x; rw [List.mem_toFinset, List.mem_toFinset]; exact hes.keys_exact x
  rw [Finset.sum_list_map_count, ← hf, List.sum_toFinset _ hes.keys_distinct]
  simp

/-- The flags after a stage run as a command. -/
theorem command_status {st : CompressStage} {s t : State} (hd : s.DataOk) (h : st.body s = .ok t) :
    t.complete.status = { s.status with busy := false, done := true } := by
  have := (CompressStage.delivers hd h).status.1
  simp [Status.complete, this]

/-- Emptying destinations leaves the flags. -/
theorem emptyDest2_status (u : State) (l : List CompressStage) : (l.foldl (fun u l => u.emptyDest l.dest) u).status = u.status := by
  induction l generalizing u with
  | nil => rfl
  | cons x l ih => rw [List.foldl_cons, ih]; simp

/-- Two ways to write STAGE. -/
theorem setStage_eq (u : State) (g : Status) (n : BitVec 4) (h : { u.status with stage := n } = g) : u.withStatus g = u.setStage n := by
  subst h; rfl

/-- Acceptance moves no data (R66). -/
theorem accept_values (s : State) (w : Word) : (s.accept w).text = s.text ∧ (s.accept w).nodes = s.nodes ∧
    (s.accept w).bitString = s.bitString ∧ (s.accept w).packedBytes = s.packedBytes ∧ (s.accept w).root = s.root ∧ (s.accept w).params = s.params :=
  ⟨State.text_congr (by simp) (by simp), State.nodes_congr (by simp) (by simp) (by simp), State.bitString_congr (by simp) (by simp),
   State.packedBytes_congr (by simp) (by simp), by simp, by simp⟩

/-- `run PACK` on an idle machine. -/
theorem pack_run {s : State} (hs : s.Inv) (hb : s.status.busy = false) :
    ∃ t, runCommand .pack s = .next t ∧ t.Inv ∧ Succeeded t ∧ t.packedBytes = packBits s.bitString ∧
      t.params = s.params ∧ t.root = s.root ∧ (∀ sp, sp ≠ .bytes → t.len sp = s.len sp ∧ ∀ a, t.word sp a = s.word sp a) := by
  have ha := accept_accepted hs hb .pack
  have hv := accept_values s (encode .pack)
  obtain ⟨h1, h2, h3⟩ := packBody_ok ha.inv.toDataOk
  obtain ⟨g1, g2, g3, g4, g5⟩ := runBody_succeeds ha (by simp) h1 (packBody_delivers ha.inv.toDataOk h1)
  obtain ⟨u, k1, k2, -⟩ := exec_accepted ha
  have hex : exec .pack (s.accept (encode .pack)) = .next _ := congrArg Host.Outcome.next g1
  rw [hex] at k1; cases k1
  refine ⟨_, hex, k2, g2, h2.trans (by rw [hv.2.2.1]), ?_, ?_, fun sp hsp => ⟨?_, fun a => ?_⟩⟩
  · rw [g4.1.1]; simp
  · rw [g4.2.2 (by decide)]; simp
  · rw [(g4.2.1 sp (by simpa using hsp)).1]; simp
  · rw [(g4.2.1 sp (by simpa using hsp)).2]; simp

/-- `run UNPACK` on an idle machine. -/
theorem unpack_run {s : State} (hs : s.Inv) (hb : s.status.busy = false) :
    ∃ t, runCommand .unpack s = .next t ∧ t.Inv ∧ Succeeded t ∧ t.bitString = unpackBytes s.packedBytes ∧
      t.params = s.params ∧ t.root = s.root ∧ (∀ sp, sp ≠ .bits → t.len sp = s.len sp ∧ ∀ a, t.word sp a = s.word sp a) ∧
      SameAbove .bits s t := by
  have ha := accept_accepted hs hb .unpack
  have hv := accept_values s (encode .unpack)
  obtain ⟨h1, h2, h3⟩ := unpackBody_ok ha.inv.toDataOk
  obtain ⟨g1, g2, g3, g4, g5⟩ := runBody_succeeds ha (by simp) h1 (unpackBody_delivers ha.inv.toDataOk h1)
  obtain ⟨u, k1, k2, -⟩ := exec_accepted ha
  have hex : exec .unpack (s.accept (encode .unpack)) = .next _ := congrArg Host.Outcome.next g1
  rw [hex] at k1; cases k1
  refine ⟨_, hex, k2, g2, h2.trans (by rw [hv.2.2.2.1]), ?_, ?_, fun sp hsp => ⟨?_, fun a => ?_⟩, fun a hh => ?_⟩
  · rw [g4.1.1]; simp
  · rw [g4.2.2 (by decide)]; simp
  · rw [(g4.2.1 sp (by simpa using hsp)).1]; simp
  · rw [(g4.2.1 sp (by simpa using hsp)).2]; simp
  · rw [g5 a (by simpa using hh)]; simp

/-- A text with two distinct symbols gives a tree with two leaves. -/
theorem two_leaves {T : HTree} {es : List FreqEntry} {text : List Word} (hT : T.symbols.Perm (es.map FreqEntry.sym))
    (hes : IsFrequencyMap text es) (h2 : 2 ≤ text.dedup.length) : 2 ≤ T.leafCount := by
  rw [← T.symbols_length, hT.length_eq, List.length_map, hes.length_eq]; exact h2

/-- `run DECODE` on an idle machine. -/
theorem decode_run {s : State} (hs : s.Inv) (hb : s.status.busy = false) {xs : List Word}
    (h : decodeBits s.params.outCap s.nodes s.root s.bitString = .ok xs) :
    ∃ t, runCommand .decode s = .next t ∧ Succeeded t ∧ t.outText = xs ∧ t.outLen.toNat = xs.length := by
  have ha := accept_accepted hs hb .decode
  obtain ⟨v1, v2, v3, v4, v5, v6⟩ := accept_values s (encode .decode)
  obtain ⟨h1, h2, h3⟩ := decodeBody_ok (s := s.accept (encode .decode)) ha.inv.toDataOk (xs := xs) (by rw [v2, v3, v5, v6]; exact h)
  obtain ⟨g1, g2, g3, g4, g5⟩ := runBody_succeeds ha (by simp) h1 (decodeBody_delivers ha.inv.toDataOk h1)
  refine ⟨_, congrArg Host.Outcome.next g1, g2, h2, ?_⟩
  rw [← (State.value_lengths _).2.2.2.2.2.2.2]
  exact congrArg List.length h2

/-- Whole codes decode to their symbols (R121). -/
theorem decodeBits_spells {cap : Nat} {ns : List TreeNode} {root : Word} {T : HTree} (hT : Represents ns root T) (hl : 2 ≤ T.leafCount)
    {xs : List Word} {bs : List Bool} (hs : Spells T.table xs bs) (hc : xs.length ≤ cap) : decodeBits cap ns root bs = .ok xs := by
  obtain ⟨n, hn⟩ := hT.node
  have := decodeFrom_spells (cap := cap) hT hn hl hs [] 0 [] (by simpa using hc)
  simp only [List.append_nil, List.nil_append] at this
  simp [decodeBits, hn, this, decodeFrom]

/-- `run COMPRESS` on an idle machine, when it succeeds. -/
theorem compress_run {s a : State} (hs : s.Inv) (hb : s.status.busy = false) (h2 : 2 ≤ s.text.dedup.length)
    (hex : runCommand .compress s = .next a) (herr : a.status.err = false) :
    ∃ T, a.Inv ∧ a.status.busy = false ∧ a.params = s.params ∧ a.HasTree T ∧ 2 ≤ T.leafCount ∧ Spells T.table s.text a.bitString := by
  have ha := accept_accepted hs hb .compress
  obtain ⟨u, k1, k2, k3, k4, -⟩ := exec_accepted ha
  have := k1.symm.trans hex; cases this
  have hv := accept_values s (encode .compress)
  have hexc : ∀ s : State, exec .compress s = .next (runStages CompressStage.order s) := fun _ => rfl
  rw [hexc] at k1
  rcases compress_cases ha.inv.toDataOk with ⟨h, h1⟩ | ⟨h, a, h1, h2, h3⟩ | ⟨es, ns, r, T, hes, hc, hns, hT, hne, hperm, hlc, h⟩
  · rw [h1] at k1; cases k1; cases herr
  · rw [h3] at k1; cases k1; cases herr
  · rcases h with ⟨hh, b, hb, h1⟩ | ⟨hh, hl, c, hc', h1, h2⟩ | ⟨hh, hl⟩
    · rw [h1] at k1; cases k1; cases herr
    · rw [h2] at k1; cases k1; cases herr
    · obtain ⟨d, h1, d2, d3, d4, d5, d6, d7, d8, d9⟩ := ranEncode ha.inv.toDataOk hes hc hne hns hT hh hl
      have hr := runStages_ran h1 []
      rw [List.append_nil] at hr
      rw [hr] at k1; cases k1
      rw [hv.1] at *
      refine ⟨T, k2, rfl, ?_, ?_, two_leaves hperm hes h2, ?_⟩
      · rw [k3.control.1]; simp
      · change Represents d.nodes d.root T
        rw [d4, d5]; exact hT
      · change Spells T.table s.text d.bitString
        rw [d7]; exact spells_codeBits d9

/-- The commands with one destination. -/
theorem exec_oneDest (i : Instr) {s : State} (hd : s.DataOk) (h1 : i ≠ .nop) (h2 : i ≠ .clear)
    (h3 : i ≠ .compress) :
    ∃ dest body, exec i s = .next (s.runBody dest body) ∧ dests i = [dest] ∧
      (∀ t, body s = .ok t → Delivers dest s t) ∧ (dest = .node ↔ i = .build) := by
  cases i <;> simp only [ne_eq, not_true_eq_false] at h1 h2 h3
  · exact ⟨.freq, freqBody, rfl, rfl, fun t => freqBody_delivers hd, by simp⟩
  · exact ⟨.node, buildBody, rfl, rfl, fun t => buildBody_delivers hd, by simp⟩
  · exact ⟨.code, codesBody, rfl, rfl, fun t => codesBody_delivers hd, by simp⟩
  · exact ⟨.bits, encodeBody, rfl, rfl, fun t => encodeBody_delivers, by simp⟩
  · exact ⟨.bytes, packBody, rfl, rfl, fun t => packBody_delivers hd, by simp⟩
  · exact ⟨.bits, unpackBody, rfl, rfl, fun t => unpackBody_delivers hd, by simp⟩
  · exact ⟨.hex, toHexBody, rfl, rfl, fun t => toHexBody_delivers hd, by simp⟩
  · exact ⟨.out, decodeBody, rfl, rfl, fun t => decodeBody_delivers hd, by simp⟩

/-- ROOT is as before where the Tree is no destination. -/
theorem writesRoot_frame {i : Instr} {s t : State} (h : Touches (dests i) s t) (hw : writesRoot i = false) : t.root = s.root :=
  h.root (by cases i <;> simp_all [dests, writesRoot])

end Sys2Proof.Machine
end

