-- ==== Sys2Proof/Laws/PerInstr.lean ====
section
/-! SUPPORT. Per-instruction laws, one lemma per constructor: the command's word is its row of the
opcode map, the decoder gives the command back, and only that word decodes to it (R60, R61, R64,
R65). -/

namespace Sys2Proof.Laws.Encoding

open Sys2Proof Sys2Proof.Machine

/-- The command is well formed; its word has zeros in bits 31:4 and is a well-formed command word;
the decoder gives the command for that word and for no other. -/
def Statement (i : Instr) : Prop :=
  i.wellFormed = true ∧ (fieldsOf (encode i)).wellFormed = true ∧
    (fieldsOf (encode i)).rsvd = 0 ∧ (fieldsOf (encode i)).opcode = opcodeOf i ∧
    ∀ w : Word, decode w = .ok i ↔ w = encode i

theorem nop : Statement .nop := ⟨rfl, rfl, rfl, rfl, fun _ => decode_eq_ok⟩

theorem freq : Statement .freq := ⟨rfl, rfl, rfl, rfl, fun _ => decode_eq_ok⟩

theorem build : Statement .build := ⟨rfl, rfl, rfl, rfl, fun _ => decode_eq_ok⟩

theorem codes : Statement .codes := ⟨rfl, rfl, rfl, rfl, fun _ => decode_eq_ok⟩

theorem encode : Statement .encode := ⟨rfl, rfl, rfl, rfl, fun _ => decode_eq_ok⟩

theorem compress : Statement .compress := ⟨rfl, rfl, rfl, rfl, fun _ => decode_eq_ok⟩

theorem pack : Statement .pack := ⟨rfl, rfl, rfl, rfl, fun _ => decode_eq_ok⟩

theorem unpack : Statement .unpack := ⟨rfl, rfl, rfl, rfl, fun _ => decode_eq_ok⟩

theorem toHex : Statement .toHex := ⟨rfl, rfl, rfl, rfl, fun _ => decode_eq_ok⟩

theorem decode : Statement .decode := ⟨rfl, rfl, rfl, rfl, fun _ => decode_eq_ok⟩

theorem clear : Statement .clear := ⟨rfl, rfl, rfl, rfl, fun _ => decode_eq_ok⟩

end Sys2Proof.Laws.Encoding
end

