-- ==== Sys2Proof/Tests/Slice0.lean ====
section
/-! SUPPORT. The model's own tests: ill-formed terms that the checks refuse, command words written out
from R60 and R61, and vectors of 95_test_vectors.md. Expected results are the spec's. -/

namespace Sys2Proof.Tests

open Sys2Proof Sys2Proof.Machine

/-! ## Helpers -/

/-- The next state, if there is one. -/
def next? (o : Host.Outcome State Fault Refusal) : Option State :=
  match o with
  | .next s => some s
  | .fault _ | .refused _ => none

/-- The reset state of a block with other parameters. -/
def resetOf (p : Params) : State := { State.reset with params := p }

/-- Host writes, one after another; one that faults changes nothing. -/
def hostWrites (s : State) : List (Word × Word) → State
  | [] => s
  | w :: ws => hostWrites ((s.hostWrite w.1 w.2).getD s) ws

/-- `wr SPACE[i] = v` for consecutive word indices (R69). -/
def wrWords (sp i : Nat) : List Word → List (Word × Word)
  | [] => []
  | v :: vs => (addressOf sp i, v) :: wrWords sp (i + 1) vs

/-- `wr REG[r] = v` (R69). -/
def wrReg (r : Nat) (v : Word) : List (Word × Word) := [(addressOf 0 r, v)]

/-- `text "…"` (R70). -/
def wrText (xs : List Word) : List (Word × Word) :=
  wrWords 1 0 xs ++ wrReg 0x06 (BitVec.ofNat 32 xs.length)

/-- A FREQ table written by the host. -/
def wrFreq (es : List (Word × Word)) : List (Word × Word) :=
  wrWords 2 0 (es.flatMap fun e => [e.1, e.2]) ++ wrReg 0x07 (BitVec.ofNat 32 es.length)

/-- The four words of `leaf n sym f` (R70). -/
def leafW (sym f : Word) : List Word := [sym, f, 0xFFFFFFFF, 0xFFFFFFFF]

/-- The four words of `internal n f l r` (R70). -/
def internalW (f l r : Word) : List Word := [0x80000000, f, l, r]

/-- Nodes, NODEN and ROOT written by the host. -/
def wrTree (ns : List (List Word)) (root : Word) : List (Word × Word) :=
  wrWords 3 0 ns.flatten ++ wrReg 0x08 (BitVec.ofNat 32 ns.length) ++ wrReg 0x09 root

/-- `bits "…"` (R70). -/
def wrBits (bs : List Word) : List (Word × Word) :=
  wrWords 5 0 bs ++ wrReg 0x0B (BitVec.ofNat 32 bs.length)

/-- `bytes …` (R70). -/
def wrBytes (xs : List Word) : List (Word × Word) :=
  wrWords 6 0 xs ++ wrReg 0x0C (BitVec.ofNat 32 xs.length)

/-- From reset under P0, with host writes done. -/
def loaded (ws : List (Word × Word)) : State := hostWrites State.reset ws

/-- A small block, whose capacities are quick to fill. -/
def tiny : Params := ⟨8, 16, 2, 1, 8, 2⟩

/-- From reset of the small block, with host writes done. -/
def loadedTiny (ws : List (Word × Word)) : State := hostWrites (resetOf tiny) ws

/-- What a command leaves, seen through `f`. -/
def after {α : Type} (i : Instr) (s : State) (f : State → α) : Option α :=
  (next? (runCommand i s)).map f

/-- STATUS, ERRCODE, ERRINFO. -/
def verdict (s : State) : Word × Word × Word := (s.status.word, s.errCode, s.errInfo)

/-- The tree of V2.1 (`abc`). -/
def treeAbc : List (Word × Word) :=
  wrTree [leafW 0x61 1, leafW 0x62 1, leafW 0x63 1, internalW 2 0 1, internalW 3 2 3] 4

/-! ## Well-formedness: each check refuses -/

theorem test_refuses_reserved_bit : (CmdWord.mk 1 5).rsvdZero = false := by decide

theorem test_refuses_reserved_opcode : (CmdWord.mk 0 0xB).opcodeAssigned = false := by decide

theorem test_refuses_ill_formed_words :
    (CmdWord.mk 1 5).wellFormed = false ∧ (CmdWord.mk 0 0xF).wellFormed = false ∧
      (CmdWord.mk 0 0xA).wellFormed = true := by decide

theorem test_refuses_symW :
    ¬ ({ Config.p0 with symW := 0 }).SymWOk ∧ ¬ ({ Config.p0 with symW := 32 }).SymWOk := by decide

theorem test_refuses_textCap :
    ¬ ({ Config.p0 with textCap := 0 }).TextCapOk ∧
      ¬ ({ Config.p0 with textCap := 268435457 }).TextCapOk := by decide

theorem test_refuses_alphaCap :
    ¬ ({ Config.p0 with alphaCap := 0 }).AlphaCapOk ∧
      ¬ ({ Config.p0 with symW := 7 }).AlphaCapOk ∧
      ¬ ({ Config.p0 with symW := 31, alphaCap := 33554433 }).AlphaCapOk := by decide

theorem test_refuses_codeMaxLen :
    ¬ ({ Config.p0 with codeMaxLen := 0 }).CodeMaxLenOk ∧
      ¬ ({ Config.p0 with codeMaxLen := 268435457 }).CodeMaxLenOk := by decide

theorem test_refuses_codeSpace : ¬ ({ Config.p0 with codeMaxLen := 33554432 }).CodeSpaceOk := by
  decide

theorem test_refuses_bitCap :
    ¬ ({ Config.p0 with bitCap := 0 }).BitCapOk ∧ ¬ ({ Config.p0 with bitCap := 12 }).BitCapOk ∧
      ¬ ({ Config.p0 with bitCap := 268435464 }).BitCapOk := by decide

theorem test_refuses_outCap :
    ¬ ({ Config.p0 with outCap := 0 }).OutCapOk ∧
      ¬ ({ Config.p0 with outCap := 268435457 }).OutCapOk := by decide

theorem test_p0_legal : Config.p0.Legal := by decide

theorem test_tiny_legal : tiny.Legal := by decide

/-! ## Decoding: words written out from R60 and R61 -/

theorem test_decode_nop : decode 0b00000000000000000000000000000000 = .ok .nop := by decide
theorem test_decode_freq : decode 0b00000000000000000000000000000001 = .ok .freq := by decide
theorem test_decode_build : decode 0b00000000000000000000000000000010 = .ok .build := by decide
theorem test_decode_codes : decode 0b00000000000000000000000000000011 = .ok .codes := by decide
theorem test_decode_encode : decode 0b00000000000000000000000000000100 = .ok .encode := by decide
theorem test_decode_compress : decode 0b00000000000000000000000000000101 = .ok .compress := by decide
theorem test_decode_pack : decode 0b00000000000000000000000000000110 = .ok .pack := by decide
theorem test_decode_unpack : decode 0b00000000000000000000000000000111 = .ok .unpack := by decide
theorem test_decode_toHex : decode 0b00000000000000000000000000001000 = .ok .toHex := by decide
theorem test_decode_decode : decode 0b00000000000000000000000000001001 = .ok .decode := by decide
theorem test_decode_clear : decode 0b00000000000000000000000000001010 = .ok .clear := by decide

/-- V8.1 to V8.3. -/
theorem test_decode_refuses :
    decode 0x0000000B = .error .reservedOpcode ∧ decode 0x00000015 = .error .reservedBits ∧
      decode 0xFFFFFFFF = .error .reservedBits := by decide

theorem test_decodeTableWord :
    decodeTableWord 32 0x9 = some .decode ∧ decodeTableWord 32 0xC = none := by decide

/-- The very next step runs the placed command: here CLEAR from reset. -/
theorem test_withFetchWord :
    (next? (step (State.reset.withFetchWord 32 0xA))).map (fun s => s.status.word) = some 0xAA2 := by
  decide

/-! ## Vectors, instruction by instruction -/

/-- V7.1. -/
theorem test_nop : after .nop State.reset verdict = some (0x002, 0, 0) := by decide

/-- X5. -/
theorem test_freq_aabb :
    after .freq (loaded (wrText [0x61, 0x61, 0x62, 0x62])) (fun s => (verdict s, s.freqMap)) =
      some ((0x112, 0, 0), [⟨0x61, 2⟩, ⟨0x62, 2⟩]) := by decide

/-- V1.8 in the small block: the table of two entries is full. -/
theorem test_freq_full :
    after .freq (loadedTiny (wrText [0x61, 0x62, 0x63])) (fun s => (verdict s, s.freqN)) =
      some ((0x116, 4, 1), 0) := by decide

/-- V2.5. -/
theorem test_build_abracadabra :
    after .build (loaded (wrFreq [(0x61, 5), (0x62, 2), (0x72, 2), (0x63, 1), (0x64, 1)]))
        (fun s => (s.root, s.nodes.drop 5)) =
      some (8, [⟨.internal, 0, 2, 3, 4⟩, ⟨.internal, 0, 4, 1, 2⟩, ⟨.internal, 0, 6, 5, 6⟩,
        ⟨.internal, 0, 11, 0, 7⟩]) := by decide

/-- V2.13. -/
theorem test_build_sum_too_large :
    after .build (loaded (wrFreq [(0x61, 0xFFFFFFFF), (0x62, 1)]))
        (fun s => (verdict s, s.nodeN, s.root)) =
      some ((0x226, 4, 2), 0, 0xFFFFFFFF) := by decide

/-- V3.1, the words. -/
theorem test_codes_abc :
    after .codes (loaded treeAbc)
        (fun s => (s.codeN, [0, 1, 2, 10, 11, 12, 20, 21, 22].map (s.word .code))) =
      some (3, [0x63, 1, 0, 0x61, 2, 0x80000000, 0x62, 2, 0xC0000000]) := by decide

/-- V3.13. -/
theorem test_codes_bad_tree :
    after .codes (loaded (wrTree [leafW 0x61 0, internalW 0 0 7] 1)) (fun s => (verdict s, s.codeN)) =
      some ((0x336, 5, 1), 0) := by decide

/-- The CODE table [{a,"0"},{b,"1"}] written by the host. -/
def tableAb : List (Word × Word) :=
  wrWords 4 0 [0x61, 1, 0] ++ wrWords 4 10 [0x62, 1, 0x80000000] ++ wrReg 0x0A 2

/-- V4.21. -/
theorem test_encode :
    after .encode (loaded (tableAb ++ wrText [0x62, 0x62, 0x61, 0x61, 0x62]))
        (fun s => (verdict s, s.bitString)) =
      some ((0x442, 0, 0), [true, true, false, false, true]) := by decide

/-- V4.20. -/
theorem test_encode_unknown :
    after .encode (loaded (tableAb ++ wrText [0x61, 0x62, 0x7A])) (fun s => (verdict s, s.bitLen)) =
      some ((0x446, 2, 2), 0) := by decide

/-- V4.5. -/
theorem test_compress_aabbc :
    after .compress (loaded (wrText [0x61, 0x61, 0x62, 0x62, 0x63]))
        (fun s => (verdict s, s.bitString)) =
      some ((0x452, 0, 0), [true, true, true, true, false, false, true, false]) := by decide

/-- V4.18. -/
theorem test_compress_empty :
    after .compress State.reset (fun s => (verdict s, s.root)) =
      some ((0x256, 1, 0), 0xFFFFFFFF) := by decide

/-- V5.5. -/
theorem test_pack :
    after .pack (loaded (wrBits [1, 0, 1, 1, 1, 1, 0, 0, 0]))
        (fun s => (verdict s, s.packedBytes, s.bitLen)) =
      some ((0x662, 0, 0), [0xBC, 0x00], 9) := by decide

/-- V5.14. -/
theorem test_unpack :
    after .unpack (loaded (wrBytes [0xDE, 0xAD])) (fun s => (verdict s, s.bitString)) =
      some ((0x772, 0, 0), [true, true, false, true, true, true, true, false, true, false, true,
        false, true, true, false, true]) := by decide

/-- V5.5. -/
theorem test_toHex :
    after .toHex (loaded (wrBytes [0xBC, 0x00])) (fun s => (verdict s, s.hexString)) =
      some ((0x882, 0, 0), [0x62, 0x63, 0x20, 0x30, 0x30]) := by decide

/-- V6.19: the root again in the middle of a walk. -/
theorem test_decode_back_to_root :
    after .decode (loaded (wrTree [internalW 0 0 1, leafW 0x61 0] 0 ++ wrBits [0, 1])) State.outText =
        some [0x61] ∧
      after .decode (loaded (wrTree [internalW 0 0 1, leafW 0x61 0] 0 ++ wrBits [0, 0]))
        (fun s => (verdict s, s.outLen)) = some ((0x996, 3, 2), 0) := by decide

/-- V6.17. -/
theorem test_decode_missing_child :
    after .decode (loaded (wrTree [leafW 0x61 0, internalW 0 0 0xFFFFFFFF] 1 ++ wrBits [0, 1]))
        (fun s => (verdict s, s.outLen)) = some ((0x996, 3, 0x80000001), 0) := by decide

/-- V7.3, the kept elements. -/
theorem test_clear :
    after .clear (loaded (wrText [0x61, 0x62] ++ wrBytes [0x30]))
        (fun s => (verdict s, s.textLen, s.byteLen, s.root, s.word .text 0, s.word .bytes 0)) =
      some ((0xAA2, 0, 0), 0, 0, 0xFFFFFFFF, 0x61, 0x30) := by decide

/-! ## The port -/

/-- V1.10, V5.13: bits above the field are ignored. -/
theorem test_port_masks :
    (loaded (wrWords 1 0 [0xFFFFFFFF])).hostRead 0x10000000 = some 0x001FFFFF ∧
      (loaded (wrWords 5 0 [0xFFFFFFFF])).hostRead 0x50000000 = some 1 ∧
      (loaded (wrWords 6 0 [0x1234])).hostRead 0x60000000 = some 0x34 := by decide

/-- V9.1, V9.2, V9.5: reads that fault. -/
theorem test_port_reads_fault :
    [0x90000000, 0x0000000F, 0x00000016, 0x10001000, 0x300007FC, 0x40000A00, 0x20000200].all
      (fun a => (State.reset.hostRead a).isNone) = true := by decide

/-- V9.2 to V9.4, V9.6, V9.7: writes that fault. -/
theorem test_port_writes_fault :
    [((0x00000016 : Word), (0 : Word)), (0x00000000, 1), (0x00000003, 0), (0x0000000D, 0),
      (0x00000010, 8), (0x70000000, 0x41), (0x80000000, 0x61), (0x00000006, 4097),
      (0x00000008, 512), (0x0000000B, 32769), (0x40000001, 256)].all
      (fun w => (State.reset.hostWrite w.1 w.2).isNone) = true := by decide

/-- The accesses of part 2.9 that succeed, at the edges. -/
theorem test_port_edges :
    (State.reset.hostRead 0x10000FFF).isSome = true ∧
      (State.reset.hostWrite 0x00000006 4096).isSome = true ∧
      (State.reset.hostWrite 0x40000001 255).isSome = true ∧
      (loaded (wrReg 0x09 0x12345678)).root = 0x12345678 := by decide

/-- V8.1, V8.4, V8.6: an illegal word, then DONE cleared, then a write with bit 1 = 0. -/
theorem test_illegal_word_and_ack :
    verdict (loaded (wrReg 0x01 0xB)) = (0xBB6, 6, 0xB) ∧
      verdict (loaded (wrReg 0x01 0xB ++ wrReg 0x02 2)) = (0xBB4, 6, 0xB) ∧
      verdict (loaded (wrReg 0x01 0xB ++ wrReg 0x02 0xFFFFFFFD)) = (0xBB6, 6, 0xB) := by decide

/-- V8.5. -/
theorem test_irq :
    after .nop (loaded (wrReg 0x05 0xFFFFFFFF)) (fun s => (s.irq, s.ctrl.word)) = some (true, 1) := by
  decide

/-! ## Witnesses

For every statement with hypotheses, a state and operands that meet them all. -/

theorem hostWrites_inv {s : State} (h : s.Inv) (ws : List (Word × Word)) :
    (hostWrites s ws).Inv := by
  induction ws generalizing s with
  | nil => exact h
  | cons w ws ih =>
    refine ih ?_
    cases hw : s.hostWrite w.1 w.2 with
    | none => exact h
    | some t => exact h.hostWrite hw

theorem loaded_inv (ws : List (Word × Word)) : (loaded ws).Inv := hostWrites_inv reset_inv ws

theorem resetOf_tiny_inv : (resetOf tiny).Inv :=
  { params_legal := by decide
    mem_wf := fun r _ => by cases r <;> exact ⟨List.Pairwise.nil, fun c hc => by cases hc⟩
    len_le := fun sp => by cases sp <;> exact Nat.zero_le _
    op_eq := reset_inv.op_eq
    stage_ok := reset_inv.stage_ok
    err_iff := reset_inv.err_iff
    code_le := reset_inv.code_le
    info_zero := reset_inv.info_zero
    busy_legal := by intro h; cases h
    busy_clear := by intro h; cases h }

theorem loadedTiny_inv (ws : List (Word × Word)) : (loadedTiny ws).Inv :=
  hostWrites_inv resetOf_tiny_inv ws

/-- The state right after the acceptance of `i`. -/
def acc (i : Instr) (s : State) : State := s.accept (encode i)

theorem acc_accepted {i : Instr} {s : State} (h : s.Inv) (hb : s.status.busy = false) :
    (acc i s).Accepted i := accept_accepted h hb i

/-- The next state of a command. -/
def result (i : Instr) (s : State) : State := (next? (exec i s)).getD s

theorem exec_result (i : Instr) (s : State) : exec i s = .next (result i s) := by cases i <;> rfl

/-- The next state of a step from a state that meets the invariant. -/
def stepped (s : State) : State := (next? (step s)).getD s

theorem step_stepped {s : State} (h : s.Inv) : step s = .next (stepped s) := by
  obtain ⟨t, ht, -⟩ := step_inv h
  rw [stepped, ht]; rfl

/-- The state with these events to come. -/
def withEvents (s : State) (es : List PortEvent) : State := { s with inbox := es }

theorem withEvents_inv {s : State} (h : s.Inv) (es : List PortEvent) : (withEvents s es).Inv :=
  h.congr_host es s.resp

theorem witness_StepKeepsTheInvariant :
    ∃ s t : State, s.Inv ∧ step s = .next t ∧ t.textLen = 3 :=
  ⟨withEvents State.reset [.write 0x00000006 3], _, withEvents_inv reset_inv _,
    step_stepped (withEvents_inv reset_inv _), by decide⟩

theorem witness_EveryRunIsSafe : (acc .freq (loaded (wrText [0x61]))).Inv :=
  (acc_accepted (loaded_inv _) (by decide)).inv

theorem witness_StepRunsTheDecodedCommand :
    (∃ (s : State) (i : Instr), s.status.busy = true ∧ decode s.cmd = .ok i ∧ s.inbox = []) ∧
      ∃ (s : State) (i : Instr), s.status.busy = true ∧ decode s.cmd = .ok i ∧ s.inbox = [.engine, .read 0] :=
  ⟨⟨acc .clear State.reset, .clear, by decide⟩,
    ⟨withEvents (acc .decode State.reset) [.engine, .read 0], .decode, by decide⟩⟩

theorem witness_StepTakesOneTransaction :
    (withEvents State.reset [.read 0]).hostRead 0 = some 0x48554601 ∧
      (withEvents State.reset [.read 0x90000000]).hostRead 0x90000000 = none ∧
      ((withEvents State.reset [.write 0x00000006 4096]).hostWrite 0x00000006 4096).isSome = true ∧
      ((withEvents State.reset [.write 0x00000006 4097]).hostWrite 0x00000006 4097).isNone = true ∧
      (withEvents State.reset [.engine]).inbox = [.engine] ∧
      (withEvents State.reset [.engine]).status.busy = false := by decide

/-- The reads of an idle block: after V5.2's TOHEX, of HEXLEN and of a HEX word; after V8.7's BUILD,
of ERRCODE; each goes out as the response. -/
theorem witness_StepTakesOneTransaction_reads :
    let h := result .toHex (acc .toHex (loaded (wrBytes [0x80])))
    let b := result .build (acc .build State.reset)
    (h.status.busy = false ∧ h.params.Legal ∧ 1 < Space.size h.params .hex) ∧
      (stepped (withEvents h [.read 0x0000000D])).resp = .data 2 ∧
      (stepped (withEvents h [.read 0x70000001])).resp = .data 0x30 ∧
      (b.status.busy = false ∧ (stepped (withEvents b [.read 0x00000003])).resp = .data 1) := by
  decide

/-- Every cause of R52, and no cause, at the edges of the ranges. -/
theorem witness_HostFaultCauses :
    NoSuchWord Config.p0 0x90000000 ∧ NoSuchWord Config.p0 0x0000000F ∧
      NoSuchWord Config.p0 0x00000016 ∧ NoSuchWord Config.p0 0x10001000 ∧
      ReadOnlyWord 0x00000015 ∧ ReadOnlyWord 0x70000000 ∧
      ValueTooLarge Config.p0 0x00000006 4097 ∧ ValueTooLarge Config.p0 0x40000001 256 ∧
      ¬ ReadableBusy 0x00000001 ∧ ¬ WritableBusy 0x00000001 ∧ ReadableBusy 0x00000015 ∧
      WritableBusy 0x00000005 := by
  refine ⟨.inl (by decide), .inr (.inl ⟨by decide, by decide⟩), .inr (.inl ⟨by decide, by decide⟩),
    .inr (.inr ⟨.text, by decide, by decide⟩), .inl (by decide), .inr (by decide),
    .inl ⟨by decide, _, rfl, by decide⟩, .inr (by decide), ?_, ?_, ?_, ?_⟩ <;>
    simp only [ReadableBusy, WritableBusy] <;> decide

theorem witness_BusyExclusion : ∃ s : State, s.Inv ∧ s.status.busy = true :=
  ⟨_, witness_EveryRunIsSafe, by decide⟩

theorem witness_IdAndParametersNeverChange :
    ∃ s t : State, step s = .next t ∧ t.params = Config.p0 ∧ t.status.done = true :=
  ⟨acc .nop State.reset, _, step_stepped (acc_accepted reset_inv rfl).inv, by decide⟩

/-- A value at the capacity, and one above it. -/
theorem witness_LengthAndRootWrites :
    State.reset.Inv ∧ State.reset.status.busy = false ∧
      (32768 : Word).toNat ≤ Space.cap State.reset.params .bits ∧
      Space.cap State.reset.params .bits < (32769 : Word).toNat := ⟨reset_inv, by decide⟩

/-- The last word of TEXT and a CODE length word with the largest value it takes. -/
theorem witness_BufferWriteThenRead :
    State.reset.Inv ∧ State.reset.status.busy = false ∧ 4095 < Space.size State.reset.params .text ∧
      2551 < Space.size State.reset.params .code ∧ 2551 % State.reset.params.codeStride = 1 ∧
      (255 : Word).toNat ≤ State.reset.params.codeMaxLen := ⟨reset_inv, by decide⟩

theorem witness_EveryWordIsInItsLayout : (loaded treeAbc).Inv := loaded_inv _

/-- Busy; idle with the last legal word; idle with the first illegal one. -/
theorem witness_AcceptanceOfACommandWord :
    (acc .nop State.reset).status.busy = true ∧ State.reset.status.busy = false ∧
      (0xA : Word).toNat ≤ 0xA ∧ 0xA < (0xB : Word).toNat := by decide

theorem witness_IllegalWordIsRecorded :
    State.reset.status.busy = false ∧ (0x00000015 : Word).extractLsb' 4 28 ≠ 0 ∧
      0xB ≤ ((0xB : Word).extractLsb' 0 4).toNat := by decide

theorem witness_WrittenCommandIsAccepted : State.reset.Inv ∧ State.reset.status.busy = false :=
  ⟨reset_inv, rfl⟩

theorem witness_EveryCommandCompletes : ∀ i : Instr, ∃ s : State, s.Accepted i := fun i =>
  ⟨acc i State.reset, acc_accepted reset_inv rfl⟩

theorem witness_InterruptLine :
    ((acc .nop (loaded (wrReg 0x05 1))).status.busy = true ∧
      (result .nop (acc .nop (loaded (wrReg 0x05 1)))).irq = true) ∧
      (result .nop (acc .nop State.reset)).irq = false := by decide

/-- DONE rises by the engine and by an illegal word; it falls by acknowledgement, by acceptance and by
reset. -/
theorem witness_DoneRisesAndFallsAsStated :
    let busy := acc .nop State.reset
    let idle := withEvents State.reset [.write 0x00000001 0xB]
    let done := result .nop busy
    (busy.status.done = false ∧ (stepped busy).status.done = true) ∧
      (idle.status.done = false ∧ (stepped idle).status.done = true) ∧
      (done.status.done = true ∧
        (stepped (withEvents done [.write 0x00000002 2])).status.done = false ∧
        (stepped (withEvents done [.write 0x00000001 0])).status.done = false ∧
        (stepped (withEvents done [.rst])).status.done = false) := by decide

theorem witness_CommandsStartAndEndAsStated :
    let idle := withEvents State.reset [.write 0x00000001 0xA]
    (idle.status.busy = false ∧ (stepped idle).status.busy = true) ∧
      ((acc .nop State.reset).status.busy = true ∧
        (stepped (acc .nop State.reset)).status.busy = false ∧
        (stepped (withEvents (acc .nop State.reset) [.rst])).status.busy = false) := by decide

theorem witness_CmdHoldsTheLastWordWritten :
    ∃ s t : State, s.Inv ∧ step s = .next t ∧ s.status.busy = false ∧
      s.inbox = [.write (addressOf 0 0x01) 0x15] ∧ t.cmd ≠ s.cmd :=
  ⟨withEvents State.reset [.write (addressOf 0 0x01) 0x15], _, withEvents_inv reset_inv _,
    step_stepped (withEvents_inv reset_inv _), by decide⟩

/-- A running COMPRESS passes to its second stage. -/
theorem witness_StageMovesForwardOnly :
    ∃ s t a b c : State, s.Inv ∧ s.inbox = [.progress] ∧ step s = .next t ∧
      exec .freq { s with inbox := [] } = .next a ∧ exec .build a = .next b ∧
      exec .codes b = .next c ∧ s.status.busy = true ∧ s.cmd = encode .compress ∧
      s.status.stage = 1 ∧ a.status.err = false ∧ t.status.stage = 2 :=
  have h := withEvents_inv (acc_accepted (i := .compress) (loaded_inv (wrText [0x61])) rfl).inv [.progress]
  ⟨withEvents (acc .compress (loaded (wrText [0x61]))) [.progress], _, _, _, _, h, rfl, step_stepped h,
    exec_result _ _, exec_result _ _, exec_result _ _, by decide⟩

/-- Where STAGE does not move: after a first stage that fails, after a second that fails (the empty
text), in the last stage, and when another command runs. -/
theorem witness_StageMovesForwardOnly_stays :
    let go (s : State) := stepped (withEvents s [.progress])
    let full := acc .compress (loadedTiny (wrText [1, 2, 3]))
    let empty := go (acc .compress State.reset)
    let last := go (go (go (acc .compress (loaded (wrText [0x61])))))
    (full.status.stage = 1 ∧ (go full).status.stage = 1) ∧
      (empty.status.stage = 2 ∧ (go empty).status.stage = 2) ∧
      (last.status.stage = 4 ∧ (go last).status.stage = 4) ∧
      (go (acc .freq State.reset)).status.stage = 1 := by decide

theorem witness_ResetInputAbandonsEverything :
    (withEvents (acc .freq State.reset) [.rst]).inbox = [.rst] := rfl

theorem witness_SuccessWritesDestinationsOnly :
    ∃ s t : State, s.Accepted .freq ∧ exec .freq s = .next t ∧ t.status.err = false ∧ t.freqN = 1 :=
  ⟨acc .freq (loaded (wrText [0x61])), _, acc_accepted (loaded_inv _) (by decide), exec_result _ _,
    by decide⟩

/-- A failing command of one stage, and COMPRESS failing in its second. -/
theorem witness_FailureEmptiesDestinations :
    (∃ s t : State, s.Accepted .build ∧ exec .build s = .next t ∧ t.status.err = true) ∧
      ∃ s t : State, s.Accepted .compress ∧ exec .compress s = .next t ∧ t.status.err = true ∧
        t.status.stage = 2 :=
  ⟨⟨acc .build State.reset, _, acc_accepted reset_inv rfl, exec_result _ _, by decide⟩,
    ⟨acc .compress State.reset, _, acc_accepted reset_inv rfl, exec_result _ _, by decide⟩⟩

/-- Every kind of R151 that a command can raise but those of the other witnesses. -/
theorem witness_ErrorKindsOfEachCommand :
    let codes (s : State) := (result .codes (acc .codes s)).errInfo
    (result .freq (acc .freq (loadedTiny (wrText [1, 2, 3])))).errInfo = 1 ∧
      (result .build (acc .build (loaded (wrFreq [(1, 0xFFFFFFFF), (2, 1)])))).errInfo = 2 ∧
      codes (loadedTiny (wrTree [internalW 0 1 1, internalW 0 2 2, leafW 1 0] 0)) = 3 ∧
      codes State.reset = 0xFFFFFFFF ∧
      (result .encode (acc .encode (loaded (wrText [1])))).errCode = 2 ∧
      (result .decode (acc .decode (loadedTiny (wrTree [leafW 1 0, leafW 2 0, internalW 0 0 1] 2 ++
        wrBits [0, 1, 0])))).errInfo = 6 ∧
      (result .compress (acc .compress (loadedTiny (wrText [1, 2, 1, 2, 1, 2, 1, 2, 1])))).errInfo = 5 := by
  decide

/-- Two states that differ outside the source. -/
theorem witness_OutcomeIsDeterminedBySources :
    ∃ s t : State, s.Accepted .pack ∧ t.Accepted .pack ∧ s.params = t.params ∧
      SourcesAgree .pack s t ∧ s.text ≠ t.text :=
  ⟨acc .pack (loaded (wrBits [1, 0])), acc .pack (loaded (wrBits [1, 0] ++ wrText [0x61])),
    acc_accepted (loaded_inv _) (by decide), acc_accepted (loaded_inv _) (by decide), by decide,
    by simp only [SourcesAgree]; decide, by decide⟩

/-- TEXT, HEX and OUT do change. -/
theorem witness_TextHexOutHaveOneWriter :
    let s := withEvents (loaded (wrText [0x61])) [.write 0x10000000 0x62]
    let h := acc .toHex (result .toHex (acc .toHex (loaded (wrBytes [0x12]))))
    (s.Inv ∧ (stepped s).word .text 0 ≠ s.word .text 0) ∧
      (h.status.busy = true ∧ (stepped h).status.busy = false ∧ (stepped h).word .hex 0 = 0x31) :=
  ⟨⟨withEvents_inv (loaded_inv _) _, by decide⟩, by decide⟩

theorem witness_NopCompletes : (acc .nop State.reset).Accepted .nop := acc_accepted reset_inv rfl

theorem witness_ClearCompletes : (acc .clear State.reset).Accepted .clear := acc_accepted reset_inv rfl

theorem witness_FreqMakesTheFrequencyMap :
    (acc .freq (loaded (wrText [0x61, 0x62, 0x61]))).Accepted .freq ∧
      (acc .freq (loaded (wrText [0x61, 0x62, 0x61]))).text.dedup.length ≤
        (acc .freq (loaded (wrText [0x61, 0x62, 0x61]))).params.alphaCap :=
  ⟨acc_accepted (loaded_inv _) (by decide), by decide⟩

/-- One symbol more than the table has entries. -/
theorem witness_FreqTableFull :
    ∃ s : State, s.Accepted .freq ∧ s.params.alphaCap < s.text.dedup.length :=
  ⟨acc .freq (loadedTiny (wrText [1, 2, 3])), acc_accepted (loadedTiny_inv _) (by decide), by decide⟩

/-- The largest sum that fits. -/
theorem witness_BuildMakesTheHuffmanTree :
    ∃ s : State, s.Accepted .build ∧ s.freqMap ≠ [] ∧
      (s.freqMap.length = 1 ∨ (s.freqMap.map FreqEntry.cnt).sum < 2 ^ 32) ∧
      (s.freqMap.map FreqEntry.cnt).sum = 2 ^ 32 - 1 :=
  ⟨acc .build (loaded (wrFreq [(0x61, 0xFFFFFFFE), (0x62, 1)])),
    acc_accepted (loaded_inv _) (by decide), by decide⟩

theorem witness_BuildSingleSymbol : ∃ (s : State) (e : FreqEntry), s.Accepted .build ∧ s.freqMap = [e] :=
  ⟨acc .build (loaded (wrFreq [(0x61, 4)])), ⟨0x61, 4⟩, acc_accepted (loaded_inv _) (by decide),
    by decide⟩

/-- The empty map, and the smallest sum that does not fit. -/
theorem witness_BuildFailures :
    (∃ s : State, s.Accepted .build ∧ s.freqMap = []) ∧
      ∃ s : State, s.Accepted .build ∧ 2 ≤ s.freqMap.length ∧
        (s.freqMap.map FreqEntry.cnt).sum = 2 ^ 32 :=
  ⟨⟨acc .build State.reset, acc_accepted reset_inv rfl, by decide⟩,
    ⟨acc .build (loaded (wrFreq [(0x61, 0xFFFFFFFF), (0x62, 1)])),
      acc_accepted (loaded_inv _) (by decide), by decide⟩⟩

theorem witness_BuiltTreeIsStrict :
    ∃ s t : State, s.Accepted .build ∧ exec .build s = .next t ∧ t.status.err = false ∧ t.nodeN = 3 :=
  ⟨acc .build (loaded (wrFreq [(0x61, 1), (0x62, 1)])), _, acc_accepted (loaded_inv _) (by decide),
    exec_result _ _, by decide⟩

/-- The tree of V2.1. -/
def abcTree : HTree := .node (.leaf 0x63) (.node (.leaf 0x61) (.leaf 0x62))

theorem treeAbc_nodes (ws : List (Word × Word)) (i : Instr)
    (h : (acc i (loaded (treeAbc ++ ws))).nodes =
      [⟨.leaf, 0x61, 1, nilPtr, nilPtr⟩, ⟨.leaf, 0x62, 1, nilPtr, nilPtr⟩,
        ⟨.leaf, 0x63, 1, nilPtr, nilPtr⟩, ⟨.internal, 0, 2, 0, 1⟩, ⟨.internal, 0, 3, 2, 3⟩])
    (hr : (acc i (loaded (treeAbc ++ ws))).root = 4) :
    (acc i (loaded (treeAbc ++ ws))).HasTree abcTree := by
  unfold State.HasTree
  rw [h, hr]
  exact ⟨_, rfl, rfl, ⟨_, rfl, rfl, rfl⟩, _, rfl, rfl, ⟨_, rfl, rfl, rfl⟩, _, rfl, rfl, rfl⟩

theorem witness_CodesRecordsThePaths :
    ∃ s : State, s.Accepted .codes ∧ s.HasTree abcTree ∧ abcTree.height ≤ s.params.codeMaxLen ∧
      abcTree.leafCount ≤ s.params.alphaCap :=
  ⟨acc .codes (loaded (treeAbc ++ [])), acc_accepted (loaded_inv _) (by decide),
    treeAbc_nodes _ _ (by decide) (by decide), by decide⟩

theorem witness_CodesArePrefixFree :
    ∃ s t : State, s.Accepted .codes ∧ s.HasTree abcTree ∧ exec .codes s = .next t ∧
      t.status.err = false ∧ 2 ≤ abcTree.leafCount ∧ abcTree.symbols.Nodup :=
  ⟨acc .codes (loaded (treeAbc ++ [])), _, acc_accepted (loaded_inv _) (by decide),
    treeAbc_nodes _ _ (by decide) (by decide), exec_result _ _, by decide⟩

theorem witness_CodesSingleLeaf :
    ∃ (s : State) (n : TreeNode), s.Accepted .codes ∧ nodeOf s.nodes s.root = some n ∧ n.kind = .leaf :=
  ⟨acc .codes (loaded (wrTree [leafW 0x61 4] 0)), ⟨.leaf, 0x61, 4, nilPtr, nilPtr⟩,
    acc_accepted (loaded_inv _) (by decide), by decide⟩

theorem witness_CodesOutcomes : (acc .codes (loaded treeAbc)).Accepted .codes :=
  acc_accepted (loaded_inv _) (by decide)

/-- Each failure of R98 is reached, the first in the order of the traversal: ROOT is NIL (V3.12); the
right pointer is no node after a left subtree that fits (V3.13); the left subtree is too deep, and
the right pointer, no node either, is not looked at; a Leaf is met when the table is full, on two
paths more than it has entries; a cycle without a leaf (V3.17). -/
theorem witness_CodesOutcomes_failures :
    let small := { tiny with codeMaxLen := 2 }
    let run (ws : List (Word × Word)) :=
      verdict (result .codes (acc .codes (hostWrites (resetOf small) ws)))
    run [] = (0x336, 5, 0xFFFFFFFF) ∧
      run (wrTree [leafW 1 0, internalW 0 0 7] 1) = (0x336, 5, 1) ∧
      run (wrTree [internalW 0 1 7, internalW 0 1 1] 0) = (0x336, 4, 3) ∧
      run (wrTree [leafW 1 0, internalW 0 0 0, internalW 0 1 1] 2) = (0x336, 4, 4) ∧
      run (wrTree [internalW 0 0 0] 0) = (0x336, 4, 3) := by decide

theorem witness_EncodeWritesTheCodes :
    ∃ s : State, s.Accepted .encode ∧ Covers s.codeTable s.text ∧
      (codeBits s.codeTable s.text).length ≤ s.params.bitCap ∧ s.text ≠ [] := by
  refine ⟨acc .encode (loaded (tableAb ++ wrText [0x62, 0x61])),
    acc_accepted (loaded_inv _) (by decide), ?_, by decide⟩
  have h1 : (acc .encode (loaded (tableAb ++ wrText [0x62, 0x61]))).text = [0x62, 0x61] := by decide
  have h2 : (acc .encode (loaded (tableAb ++ wrText [0x62, 0x61]))).codeTable =
      [⟨0x61, [false]⟩, ⟨0x62, [true]⟩] := by decide
  rw [h1, h2]
  intro x hx
  simp at hx
  rcases hx with rfl | rfl <;> simp

/-- The first symbol without a code, and the first code that does not fit. -/
theorem witness_EncodeFailures :
    (∃ s : State, s.Accepted .encode ∧ s.text = [0x61, 0x62] ++ 0x7A :: [] ∧
      Covers s.codeTable [0x61, 0x62] ∧ ∀ e ∈ s.codeTable, e.sym ≠ 0x7A) ∧
      ∃ s : State, s.Accepted .encode ∧ s.text = List.replicate 8 1 ++ 1 :: [] ∧
        Covers s.codeTable (List.replicate 8 1) ∧
        (codeBits s.codeTable (List.replicate 8 1)).length ≤ s.params.bitCap ∧
        s.params.bitCap < (codeBits s.codeTable (List.replicate 8 1 ++ [1])).length := by
  refine ⟨⟨acc .encode (loaded (tableAb ++ wrText [0x61, 0x62, 0x7A])),
    acc_accepted (loaded_inv _) (by decide), by decide, ?_, by decide⟩,
    ⟨acc .encode (loadedTiny (wrWords 4 0 [1, 1, 0] ++ wrReg 0x0A 1 ++ wrText (List.replicate 9 1))),
      acc_accepted (loadedTiny_inv _) (by decide), by decide, ?_, by decide⟩⟩
  · have h2 : (acc .encode (loaded (tableAb ++ wrText [0x61, 0x62, 0x7A]))).codeTable =
        [⟨0x61, [false]⟩, ⟨0x62, [true]⟩] := by decide
    rw [h2]
    intro x hx
    simp at hx
    rcases hx with rfl | rfl <;> simp
  · have h2 : (acc .encode (loadedTiny (wrWords 4 0 [1, 1, 0] ++ wrReg 0x0A 1 ++
        wrText (List.replicate 9 1)))).codeTable = [⟨1, [false]⟩] := by decide
    rw [h2]
    intro x hx
    exact ⟨_, List.mem_singleton.2 rfl, (List.eq_of_mem_replicate hx).symm⟩

/-- The four premises on one text that succeeds; the next one on texts that fail. -/
theorem witness_CompressIsThePipeline :
    ∃ s a b c d : State, s.Accepted .compress ∧ exec .freq s = .next a ∧ exec .build a = .next b ∧
      exec .codes b = .next c ∧ exec .encode c = .next d ∧ a.status.err = false ∧
      b.status.err = false ∧ c.status.err = false ∧ d.bitLen = 2 :=
  ⟨acc .compress (loaded (wrText [0x61, 0x62])), _, _, _, _, acc_accepted (loaded_inv _) (by decide),
    exec_result _ _, exec_result _ _, exec_result _ _, exec_result _ _, by decide⟩

theorem witness_CompressIsThePipeline_fails :
    ((result .freq (acc .compress (loadedTiny (wrText [1, 2, 3])))).status.err = true) ∧
      (result .freq (acc .compress State.reset)).status.err = false ∧
      (result .build (result .freq (acc .compress State.reset))).status.err = true := by decide

/-- "ab": its map, tree, height and bits. -/
theorem witness_CompressCompletes :
    ∃ (s : State) (es : List FreqEntry) (ns : List TreeNode) (r : Nat) (T : HTree),
      s.Accepted .compress ∧ s.text ≠ [] ∧ IsFrequencyMap s.text es ∧
      es.length ≤ s.params.alphaCap ∧ IsHuffmanTree es ns r ∧
      Represents ns (BitVec.ofNat 32 r) T ∧ T.height ≤ s.params.codeMaxLen ∧
      (codeBits T.table s.text).length ≤ s.params.bitCap := by
  have htext : (acc .compress (loaded (wrText [0x61, 0x62]))).text = [0x61, 0x62] := by decide
  obtain ⟨es, h1, h2, -⟩ := countSymbols_ok (cap := 2) (text := [0x61, 0x62]) (by decide)
  have h3 : countSymbols 2 [0x61, 0x62] [] = .ok [⟨0x61, 1⟩, ⟨0x62, 1⟩] := by rfl
  rw [h3] at h1; cases h1
  obtain ⟨ns, r, T, k1, k2, -⟩ := buildTree_ok (es := [⟨0x61, 1⟩, ⟨0x62, 1⟩]) (by simp) (by decide)
    (by decide) (by decide)
  have k3 : buildTree [⟨0x61, 1⟩, ⟨0x62, 1⟩] = .ok ([⟨.leaf, 0x61, 1, nilPtr, nilPtr⟩,
      ⟨.leaf, 0x62, 1, nilPtr, nilPtr⟩, ⟨.internal, 0, 2, 0, 1⟩], 2) := by rfl
  rw [k3] at k1; cases k1
  refine ⟨acc .compress (loaded (wrText [0x61, 0x62])), _, _, _, .node (.leaf 0x61) (.leaf 0x62),
    acc_accepted (loaded_inv _) (by decide), by decide, by rw [htext]; exact h2, by decide, k2, ?_,
    by decide, by decide⟩
  exact ⟨_, rfl, rfl, ⟨_, rfl, rfl, rfl⟩, _, rfl, rfl, rfl⟩

theorem witness_CompressEmptyText : ∃ s : State, s.Accepted .compress ∧ s.textLen = 0 :=
  ⟨acc .compress State.reset, acc_accepted reset_inv rfl, rfl⟩

/-- COMPRESS ends in each of the five ways of the statement; a code too long needs three symbols. -/
theorem witness_CompressErrors :
    let run (s : State) := verdict (result .compress (acc .compress s))
    run (loaded (wrText [1, 2])) = (0x452, 0, 0) ∧ run State.reset = (0x256, 1, 0) ∧
      run (loadedTiny (wrText [1, 2, 3])) = (0x156, 4, 1) ∧
      run (hostWrites (resetOf { tiny with alphaCap := 3 }) (wrText [1, 2, 3])) = (0x356, 4, 3) ∧
      run (loadedTiny (wrText [1, 2, 1, 2, 1, 2, 1, 2, 1])) = (0x456, 4, 5) := by decide

theorem witness_CompressedLength :
    ∃ s t : State, s.Accepted .compress ∧ exec .compress s = .next t ∧ t.status.err = false ∧
      t.bitLen = 3 :=
  ⟨acc .compress (loaded (wrText [0x61, 0x61, 0x62])), _, acc_accepted (loaded_inv _) (by decide),
    exec_result _ _, by decide⟩

theorem witness_CompressSingleSymbol :
    ∃ s : State, s.Accepted .compress ∧ s.text = List.replicate (3 + 1) 0x61 :=
  ⟨acc .compress (loaded (wrText [0x61, 0x61, 0x61, 0x61])), acc_accepted (loaded_inv _) (by decide),
    by decide⟩

theorem witness_PackGroupsTheBits : (acc .pack (loaded (wrBits [1]))).Accepted .pack :=
  acc_accepted (loaded_inv _) (by decide)

theorem witness_UnpackExpandsTheBytes : (acc .unpack (loaded (wrBytes [1]))).Accepted .unpack :=
  acc_accepted (loaded_inv _) (by decide)

/-- A byte with a digit and a letter. -/
theorem witness_ToHexRendersTheBytes :
    ∃ s : State, s.Accepted .toHex ∧ 0 < s.byteLen.toNat ∧
      (s.packedBytes.getD 0 0).toNat = 16 * 9 + 10 :=
  ⟨acc .toHex (loaded (wrBytes [0x9A])), acc_accepted (loaded_inv _) (by decide), by decide⟩

theorem witness_PackAndUnpackRelate :
    ∃ s : State, s.Inv ∧ s.status.busy = false ∧ s.bitLen = 3 :=
  ⟨loaded (wrBits [1, 0, 1]), loaded_inv _, by decide⟩

set_option maxRecDepth 4000 in
/-- V6.12 and one symbol more. -/
theorem witness_DecodeEmitsTheSymbols :
    ∃ (s : State) (n : TreeNode) (xs : List Word), s.Accepted .decode ∧
      nodeOf s.nodes s.root = some n ∧ Emits s.nodes s.root xs s.bitString ∧
      xs.length ≤ s.params.outCap ∧ xs = [0x63, 0x62] := by
  have hn : (acc .decode (loaded (treeAbc ++ wrBits [0, 1, 1]))).nodes =
      [⟨.leaf, 0x61, 1, nilPtr, nilPtr⟩, ⟨.leaf, 0x62, 1, nilPtr, nilPtr⟩,
        ⟨.leaf, 0x63, 1, nilPtr, nilPtr⟩, ⟨.internal, 0, 2, 0, 1⟩, ⟨.internal, 0, 3, 2, 3⟩] := by
    decide
  have hr : (acc .decode (loaded (treeAbc ++ wrBits [0, 1, 1]))).root = 4 := by decide
  have hb : (acc .decode (loaded (treeAbc ++ wrBits [0, 1, 1]))).bitString = [false, true, true] := by
    decide
  refine ⟨acc .decode (loaded (treeAbc ++ wrBits [0, 1, 1])), _, [0x63, 0x62],
    acc_accepted (loaded_inv _) (by decide), by rw [hn, hr]; rfl, ?_, by decide, rfl⟩
  rw [hn, hr, hb]
  exact .cons (path := [false]) (q := 2) (m := ⟨.leaf, 0x63, 1, nilPtr, nilPtr⟩) (by simp)
    (.cons rfl rfl (.nil _)) rfl rfl
    (.cons (path := [true, true]) (q := 1) (m := ⟨.leaf, 0x62, 1, nilPtr, nilPtr⟩) (by simp)
      (.cons rfl rfl (.cons rfl rfl (.nil _))) rfl rfl .nil)

theorem witness_DecodeOutcomes : (acc .decode (loaded (treeAbc ++ wrBits [1]))).Accepted .decode :=
  acc_accepted (loaded_inv _) (by decide)

/-- No bits; and a Leaf as the root with a bit (V6.18). -/
theorem witness_DecodeEmptyBitsAndSingleLeaf :
    (∃ (s : State) (n : TreeNode), s.Accepted .decode ∧ nodeOf s.nodes s.root = some n ∧ s.bitLen = 0) ∧
      ∃ (s : State) (n : TreeNode), s.Accepted .decode ∧ nodeOf s.nodes s.root = some n ∧ n.kind = .leaf ∧ s.bitLen ≠ 0 :=
  ⟨⟨acc .decode (loaded (wrTree [leafW 0x61 4] 0)), ⟨.leaf, 0x61, 4, nilPtr, nilPtr⟩,
      acc_accepted (loaded_inv _) (by decide), by decide⟩,
    ⟨acc .decode (loaded (wrTree [leafW 0x61 4] 0 ++ wrBits [0])), ⟨.leaf, 0x61, 4, nilPtr, nilPtr⟩,
      acc_accepted (loaded_inv _) (by decide), by decide⟩⟩

set_option maxRecDepth 4000 in
/-- `b` and three pad bits: the leftmost leaf is at depth 1. -/
theorem witness_DecodeOverReadsPadBits :
    ∃ (s : State) (xs : List Word) (bs : List Bool) (p : Nat), s.Accepted .decode ∧
      s.HasTree abcTree ∧ 2 ≤ abcTree.leafCount ∧ Spells abcTree.table xs bs ∧
      s.bitString = bs ++ List.replicate p false ∧ 1 ≤ p ∧ p ≤ 7 ∧
      xs.length + p / abcTree.leftDepth ≤ s.params.outCap := by
  refine ⟨acc .decode (loaded (treeAbc ++ wrBits [1, 1, 0, 0, 0])), [0x62], [true, true], 3,
    acc_accepted (loaded_inv _) (by decide), treeAbc_nodes _ _ (by decide) (by decide), by decide, ?_,
    by decide⟩
  exact Spells.cons (e := ⟨0x62, [true, true]⟩) (by decide) rfl .nil

/-- V4.5: a text of three distinct symbols whose BitString has eight bits, so both clauses apply. -/
theorem witness_RoundTrip :
    ∃ s a : State, s.Inv ∧ s.status.busy = false ∧ 2 ≤ s.text.dedup.length ∧
      s.textLen.toNat ≤ s.params.outCap ∧ runCommand .compress s = .next a ∧ a.status.err = false ∧
      a.bitLen.toNat % 8 = 0 ∧
      ∃ b c, runCommand .pack a = .next b ∧ runCommand .unpack b = .next c :=
  ⟨loaded (wrText [0x61, 0x61, 0x62, 0x62, 0x63]), _, loaded_inv _, by decide, by decide, by decide,
    exec_result _ _, by decide, by decide, _, _, exec_result _ _, exec_result _ _⟩

end Sys2Proof.Tests
end

section
/-! PROOF. The invariant holds at reset and every step keeps it. -/

namespace Sys2Proof.Machine

/-- Settles O2: reset has the parameters of P0, no buffer word written (so memory is in canonical
form), all lengths 0 and an idle STATUS. -/
theorem resetMeetsTheInvariant : Obligations.ResetMeetsTheInvariant := reset_inv

/-- Settles O3: from a state that meets the invariant each event, and the engine's step on an empty
inbox, has a next state that meets it (`step_inv`), and a step has one answer only. -/
theorem stepKeepsTheInvariant : Obligations.StepKeepsTheInvariant := by
  intro s t hs hst
  obtain ⟨u, hu, hinv⟩ := step_inv hs
  obtain rfl : u = t := Host.Outcome.next.inj (hu.symm.trans hst)
  exact hinv

end Sys2Proof.Machine
end

section
/-! PROOF. What the host reads at a register or a buffer word, and what a transaction does in one
step (R20 to R30, R40, R51, R52). -/

namespace Sys2Proof.Machine

open Sys2Proof

/-! ## Reads -/

theorem regAt_lt {i : Nat} {r : Reg} (h : regAt i = some r) : i < 2 ^ 28 := by
  by_contra hge
  rw [(regAt_none i).2 (.inr (by omega))] at h
  cases h

/-- R54: a register that may be read while BUSY reads as what it holds in every state. -/
theorem hostRead_readableBusy {s : State} {i : Nat} {r : Reg} {w : Word} (hr : regAt i = some r)
    (hb : r.readableBusy = true) (hw : s.readReg r = w) : s.hostRead (addressOf 0 i) = some w := by
  rw [hostRead_reg s (regAt_lt hr), hr]
  simp [hb, hw]

theorem hostRead_reg_idle {s : State} (hs : s.status.busy = false) {i : Nat} {r : Reg} {w : Word}
    (hr : regAt i = some r) (hw : s.readReg r = w) : s.hostRead (addressOf 0 i) = some w := by
  rw [hostRead_reg s (regAt_lt hr), hr]
  simp [hs, hw]

theorem hostRead_word_idle {s : State} (hs : s.status.busy = false) (hp : s.params.Legal)
    {sp : Space} {i : Nat} (hi : i < sp.size s.params) :
    s.hostRead (addressOf sp.number i) = some (s.word sp i) := by
  rw [hostRead_word s sp (lt_of_lt_of_le hi (Space.size_le hp sp))]
  simp [hs, hi]

/-! ## One transaction -/

theorem step_read_data {s : State} {a w : Word} {rest : List PortEvent}
    (h : s.inbox = .read a :: rest) (hr : s.hostRead a = some w) :
    step s = .next { s with inbox := rest, resp := .data w } := by
  rw [step_event h]
  simp [takeEvent, readTransaction, hostRead_inbox, hr]

theorem step_read_fault {s : State} {a : Word} {rest : List PortEvent}
    (h : s.inbox = .read a :: rest) (hr : s.hostRead a = none) :
    step s = .next { s with inbox := rest, resp := .hostFault } := by
  rw [step_event h]
  simp [takeEvent, readTransaction, hostRead_inbox, hr]

theorem step_write_done {s t : State} {a v : Word} {rest : List PortEvent}
    (h : s.inbox = .write a v :: rest) (hw : s.hostWrite a v = some t) :
    step s = .next { t with inbox := rest, resp := .done } := by
  rw [step_event h]
  simp [takeEvent, writeTransaction, hostWrite_inbox, hw]

theorem step_write_fault {s : State} {a v : Word} {rest : List PortEvent}
    (h : s.inbox = .write a v :: rest) (hw : s.hostWrite a v = none) :
    step s = .next { s with inbox := rest, resp := .hostFault } := by
  rw [step_event h]
  simp [takeEvent, writeTransaction, hostWrite_inbox, hw]

/-- The STATUS word of an idle block: bit 0 reads 0 (R23). -/
theorem Status.word_idle {f : Status} (h : f.busy = false) :
    f.word = (0 : BitVec 20) ++ f.stage ++ f.op ++ (0 : BitVec 1) ++ BitVec.ofBool f.err ++
      BitVec.ofBool f.done ++ (0 : BitVec 1) := by
  rw [Status.word, h]; rfl

/-- Settles O8: each transaction by its own lemma; the 21 registers by the register map, the buffer
words because every space fits its 2^28 indices. -/
theorem stepTakesOneTransaction : Obligations.StepTakesOneTransaction := by
  intro s rest
  refine ⟨fun a w => step_read_data, fun a => step_read_fault, fun a v t => step_write_done,
    fun a v => step_write_fault, fun h hb => ?_, fun hb => ⟨fun r w hrw => ?_, fun hp sp i hi => ?_⟩⟩
  · rw [step_event h]
    exact engineStep_idle hb
  · have hread : s.hostRead (addressOf 0 r) = some w := by
      rw [← Status.word_idle hb] at hrw
      simp only [List.mem_cons, Prod.mk.injEq, List.not_mem_nil, or_false] at hrw
      rcases hrw with ⟨rfl, rfl⟩ | ⟨rfl, rfl⟩ | ⟨rfl, rfl⟩ | ⟨rfl, rfl⟩ | ⟨rfl, rfl⟩ | ⟨rfl, rfl⟩ |
        ⟨rfl, rfl⟩ | ⟨rfl, rfl⟩ | ⟨rfl, rfl⟩ | ⟨rfl, rfl⟩ | ⟨rfl, rfl⟩ | ⟨rfl, rfl⟩ | ⟨rfl, rfl⟩ |
        ⟨rfl, rfl⟩ | ⟨rfl, rfl⟩ | ⟨rfl, rfl⟩ | ⟨rfl, rfl⟩ | ⟨rfl, rfl⟩ | ⟨rfl, rfl⟩ | ⟨rfl, rfl⟩ |
        ⟨rfl, rfl⟩
      all_goals exact hostRead_reg_idle hb rfl rfl
    exact ⟨hread, fun h => step_read_data h hread⟩
  · have hread := hostRead_word_idle hb hp hi
    exact ⟨hread, fun h => step_read_data h hread⟩

/-- Settles O11: ID and the P_ registers are readable in every state, and no step changes the
parameters (`step_params`). -/
theorem idAndParametersNeverChange : Obligations.IdAndParametersNeverChange := by
  intro s t h
  have hp := step_params h
  refine ⟨hp, fun u hu => ?_⟩
  have hup : u.params = s.params := by
    rcases hu with rfl | rfl
    · rfl
    · exact hp
  rw [← hup]
  refine ⟨?_, ?_, ?_, ?_, ?_, ?_, ?_⟩ <;> exact hostRead_readableBusy rfl rfl rfl

/-! ## STATUS and CTRL -/

/-- R23: a host write to STATUS acts on DONE alone. -/
theorem Status.hostWrite_eq (f : Status) (v : Word) :
    f.hostWrite v = { f with done := f.done && !v.getLsbD 1 } := by
  unfold Status.hostWrite
  cases v.getLsbD 1 <;> simp

theorem hostWrite_statusReg (s : State) (v : Word) :
    s.hostWrite (addressOf 0 0x02) v = some { s with status := s.status.hostWrite v } :=
  hostWrite_reg s (by norm_num) v

theorem hostWrite_ctrlReg (s : State) (v : Word) :
    s.hostWrite (addressOf 0 0x05) v = some { s with ctrl := Ctrl.ofWord v } :=
  hostWrite_reg s (by norm_num) v

/-- Settles O12: the fields of the two words (`status_word`, `ctrl_word`) and the two writes, none of
which looks at BUSY. -/
theorem statusAndCtrlRegisters : Obligations.StatusAndCtrlRegisters := by
  intro s v
  refine ⟨⟨_, hostRead_readableBusy rfl rfl rfl, status_word s.status⟩, ?_,
    ⟨_, hostRead_readableBusy rfl rfl rfl, ctrl_word s.ctrl⟩, hostWrite_ctrlReg s v, fun hie => ?_⟩
  · rw [hostWrite_statusReg, Status.hostWrite_eq]
  · simp [State.irq, hie]

/-! ## Length registers and ROOT -/

/-- A host write to a length register while idle (R27). -/
theorem hostWrite_len_idle {s : State} (hs : s.status.busy = false) {i : Nat} {sp : Space}
    (hr : regAt i = some (.len sp)) (v : Word) :
    s.hostWrite (addressOf 0 i) v =
      if sp.hostWritable = true ∧ v.toNat ≤ sp.cap s.params then some (s.setLen sp v) else none := by
  rw [hostWrite_reg s (regAt_lt hr), hr]
  by_cases hv : v.toNat ≤ sp.cap s.params <;> cases hw : sp.hostWritable <;>
    simp [State.writeReg, hs, hw, hv, Nat.not_lt.2, Nat.not_le.1]

/-- A length register moves no data and touches nothing but itself (R27). -/
theorem setLen_frame (s : State) (sp : Space) (v : Word) : Frame [sp] s (s.setLen sp v) := by
  refine ⟨⟨by simp, by simp, by simp, by simp, by simp, by simp⟩, fun r hr => ⟨?_, by simp⟩, by simp⟩
  have hne : r ≠ sp := by simpa using hr
  simp [hne]

theorem hostWrite_root_idle {s : State} (hs : s.status.busy = false) (v : Word) :
    s.hostWrite (addressOf 0 0x09) v = some (s.setRoot v) := by
  rw [hostWrite_reg s (by norm_num)]
  simp [regAt, State.writeReg, hs]

/-- Settles O13: the bound is the invariant's; a write to a length register is `setLen` when the host
may write it and the value fits, and a HostFault otherwise. -/
theorem lengthAndRootWrites : Obligations.LengthAndRootWrites := by
  intro s v hs hb
  refine ⟨hs.len_le, fun sp r hr => ?_, ?_, ?_,
    ⟨s.setRoot v, hostWrite_root_idle hb v, hostRead_reg_idle (s := s.setRoot v) hb rfl rfl, rfl⟩⟩
  · have hreg : regAt r = some (.len sp) ∧ sp.hostWritable = true := by
      simp only [List.mem_cons, Prod.mk.injEq, List.not_mem_nil, or_false] at hr
      rcases hr with ⟨rfl, rfl⟩ | ⟨rfl, rfl⟩ | ⟨rfl, rfl⟩ | ⟨rfl, rfl⟩ | ⟨rfl, rfl⟩ | ⟨rfl, rfl⟩ <;>
        exact ⟨rfl, rfl⟩
    obtain ⟨hat, hwr⟩ := hreg
    rw [hostWrite_len_idle hb hat]
    refine ⟨fun hv => if_neg fun h => by omega, fun hv => ⟨s.setLen sp v, if_pos ⟨hwr, hv⟩, ?_⟩⟩
    have hlen : (s.setLen sp v).len sp = v := by simp
    exact ⟨hostRead_reg_idle (by simpa using hb) hat hlen, hlen, by simp, by simp, by simp,
      setLen_frame s sp v, by simp, by simp⟩
  · rw [hostWrite_len_idle hb (sp := .hex) rfl]
    exact if_neg fun h => by cases h.1
  · rw [hostWrite_len_idle hb (sp := .out) rfl]
    exact if_neg fun h => by cases h.1

end Sys2Proof.Machine
end

section
/-! PROOF. What a step can do to the flags and to CMD, said once, and from it when BUSY and DONE rise
and fall and when CMD changes (R22, R23, R66, R67, R156, R171); which STAGE a running COMPRESS shows
(R103). -/

namespace Sys2Proof.Machine

open Sys2Proof

/-! ## The flags under a host write -/

theorem accept_busy (s : State) (w : Word) :
    (s.accept w).status.busy = decide (w.toNat ≤ 0xA) := by
  rcases accept_spec s w with ⟨i, rfl, he⟩ | ⟨hw, he⟩
  · rw [he, decide_eq_true (encode_le i)]
  · rw [he, decide_eq_false (by omega)]; rfl

theorem accept_done (s : State) (w : Word) :
    (s.accept w).status.done = decide (0xA < w.toNat) := by
  rcases accept_spec s w with ⟨i, rfl, he⟩ | ⟨hw, he⟩
  · rw [he, decide_eq_false (not_lt.2 (encode_le i))]; rfl
  · rw [he, decide_eq_true hw]; rfl

/-- Of all host writes only those to CMD and STATUS change the flags, and only those to CMD change
CMD. -/
theorem hostWrite_flags {s t : State} {a v : Word} (h : s.hostWrite a v = some t) :
    (a = addressOf 0 0x01 ∧ s.status.busy = false ∧ t = s.accept v) ∨
      (a = addressOf 0 0x02 ∧ t.status = s.status.hostWrite v ∧ t.cmd = s.cmd) ∨
      (t.status = s.status ∧ t.cmd = s.cmd) := by
  rcases hostWrite_spec h with h | ⟨ha, rfl⟩ | ⟨-, rfl⟩ | ⟨-, -, rfl⟩ | ⟨_, -, -, -, -, -, rfl⟩ |
    ⟨_, -, -, -, -, -, rfl⟩
  · exact .inl h
  · exact .inr (.inl ⟨ha, rfl, rfl⟩)
  all_goals exact .inr (.inr ⟨by simp, by simp⟩)

/-- Everything a step can do to the flags and to CMD. -/
theorem step_flags {s t : State} (h : step s = .next t) :
    (t.status = s.status ∧ t.cmd = s.cmd) ∨
      (EngineIsNext s ∧ s.status.busy = true ∧ ∃ i, decode s.cmd = .ok i ∧
        exec i { s with inbox := s.inbox.tail } = .next t) ∨
      (∃ w rest, s.inbox = .write (addressOf 0 0x01) w :: rest ∧ s.status.busy = false ∧
        t.status = (s.accept w).status ∧ t.cmd = w) ∨
      (∃ v rest, s.inbox = .write (addressOf 0 0x02) v :: rest ∧
        t.status = s.status.hostWrite v ∧ t.cmd = s.cmd) ∨
      (t.status = { s.status with stage := s.status.stage + 1 } ∧ t.cmd = s.cmd) ∨
      (∃ rest, s.inbox = .rst :: rest ∧ t.status = State.reset.status) := by
  rcases step_cases h with ⟨he, ⟨-, rfl⟩ | ⟨hb, hex⟩⟩ | ⟨_, _, _, -, rfl⟩ |
    ⟨a, v, rest, hib, ⟨-, rfl⟩ | ⟨u, hw, rfl⟩⟩ | ⟨_, -, rfl | ⟨rfl, -⟩⟩ | ⟨rest, hib, rfl⟩
  · exact .inl ⟨rfl, rfl⟩
  · exact .inr (.inl ⟨he, hb, hex⟩)
  · exact .inl ⟨rfl, rfl⟩
  · exact .inl ⟨rfl, rfl⟩
  · rcases hostWrite_flags hw with ⟨rfl, hb, rfl⟩ | ⟨rfl, hst, hc⟩ | hsame
    · exact .inr (.inr (.inl ⟨v, rest, hib, hb, rfl, State.accept_cmd s v⟩))
    · exact .inr (.inr (.inr (.inl ⟨v, rest, hib, hst, hc⟩)))
    · exact .inl hsame
  · exact .inl ⟨rfl, rfl⟩
  · exact .inr (.inr (.inr (.inr (.inl ⟨rfl, rfl⟩))))
  · exact .inr (.inr (.inr (.inr (.inr ⟨rest, hib, rfl⟩))))

/-- What the engine's step on a running command leaves of the flags and CMD (R67). -/
theorem exec_flags {s t : State} (hs : s.Inv) (hb : s.status.busy = true) {i : Instr}
    (hd : decode s.cmd = .ok i) {ib : List PortEvent}
    (hex : exec i { s with inbox := ib } = .next t) :
    t.status.busy = false ∧ t.status.done = true ∧ t.cmd = s.cmd := by
  obtain ⟨u, hu, -, htouch, hbusy, hdone, -⟩ := exec_accepted (exec_of_busy hs hb hd ib)
  obtain rfl : u = t := Host.Outcome.next.inj (hu.symm.trans hex)
  obtain ⟨-, hcmd, -⟩ := htouch.control
  exact ⟨hbusy, hdone, hcmd⟩

/-- Settles O21: of the steps that touch the flags, completion and the acceptance of an illegal word
set DONE; a write of 1 to bit 1 of STATUS, the acceptance of a legal word and reset clear it. -/
theorem doneRisesAndFallsAsStated : Obligations.DoneRisesAndFallsAsStated := by
  intro s t hs h
  rcases step_flags h with ⟨hst, -⟩ | ⟨he, hb, i, hd, hex⟩ | ⟨w, rest, hib, hb, hst, -⟩ |
    ⟨v, rest, hib, hst, -⟩ | ⟨hst, -⟩ | ⟨rest, hib, hst⟩
  · exact ⟨fun h0 h1 => by simp [hst, h0] at h1, fun h1 h0 => by simp [hst, h1] at h0⟩
  · obtain ⟨-, hdone, -⟩ := exec_flags hs hb hd hex
    exact ⟨fun _ _ => .inl ⟨hb, he⟩, fun _ h0 => by simp [h0] at hdone⟩
  · rw [hst, accept_done]
    exact ⟨fun _ hw => .inr ⟨w, rest, hb, hib, of_decide_eq_true hw⟩,
      fun _ hw => .inr (.inl ⟨w, rest, hb, hib, not_lt.1 (of_decide_eq_false hw)⟩)⟩
  · rw [hst, Status.hostWrite_eq]
    exact ⟨fun h0 h1 => by simp [h0] at h1,
      fun h1 h0 => .inl ⟨v, rest, hib, by simpa [h1] using h0⟩⟩
  · exact ⟨fun h0 h1 => by simp [hst, h0] at h1, fun h1 h0 => by simp [hst, h1] at h0⟩
  · exact ⟨fun _ h1 => by simp [hst, State.reset] at h1, fun _ _ => .inr (.inr ⟨rest, hib⟩)⟩

/-- Settles O22: an accepted legal word alone sets BUSY; the engine's step and reset alone clear it,
since a word is accepted only while BUSY is 0. -/
theorem commandsStartAndEndAsStated : Obligations.CommandsStartAndEndAsStated := by
  intro s t h
  rcases step_flags h with ⟨hst, -⟩ | ⟨he, hb, -⟩ | ⟨w, rest, hib, hb, hst, hcmd⟩ |
    ⟨v, rest, -, hst, -⟩ | ⟨hst, -⟩ | ⟨rest, hib, hst⟩
  · exact ⟨fun h0 h1 => by simp [hst, h0] at h1, fun h1 h0 => by simp [hst, h1] at h0⟩
  · exact ⟨fun h0 _ => by simp [h0] at hb, fun _ _ => he.imp id .inl⟩
  · rw [hst, accept_busy]
    exact ⟨fun _ hw => ⟨w, rest, hib, of_decide_eq_true hw, hcmd⟩, fun h1 _ => by simp [h1] at hb⟩
  · rw [hst, Status.hostWrite_eq]
    exact ⟨fun h0 h1 => by simp [h0] at h1, fun h1 h0 => by simp [h1] at h0⟩
  · exact ⟨fun h0 h1 => by simp [hst, h0] at h1, fun h1 h0 => by simp [hst, h1] at h0⟩
  · exact ⟨fun _ h1 => by simp [hst, State.reset] at h1, fun _ _ => .inr (.inr ⟨rest, hib⟩)⟩

/-- Settles O23: acceptance puts the word in CMD; no other event but reset touches CMD. -/
theorem cmdHoldsTheLastWordWritten : Obligations.CmdHoldsTheLastWordWritten := by
  intro s t hs h
  refine ⟨fun w rest hb hib => ?_, fun hne => ?_⟩
  · have hw : s.hostWrite (addressOf 0 0x01) w = some (s.accept w) := by rw [hostWrite_cmd, hb]; rfl
    rw [step_write_done hib hw] at h
    cases h
    exact ⟨State.accept_cmd s w, rfl⟩
  · rcases step_flags h with ⟨-, hc⟩ | ⟨-, hb, i, hd, hex⟩ | ⟨w, rest, hib, hb, -, rfl⟩ |
      ⟨_, _, -, -, hc⟩ | ⟨-, hc⟩ | ⟨rest, hib, -⟩
    · exact absurd hc hne
    · exact absurd (exec_flags hs hb hd hex).2.2 hne
    · exact .inl ⟨rest, hb, hib⟩
    · exact absurd hc hne
    · exact absurd hc hne
    · exact .inr ⟨rest, hib⟩

/-! ## STAGE of a running COMPRESS -/

/-- The stages before the one that comes next succeed on this state: what R103 asks for STAGE to move
on. -/
def StagesDone (s : State) : Prop :=
  ∃ v, afterStages (CompressStage.order.take s.status.stage.toNat) s = .ok v

/-- When a `progress` event moves STAGE (R23, R103). -/
theorem compressProgress_moves {s : State} (hb : s.status.busy = true)
    (hc : s.cmd = encode .compress) (hlt : s.status.stage.toNat < 4) (hd : StagesDone s) :
    compressProgress s = s.setStage (s.status.stage + 1) := by
  obtain ⟨v, hv⟩ := hd
  simp [compressProgress, hb, hc, hlt, hv]

/-- When a `progress` event changes nothing. -/
theorem compressProgress_stays {s : State} (h : ¬ (s.status.busy = true ∧ s.cmd = encode .compress ∧
    s.status.stage.toNat < 4 ∧ StagesDone s)) : compressProgress s = s := by
  unfold compressProgress
  split
  · rename_i hrun
    simp only [Bool.and_eq_true, beq_iff_eq, decide_eq_true_eq] at hrun
    obtain ⟨⟨hb, hc⟩, hlt⟩ := hrun
    split
    · rename_i v hv
      exact absurd ⟨hb, hc, hlt, v, hv⟩ h
    · rfl
  · rfl

/-- The first three stages of COMPRESS succeed as far as the commands FREQ, BUILD and CODES, run one
after another, end without an error (R103). -/
theorem afterStages_commands {s a b c : State} (hs : s.DataOk) (he : s.status.err = false)
    (hf : exec .freq s = .next a) (hbd : exec .build a = .next b) (hcd : exec .codes b = .next c) :
    ((∃ v, afterStages [.freq] s = .ok v) ↔ a.status.err = false) ∧
      ((∃ v, afterStages [.freq, .build] s = .ok v) ↔ a.status.err = false ∧ b.status.err = false) ∧
      ((∃ v, afterStages [.freq, .build, .codes] s = .ok v) ↔
        a.status.err = false ∧ b.status.err = false ∧ c.status.err = false) := by
  cases hf; cases hbd; cases hcd
  have ha := (runBody_spec hs fun t => freqBody_delivers hs).2.2.1
  have hb := (runBody_spec ha fun t => buildBody_delivers ha).2.2.1
  have nil (u : State) : ∃ v, afterStages [] u = .ok v := ⟨u, rfl⟩
  have one (later) := afterStages_command .freq later hs he
  have two (later) (h1) := afterStages_command .build later ha h1
  have three (later) (h2) := afterStages_command .codes later hb h2
  refine ⟨?_, ?_, ?_⟩
  · exact (one _).trans (and_iff_left (nil _))
  · exact (one _).trans (and_congr_right fun h1 => (two _ h1).trans (and_iff_left (nil _)))
  · exact (one _).trans (and_congr_right fun h1 => (two _ h1).trans
      (and_congr_right fun h2 => (three _ h2).trans (and_iff_left (nil _))))

/-- A running COMPRESS stands in a stage from which the commands up to it have succeeded, and STAGE
may move on: in the words of the commands FREQ, BUILD and CODES. -/
theorem stageMayMove_iff {s a b c : State} (hs : s.Inv) (hbusy : s.status.busy = true)
    (hcmd : s.cmd = encode .compress) (hf : exec .freq s = .next a)
    (hbd : exec .build a = .next b) (hcd : exec .codes b = .next c) :
    (s.status.stage.toNat < 4 ∧ StagesDone s) ↔
      (s.status.stage = 1 ∧ a.status.err = false) ∨
        (s.status.stage = 2 ∧ a.status.err = false ∧ b.status.err = false) ∨
        (s.status.stage = 3 ∧ a.status.err = false ∧ b.status.err = false ∧
          c.status.err = false) := by
  obtain ⟨h1, h2, h3⟩ :=
    afterStages_commands hs.toDataOk (hs.busy_clear hbusy).2 hf hbd hcd
  have hstage := hs.stage_ok
  rw [if_pos hcmd] at hstage
  have hcases : s.status.stage = 1 ∨ s.status.stage = 2 ∨ s.status.stage = 3 ∨
      s.status.stage = 4 := by
    bv_omega
  unfold StagesDone
  rcases hcases with hst | hst | hst | hst <;> rw [hst]
  · simpa [CompressStage.order] using h1
  · simpa [CompressStage.order] using h2
  · simpa [CompressStage.order] using h3
  · simp

/-- Settles O24: the event is `compressProgress`, which moves STAGE when the stages so far succeed;
that is what `stageMayMove_iff` says with commands. -/
theorem stageMovesForwardOnly : Obligations.StageMovesForwardOnly := by
  intro s t a b c rest hs hib h hf hbd hcd
  have hs' : State.Inv { s with inbox := rest } := hs.congr_host rest s.resp
  rw [step_event hib] at h
  obtain rfl : compressProgress { s with inbox := rest } = t := Host.Outcome.next.inj h
  refine ⟨fun ⟨hbusy, hcmd, hok⟩ => ?_, fun hno => ?_⟩
  · obtain ⟨hlt, hdone⟩ := (stageMayMove_iff hs' hbusy hcmd hf hbd hcd).2 hok
    rw [compressProgress_moves (s := { s with inbox := rest }) hbusy hcmd hlt hdone]
    have hadd : (s.status.stage + 1).toNat = s.status.stage.toNat + 1 := by
      have hlt' : s.status.stage.toNat < 4 := hlt
      bv_omega
    exact ⟨rfl, hadd, hadd ▸ Nat.succ_le_of_lt hlt⟩
  · refine compressProgress_stays fun ⟨hbusy, hcmd, hmay⟩ => hno ⟨hbusy, hcmd, ?_⟩
    exact (stageMayMove_iff hs' hbusy hcmd hf hbd hcd).1 hmay

end Sys2Proof.Machine
end

section
/-! PROOF. The reset input, what is read after reset, and who may write a buffer word (R12, R18, R19,
R37, R170, R171). -/

namespace Sys2Proof.Machine

open Sys2Proof

/-! ## Reset -/

/-- Settles O25: the event is `State.rst`, and its words are `State.rst_word`. -/
theorem resetInputAbandonsEverything : Obligations.ResetInputAbandonsEverything := by
  intro s rest hib
  refine ⟨State.rst { s with inbox := rest }, step_event hib, rfl, rfl, rfl, rfl, rfl, rfl,
    fun sp => ?_, rfl, rfl, State.rst_word _⟩
  cases sp <;> rfl

/-- Settles O1: the registers by the register map; a buffer word is in its layout because the
invariant holds at reset; the values are empty because the lengths are 0. -/
theorem resetState : Obligations.ResetState := by
  have reg {i : Nat} {r : Reg} {w : Word} (hr : regAt i = some r)
      (hw : State.reset.readReg r = w) : State.reset.hostRead (addressOf 0 i) = some w :=
    hostRead_reg_idle rfl hr hw
  refine ⟨reg rfl rfl, reg rfl rfl, reg rfl rfl, reg rfl rfl, reg rfl rfl, reg rfl rfl, reg rfl rfl,
    reg rfl rfl, reg rfl rfl, reg rfl rfl, reg rfl rfl, reg rfl rfl, reg rfl rfl, reg rfl rfl,
    reg rfl rfl, reg rfl rfl, reg rfl rfl, reg rfl rfl, reg rfl rfl, reg rfl rfl, reg rfl rfl, rfl,
    fun sp i hi => ?_, rfl, rfl, rfl, rfl, rfl, rfl, rfl, rfl⟩
  have hlegal := reset_dataOk.params_legal
  exact ⟨_, hostRead_word_idle rfl hlegal hi, State.word_layout hlegal reset_dataOk.mem_wf sp i⟩

/-! ## Who writes a buffer word -/

/-- A host write the port takes changes no buffer but the one it addresses, and that only if the host
may write it (R40). -/
theorem hostWrite_word_changed {s t : State} {a v : Word} (h : s.hostWrite a v = some t) {sp : Space}
    {i : Nat} (hne : t.word sp i ≠ s.word sp i) :
    spaceNumber a = sp.number ∧ sp.hostWritable = true := by
  rcases hostWrite_spec h with ⟨-, -, rfl⟩ | ⟨-, rfl⟩ | ⟨-, rfl⟩ | ⟨-, -, rfl⟩ |
    ⟨_, -, -, -, -, -, rfl⟩ | ⟨r, hnum, -, hwr, -, -, rfl⟩
  · exact absurd (State.accept_word s v sp i) hne
  · exact absurd rfl hne
  · exact absurd rfl hne
  · exact absurd rfl hne
  · exact absurd (State.setLen_word s _ v sp i) hne
  · obtain rfl : sp = r := by
      by_contra hsp
      exact hne (by simp [hsp])
    exact ⟨hnum, hwr⟩

/-- Everything that can change a word of a buffer: a host write to its space, the completion of a
command with the buffer among its destinations, and reset. -/
theorem step_word_changed {s t : State} (hs : s.Inv) (h : step s = .next t) {sp : Space} {i : Nat}
    (hne : t.word sp i ≠ s.word sp i) :
    (sp.hostWritable = true ∧
        ∃ a v rest, s.inbox = .write a v :: rest ∧ spaceNumber a = sp.number) ∨
      (∃ j, s.status.busy = true ∧ s.cmd = encode j ∧ t.status.busy = false ∧ j ≠ .clear ∧
        sp ∈ dests j) ∨
      ∃ rest, s.inbox = .rst :: rest := by
  rcases step_cases h with ⟨-, ⟨-, rfl⟩ | ⟨hb, j, hd, hex⟩⟩ | ⟨_, _, _, -, rfl⟩ |
    ⟨a, v, rest, hib, ⟨-, rfl⟩ | ⟨u, hw, rfl⟩⟩ | ⟨_, -, rfl | ⟨rfl, -⟩⟩ | ⟨rest, hib, rfl⟩
  · exact absurd rfl hne
  · have hdest : ¬ (j = .clear ∨ sp ∉ dests j) := fun hout =>
      hne (exec_word (exec_of_busy hs hb hd s.inbox.tail) hex hout i)
    rw [not_or, not_not] at hdest
    exact .inr (.inl ⟨j, hb, decode_eq_ok.1 hd, (exec_flags hs hb hd hex).1, hdest⟩)
  · exact absurd rfl hne
  · exact absurd rfl hne
  · obtain ⟨hnum, hwr⟩ := hostWrite_word_changed hw hne
    exact .inl ⟨hwr, a, v, rest, hib, hnum⟩
  · exact absurd rfl hne
  · exact absurd rfl hne
  · exact .inr (.inr ⟨rest, hib⟩)

/-- TEXT is no command's destination, HEX that of TOHEX alone, OUT that of DECODE alone (R62). -/
theorem dests_text_hex_out {j : Instr} (hj : j ≠ .clear) :
    Space.text ∉ dests j ∧ (Space.hex ∈ dests j → j = .toHex) ∧
      (Space.out ∈ dests j → j = .decode) := by
  revert hj
  cases j <;> decide

/-- Settles O30: the host may write TEXT but not HEX and OUT, and of the commands TOHEX alone has HEX
and DECODE alone has OUT as a destination. -/
theorem textHexOutHaveOneWriter : Obligations.TextHexOutHaveOneWriter := by
  intro s t hs h
  refine ⟨fun ⟨i, hne⟩ => ?_, fun ⟨i, hne⟩ => ?_, fun ⟨i, hne⟩ => ?_⟩ <;>
    rcases step_word_changed hs h hne with ⟨hwr, hw⟩ | ⟨j, hb, hc, hidle, hj, hmem⟩ | hr
  · exact .inl hw
  · exact absurd hmem (dests_text_hex_out hj).1
  · exact .inr hr
  · cases hwr
  · exact .inl ⟨hb, (dests_text_hex_out hj).2.1 hmem ▸ hc, hidle⟩
  · exact .inr hr
  · cases hwr
  · exact .inl ⟨hb, (dests_text_hex_out hj).2.2 hmem ▸ hc, hidle⟩
  · exact .inr hr

end Sys2Proof.Machine
end

section
/-! PROOF. The engine's step on a running command, and that no run from a state that meets the
invariant stops (R64, R66, R67, R186). -/

namespace Sys2Proof.Machine

open Sys2Proof

/-- Settles O7: with an empty inbox and with the engine's event the step is the engine's, which
executes the decoded command. -/
theorem stepRunsTheDecodedCommand : Obligations.StepRunsTheDecodedCommand := by
  intro s i hb hd
  refine ⟨fun hib => ?_, fun rest hib => ?_⟩
  · have hstep : step s = engineStep s := by unfold step; rw [hib]
    rw [hstep, engineStep_accepted hb hd]
  · rw [step_event hib]
    exact engineStep_accepted (s := { s with inbox := rest }) hb hd

/-- A run of one more step is that step and the run from where it leads. -/
theorem core_run_succ {s t : State} (h : step s = .next t) (k : Nat) :
    Sys2Proof.core.run (k + 1) s = Sys2Proof.core.run k t := by
  have hcore : Sys2Proof.core.step s = .next t := h
  simp only [Host.Core.run, hcore]

/-- Every number of steps leads on from a state that meets the invariant to one that meets it. -/
theorem run_inv {s : State} (h : s.Inv) (k : Nat) :
    ∃ t : State, Sys2Proof.core.run k s = .next t ∧ t.Inv := by
  induction k generalizing s with
  | zero => exact ⟨s, rfl, h⟩
  | succ k ih =>
    obtain ⟨u, hstep, hu⟩ := step_inv h
    obtain ⟨t, hrun, ht⟩ := ih hu
    exact ⟨t, (core_run_succ hstep k).trans hrun, ht⟩

/-- Settles O4: by induction on the number of steps, each of which has a next state and keeps the
invariant (`run_inv`). -/
theorem everyRunIsSafe : Obligations.EveryRunIsSafe := by
  intro s hs k
  obtain ⟨t, hrun, -⟩ := run_inv hs k
  exact ⟨t, hrun⟩

end Sys2Proof.Machine
end

section
/-! PROOF. Which transactions the port refuses: the causes of HostFault (R52), and what is left
to the host while a command runs (R54). -/

namespace Sys2Proof.Machine

open Sys2Proof

/-! ## Every address names a register, no register, a place in a space, or no space -/

/-- The REG index of a register (R20). -/
def Reg.index : Reg → Nat
  | .ctl .id => 0x00
  | .ctl .cmd => 0x01
  | .ctl .status => 0x02
  | .ctl .errCode => 0x03
  | .ctl .errInfo => 0x04
  | .ctl .ctrl => 0x05
  | .len .text => 0x06
  | .len .freq => 0x07
  | .len .node => 0x08
  | .root => 0x09
  | .len .code => 0x0A
  | .len .bits => 0x0B
  | .len .bytes => 0x0C
  | .len .hex => 0x0D
  | .len .out => 0x0E
  | .ctl .pSymW => 0x10
  | .ctl .pTextCap => 0x11
  | .ctl .pAlphaCap => 0x12
  | .ctl .pCodeMaxLen => 0x13
  | .ctl .pBitCap => 0x14
  | .ctl .pOutCap => 0x15

@[simp] theorem regAt_index (r : Reg) : regAt r.index = some r := by
  cases r with
  | ctl r => cases r <;> rfl
  | len sp => cases sp <;> rfl
  | root => rfl

theorem index_of_regAt {i : Nat} {r : Reg} (h : regAt i = some r) : i = r.index := by
  unfold regAt at h
  split at h <;> cases h <;> rfl

theorem Reg.index_lt (r : Reg) : r.index < 2 ^ 28 := regAt_lt (regAt_index r)

@[simp] theorem Space.number_mod (sp : Space) : sp.number % 16 = sp.number := by cases sp <;> rfl

theorem Space.number_inj {sp r : Space} (h : sp.number = r.number) : sp = r :=
  Option.some.inj (by rw [← spaceOf_number sp, h, spaceOf_number])

theorem address_cases (a : Word) :
    (∃ r : Reg, a = addressOf 0 r.index) ∨
      (∃ i, i < 2 ^ 28 ∧ regAt i = none ∧ a = addressOf 0 i) ∨
      (∃ (sp : Space) (i : Nat), i < 2 ^ 28 ∧ a = addressOf sp.number i) ∨ 9 ≤ spaceNumber a := by
  have hi := wordIndex_lt a
  by_cases h0 : spaceNumber a = 0
  · have ha : a = addressOf 0 (wordIndex a) := (eq_addressOf_iff (by omega) hi).2 ⟨h0, rfl⟩
    cases hr : regAt (wordIndex a) with
    | some r => exact .inl ⟨r, index_of_regAt hr ▸ ha⟩
    | none => exact .inr (.inl ⟨_, hi, hr, ha⟩)
  · cases hsp : spaceOf (spaceNumber a) with
    | some sp =>
      exact .inr (.inr (.inl ⟨sp, _, hi, spaceOf_eq_some hsp ▸ (addressOf_self a).symm⟩))
    | none => exact .inr (.inr (.inr (spaceOf_eq_none h0 hsp (spaceNumber_lt a))))

/-! ## What the port answers at each -/

theorem hostRead_index (s : State) (r : Reg) : s.hostRead (addressOf 0 r.index) =
    if s.status.busy && !r.readableBusy then none else some (s.readReg r) := by
  rw [hostRead_reg s r.index_lt, regAt_index]; rfl

theorem hostWrite_index (s : State) (r : Reg) (v : Word) :
    s.hostWrite (addressOf 0 r.index) v = s.writeReg v r := by
  rw [hostWrite_reg s r.index_lt, regAt_index]; rfl

theorem hostRead_reserved (s : State) {i : Nat} (hi : i < 2 ^ 28) (hr : regAt i = none) :
    s.hostRead (addressOf 0 i) = none := by
  rw [hostRead_reg s hi, hr]; rfl

theorem hostWrite_reserved (s : State) {i : Nat} (hi : i < 2 ^ 28) (hr : regAt i = none)
    (v : Word) : s.hostWrite (addressOf 0 i) v = none := by
  rw [hostWrite_reg s hi, hr]; rfl

theorem spaceOf_beyond {n : Nat} (h : 9 ≤ n) : spaceOf n = none := by
  cases hsp : spaceOf n with
  | none => rfl
  | some sp =>
    have := spaceOf_eq_some hsp
    have := sp.number_pos
    omega

theorem hostRead_beyond (s : State) {a : Word} (h : 9 ≤ spaceNumber a) : s.hostRead a = none := by
  have h0 : spaceNumber a ≠ 0 := by omega
  simp [State.hostRead, h0, spaceOf_beyond h]

theorem hostWrite_beyond (s : State) {a : Word} (h : 9 ≤ spaceNumber a) (v : Word) :
    s.hostWrite a v = none := by
  have h0 : spaceNumber a ≠ 0 := by omega
  simp [State.hostWrite, h0, spaceOf_beyond h]

/-- The registers that a host write can change (R20): all but ID, ERRCODE, ERRINFO, HEXLEN, OUTLEN
and the P_ registers. -/
def Reg.hostWritable : Reg → Bool
  | .ctl .cmd | .ctl .status | .ctl .ctrl | .root => true
  | .len sp => sp.hostWritable
  | .ctl .id | .ctl .errCode | .ctl .errInfo => false
  | .ctl .pSymW | .ctl .pTextCap | .ctl .pAlphaCap | .ctl .pCodeMaxLen | .ctl .pBitCap
  | .ctl .pOutCap => false

/-- The registers the host may write while BUSY (R54). -/
def Reg.writableBusy : Reg → Bool
  | .ctl .status | .ctl .ctrl => true
  | .ctl _ | .len _ | .root => false

/-- When a write to a register faults: it is read-only, the value passes the capacity, or the engine
is busy and the register is neither STATUS nor CTRL. -/
theorem writeReg_eq_none (s : State) (v : Word) (r : Reg) : s.writeReg v r = none ↔
    r.hostWritable = false ∨ (∃ sp, r = .len sp ∧ sp.cap s.params < v.toNat) ∨
      (s.status.busy = true ∧ r.writableBusy = false) := by
  cases r with
  | ctl r => cases r <;> simp [State.writeReg, Reg.hostWritable, Reg.writableBusy]
  | len sp =>
    cases hb : s.status.busy <;> cases hw : sp.hostWritable <;>
      simp [State.writeReg, Reg.hostWritable, Reg.writableBusy, hb, hw]
  | root => simp [State.writeReg, Reg.hostWritable, Reg.writableBusy]

/-! ## The causes at each -/

section
variable {p : Params} {sp : Space} {i : Nat}

theorem noSuchWord_reg (hi : i < 2 ^ 28) : NoSuchWord p (addressOf 0 i) ↔ regAt i = none := by
  have hno : ∀ sp : Space, 0 ≠ sp.number := fun sp => by have := sp.number_pos; omega
  simp only [NoSuchWord, spaceNumber_addressOf, wordIndex_addressOf, Nat.mod_eq_of_lt hi,
    regAt_none]
  simp [hno]

theorem noSuchWord_word (hi : i < 2 ^ 28) :
    NoSuchWord p (addressOf sp.number i) ↔ sp.size p ≤ i := by
  have hpos := sp.number_pos
  simp only [NoSuchWord, spaceNumber_addressOf, wordIndex_addressOf, Nat.mod_eq_of_lt hi,
    Space.number_mod]
  constructor
  · rintro (h | ⟨h, -⟩ | ⟨r, hr, hle⟩)
    · omega
    · omega
    · exact Space.number_inj hr ▸ hle
  · exact fun hle => .inr (.inr ⟨sp, rfl, hle⟩)

/-- The lists of indices in R54 and R20 name the registers that the port lets through. -/
theorem Reg.index_mem (r : Reg) :
    (r.index ∈ [0x00, 0x02, 0x05, 0x10, 0x11, 0x12, 0x13, 0x14, 0x15] ↔ r.readableBusy = true) ∧
      (r.index ∈ [0x02, 0x05] ↔ r.writableBusy = true) ∧
      (r.index ∈ [0x00, 0x03, 0x04, 0x0D, 0x0E, 0x10, 0x11, 0x12, 0x13, 0x14, 0x15] ↔
        r.hostWritable = false) := by
  cases r with
  | ctl r => cases r <;> decide
  | len sp => cases sp <;> decide
  | root => decide

theorem readableBusy_index (r : Reg) :
    ReadableBusy (addressOf 0 r.index) ↔ r.readableBusy = true := by
  obtain ⟨hmem, -, -⟩ := r.index_mem
  rw [ReadableBusy, wordIndex_addressOf, Nat.mod_eq_of_lt r.index_lt, hmem]
  simp

theorem writableBusy_index (r : Reg) :
    WritableBusy (addressOf 0 r.index) ↔ r.writableBusy = true := by
  obtain ⟨-, hmem, -⟩ := r.index_mem
  rw [WritableBusy, wordIndex_addressOf, Nat.mod_eq_of_lt r.index_lt, hmem]
  simp

theorem readOnlyWord_index (r : Reg) :
    ReadOnlyWord (addressOf 0 r.index) ↔ r.hostWritable = false := by
  obtain ⟨-, -, hmem⟩ := r.index_mem
  rw [ReadOnlyWord, wordIndex_addressOf, Nat.mod_eq_of_lt r.index_lt, hmem]
  simp

theorem lengthBound_index (r : Reg) (c : Nat) :
    lengthBound p r.index = some c ↔ ∃ sp, r = .len sp ∧ sp.cap p = c := by
  cases r with
  | ctl r => cases r <;> simp [Reg.index, lengthBound]
  | len sp => cases sp <;> simp [Reg.index, lengthBound, Space.cap]
  | root => simp [Reg.index, lengthBound]

theorem valueTooLarge_index (r : Reg) (v : Word) :
    ValueTooLarge p (addressOf 0 r.index) v ↔ ∃ sp, r = .len sp ∧ sp.cap p < v.toNat := by
  simp only [ValueTooLarge, spaceNumber_addressOf, wordIndex_addressOf,
    Nat.mod_eq_of_lt r.index_lt, lengthBound_index]
  constructor
  · rintro (⟨-, _, ⟨sp, hr, rfl⟩, hlt⟩ | ⟨h, -⟩)
    · exact ⟨sp, hr, hlt⟩
    · cases h
  · rintro ⟨sp, hr, hlt⟩
    exact .inl ⟨trivial, _, ⟨sp, hr, rfl⟩, hlt⟩

/-- A place in a buffer is no place in space REG. -/
theorem spaceNumber_word_ne_zero : spaceNumber (addressOf sp.number i) ≠ 0 := by
  have := sp.number_pos
  rw [spaceNumber_addressOf, Space.number_mod]
  omega

theorem not_readableBusy_word : ¬ ReadableBusy (addressOf sp.number i) :=
  fun ⟨h0, _⟩ => spaceNumber_word_ne_zero h0

theorem not_writableBusy_word : ¬ WritableBusy (addressOf sp.number i) :=
  fun ⟨h0, _⟩ => spaceNumber_word_ne_zero h0

theorem readOnlyWord_word :
    ReadOnlyWord (addressOf sp.number i) ↔ sp.hostWritable = false := by
  simp only [ReadOnlyWord, spaceNumber_addressOf, Space.number_mod]
  cases sp <;> simp [Space.number, Space.hostWritable]

theorem valueTooLarge_word (hi : i < 2 ^ 28) (v : Word) :
    ValueTooLarge p (addressOf sp.number i) v ↔ codeLenTooLong p sp i v = true := by
  simp only [ValueTooLarge, spaceNumber_addressOf, wordIndex_addressOf, Nat.mod_eq_of_lt hi,
    Space.number_mod, codeLenTooLong]
  cases sp <;> simp [Space.number]

end

/-! ## Every cause of HostFault -/

theorem hostRead_eq_none (s : State) (a : Word) : s.hostRead a = none ↔
    NoSuchWord s.params a ∨ (s.status.busy = true ∧ ¬ ReadableBusy a) := by
  rcases address_cases a with ⟨r, rfl⟩ | ⟨i, hi, hr, rfl⟩ | ⟨sp, i, hi, rfl⟩ | h
  · simp [hostRead_index, noSuchWord_reg r.index_lt, readableBusy_index]
  · simp [hostRead_reserved s hi hr, noSuchWord_reg hi, hr]
  · rw [hostRead_word s sp hi, noSuchWord_word hi]
    cases s.status.busy <;> simp [not_readableBusy_word]
  · exact iff_of_true (hostRead_beyond s h) (.inl (.inl h))

theorem hostWrite_eq_none (s : State) (a v : Word) : s.hostWrite a v = none ↔
    NoSuchWord s.params a ∨ ReadOnlyWord a ∨ ValueTooLarge s.params a v ∨
      (s.status.busy = true ∧ ¬ WritableBusy a) := by
  rcases address_cases a with ⟨r, rfl⟩ | ⟨i, hi, hr, rfl⟩ | ⟨sp, i, hi, rfl⟩ | h
  · simp [hostWrite_index, writeReg_eq_none, noSuchWord_reg r.index_lt, readOnlyWord_index,
      valueTooLarge_index, writableBusy_index]
  · simp [hostWrite_reserved s hi hr, noSuchWord_reg hi, hr]
  · rw [hostWrite_word s sp hi, noSuchWord_word hi, readOnlyWord_word, valueTooLarge_word hi]
    cases s.status.busy <;> cases sp.hostWritable <;>
      cases codeLenTooLong s.params sp i v <;> simp [not_writableBusy_word]
  · exact iff_of_true (hostWrite_beyond s h v) (.inl (.inl h))

/-- Settles O9: the causes by the kind of the address (`hostRead_eq_none`, `hostWrite_eq_none`); a
transaction that faults leaves only its response (`step_read_fault`, `step_write_fault`). -/
theorem hostFaultCauses : Obligations.HostFaultCauses := by
  intro s a v
  refine ⟨hostRead_eq_none s a, hostWrite_eq_none s a v, fun h rest => ?_, fun h rest => ?_⟩
  · exact step_read_fault (s := { s with inbox := .read a :: rest }) rfl
      ((hostRead_inbox s _ a).trans h)
  · exact step_write_fault (s := { s with inbox := .write a v :: rest }) rfl
      (by rw [hostWrite_inbox, h]; rfl)

/-! ## While a command runs -/

theorem readableBusy_iff (a : Word) : ReadableBusy a ↔
    a ∈ [addressOf 0 0x00, addressOf 0 0x02, addressOf 0 0x05, addressOf 0 0x10,
      addressOf 0 0x11, addressOf 0 0x12, addressOf 0 0x13, addressOf 0 0x14,
      addressOf 0 0x15] := by
  simp [ReadableBusy, eq_addressOf_iff, and_or_left]

theorem writableBusy_iff (a : Word) :
    WritableBusy a ↔ a ∈ [addressOf 0 0x02, addressOf 0 0x05] := by
  simp [WritableBusy, eq_addressOf_iff, and_or_left]

/-- While BUSY the host reads exactly what R54 leaves it. -/
theorem hostRead_busy {s : State} (hb : s.status.busy = true) (a : Word) :
    (∃ w, s.hostRead a = some w) ↔ ReadableBusy a := by
  refine ⟨fun ⟨w, hw⟩ => ?_, fun ha => ?_⟩
  · by_contra hn
    rw [(hostRead_eq_none s a).2 (.inr ⟨hb, hn⟩)] at hw
    cases hw
  · rw [readableBusy_iff] at ha
    simp only [List.mem_cons, List.not_mem_nil, or_false] at ha
    rcases ha with rfl | rfl | rfl | rfl | rfl | rfl | rfl | rfl | rfl <;>
      exact ⟨_, hostRead_readableBusy rfl rfl rfl⟩

/-- While BUSY the host writes exactly what R54 leaves it. -/
theorem hostWrite_busy {s : State} (hb : s.status.busy = true) (a v : Word) :
    (∃ t, s.hostWrite a v = some t) ↔ WritableBusy a := by
  refine ⟨fun ⟨t, ht⟩ => ?_, fun ha => ?_⟩
  · by_contra hn
    rw [(hostWrite_eq_none s a v).2 (.inr (.inr (.inr ⟨hb, hn⟩)))] at ht
    cases ht
  · rw [writableBusy_iff] at ha
    simp only [List.mem_cons, List.not_mem_nil, or_false] at ha
    rcases ha with rfl | rfl
    · exact ⟨_, hostWrite_statusReg s v⟩
    · exact ⟨_, hostWrite_ctrlReg s v⟩

/-- Settles O10: R52's busy cause leaves the addresses of R54; a write of STATUS acts on DONE alone,
which the invariant has at 0 while BUSY. -/
theorem busyExclusion : Obligations.BusyExclusion := by
  intro s hs hb
  refine ⟨fun a => (hostRead_busy hb a).trans (readableBusy_iff a),
    fun a v => (hostWrite_busy hb a v).trans (writableBusy_iff a), fun v => ?_,
    hostWrite_ctrlReg s⟩
  obtain ⟨hdone, -⟩ := hs.busy_clear hb
  have hsame : s.status.hostWrite v = s.status := by
    rw [Status.hostWrite_eq, hdone, Bool.false_and, ← hdone]
  rw [hostWrite_statusReg, hsame]

end Sys2Proof.Machine
end

section
/-! PROOF. The layouts of the buffers' words: what a write keeps of a value, and that every word is
in its layout (R41 to R49). -/

namespace Sys2Proof.Machine

open Sys2Proof

/-! ## What the layout of a word keeps -/

theorem lowBits_lt (n : Nat) (w : Word) : (lowBits n w).toNat < 2 ^ n := by
  rw [lowBits_toNat]
  exact Nat.mod_lt _ (Nat.two_pow_pos n)

section
variable {p : Params} {i : Nat}

theorem layout_freq_even (hi : i % 2 = 0) (w : Word) :
    Space.layout p .freq i w = lowBits p.symW w := if_pos hi

theorem layout_freq_odd (hi : i % 2 = 1) (w : Word) : Space.layout p .freq i w = w :=
  if_neg (by omega)

/-- The kind bit and the symbol of a node's first word (R45). -/
theorem layout_node_first (hp : p.Legal) (hi : i % 4 = 0) (w : Word) :
    (Space.layout p .node i w).getLsbD 31 = w.getLsbD 31 ∧
      (Space.layout p .node i w).toNat % 2 ^ 31 = w.toNat % 2 ^ p.symW := by
  obtain ⟨⟨-, hs⟩, -⟩ := hp
  have hlay : Space.layout p .node i w = (w &&& kindBit) ||| lowBits p.symW w := if_pos hi
  have hlt : w.toNat % 2 ^ p.symW < 2 ^ 31 :=
    lt_of_lt_of_le (Nat.mod_lt _ (Nat.two_pow_pos _)) (Nat.pow_le_pow_right (by omega) hs)
  have hkind : kindBit.toNat % 2 ^ 31 = 0 := by decide
  rw [hlay]
  constructor
  · have h31 : ¬ 31 < p.symW := by omega
    have hk : kindBit.getLsbD 31 = true := by decide
    simp only [BitVec.getLsbD_or, BitVec.getLsbD_and, lowBits_getLsbD, hk, h31, decide_false,
      Bool.and_true, Bool.false_and, Bool.or_false]
  · rw [BitVec.toNat_or, BitVec.toNat_and, Nat.or_mod_two_pow, Nat.and_mod_two_pow, hkind,
      Nat.and_zero, Nat.zero_or, lowBits_toNat, Nat.mod_eq_of_lt hlt]

theorem layout_node_rest (hi : i % 4 ≠ 0) (w : Word) : Space.layout p .node i w = w := if_neg hi

theorem layout_code_sym (hi : i % p.codeStride = 0) (w : Word) :
    Space.layout p .code i w = lowBits p.symW w := if_pos hi

theorem layout_code_len (hp : p.Legal) (hi : i % p.codeStride = 1) (w : Word) :
    (Space.layout p .code i w).toNat = w.toNat % (p.codeMaxLen + 1) := by
  obtain ⟨-, -, -, ⟨-, hmax⟩, -⟩ := hp
  have hlt : w.toNat % (p.codeMaxLen + 1) < p.codeMaxLen + 1 := Nat.mod_lt _ (by omega)
  simp only [Space.layout, hi, BitVec.toNat_ofNat, if_true, one_ne_zero, if_false]
  exact Nat.mod_eq_of_lt (by omega)

/-- A CODE word other than the symbol keeps any value that is not too long a length (R46). -/
theorem layout_code_rest (hp : p.Legal) (hi : i % p.codeStride ≠ 0) {w : Word}
    (hw : i % p.codeStride = 1 → w.toNat ≤ p.codeMaxLen) : Space.layout p .code i w = w := by
  by_cases h1 : i % p.codeStride = 1
  · apply BitVec.eq_of_toNat_eq
    rw [layout_code_len hp h1, Nat.mod_eq_of_lt (Nat.lt_succ_of_le (hw h1))]
  · simp only [Space.layout, if_neg hi, if_neg h1]

end

/-! ## Writing and reading a word -/

/-- A host write of a buffer word that no cause of R52 refuses. -/
theorem hostWrite_word_idle {s : State} (hb : s.status.busy = false) (hp : s.params.Legal)
    {sp : Space} {i : Nat} {v : Word} (hsp : sp.hostWritable = true) (hi : i < sp.size s.params)
    (hv : codeLenTooLong s.params sp i v = false) :
    s.hostWrite (addressOf sp.number i) v = some (s.putWord sp i v) := by
  rw [hostWrite_word s sp (lt_of_lt_of_le hi (Space.size_le hp sp))]
  simp [hb, hsp, hi, hv]

theorem Space.hostWritable_of_ne {sp : Space} (hhex : sp ≠ .hex) (hout : sp ≠ .out) :
    sp.hostWritable = true := by
  cases sp
  case hex => exact absurd rfl hhex
  case out => exact absurd rfl hout
  all_goals rfl

/-- Settles O14: the write is `putWord`, and the word then reads as its layout keeps the value. -/
theorem bufferWriteThenRead : Obligations.BufferWriteThenRead := by
  intro s sp i v hs hb hhex hout hi hlen
  have hp := hs.params_legal
  have hread : (s.putWord sp i v).hostRead (addressOf sp.number i) =
      some (sp.layout s.params i v) := by
    rw [hostRead_word_idle (s := s.putWord sp i v) hb hp hi, State.putWord_word,
      if_pos ⟨rfl, rfl⟩]
  refine ⟨s.putWord sp i v, sp.layout s.params i v,
    hostWrite_word_idle hb hp (Space.hostWritable_of_ne hhex hout) hi
      (codeLenTooLong_layout.2 hlen), hread, ?_, ?_, ?_, ?_, ?_, ?_, ?_, ?_, ?_, rfl,
    fun r j hne => by rw [State.putWord_word, if_neg hne]⟩
  · rintro rfl
    exact lowBits_toNat _ v
  · rintro rfl h0
    rw [layout_freq_even h0, lowBits_toNat]
  · rintro rfl h1
    exact layout_freq_odd h1 v
  · rintro rfl h0
    exact layout_node_first hp h0 v
  · rintro rfl h0
    exact layout_node_rest h0 v
  · rintro rfl h0
    rw [layout_code_sym h0, lowBits_toNat]
  · rintro rfl h0
    exact layout_code_rest hp h0 (hlen rfl)
  · rintro rfl
    exact lowBits_toNat 1 v
  · rintro rfl
    exact lowBits_toNat 8 v

/-- Settles O15: a word of a canonical memory is its own layout (`State.word_layout`), written or
not. -/
theorem everyWordIsInItsLayout : Obligations.EveryWordIsInItsLayout := by
  intro s hs i
  have hp := hs.params_legal
  have hlay (sp : Space) := State.word_layout hp hs.mem_wf sp i
  refine ⟨?_, fun h0 => ?_, fun h0 => ?_, fun h0 => ?_, fun h1 => ?_, ?_, ?_, ?_, ?_⟩
  · rw [← hlay .text]; exact lowBits_lt _ _
  · rw [← hlay .freq, layout_freq_even h0]; exact lowBits_lt _ _
  · rw [← hlay .node, (layout_node_first hp h0 _).2]; exact Nat.mod_lt _ (Nat.two_pow_pos _)
  · rw [← hlay .code, layout_code_sym h0]; exact lowBits_lt _ _
  · rw [← hlay .code, layout_code_len hp h1]; exact Nat.le_of_lt_succ (Nat.mod_lt _ (by omega))
  · rw [← hlay .bits]; exact lowBits_lt 1 _
  · rw [← hlay .bytes]; exact lowBits_lt 8 _
  · rw [← hlay .hex]; exact lowBits_lt 8 _
  · rw [← hlay .out]; exact lowBits_lt _ _

end Sys2Proof.Machine
end

section
/-! PROOF. Command words: decoding by the word's value, and the eight written-out words (R60 to
R65). -/

namespace Sys2Proof.Machine

theorem decode_isOk_iff (w : Word) : (∃ i, decode w = .ok i) ↔ w.toNat ≤ 0xA := by
  constructor
  · rintro ⟨i, hi⟩
    rw [decode_eq_ok.1 hi]
    exact encode_le i
  · intro hle
    rcases decode_spec w with ⟨-, i, hi, -⟩ | ⟨hgt, -⟩ | ⟨hge, -⟩
    · exact ⟨i, hi⟩
    · omega
    · omega

theorem decode_eq_reservedBits (w : Word) :
    decode w = .error .reservedBits ↔ 0x10 ≤ w.toNat := by
  rcases decode_spec w with ⟨hle, i, hd, -⟩ | ⟨-, hlt, hd⟩ | ⟨hge, hd⟩
  · simp [hd]; omega
  · simp [hd]; omega
  · simp [hd, hge]

theorem decode_eq_reservedOpcode (w : Word) :
    decode w = .error .reservedOpcode ↔ 0xB ≤ w.toNat ∧ w.toNat ≤ 0xF := by
  rcases decode_spec w with ⟨hle, i, hd, -⟩ | ⟨hgt, hlt, hd⟩ | ⟨hge, hd⟩
  · simp [hd]; omega
  · simp [hd]; omega
  · simp [hd]; omega

/-- Settles O6: `decode_spec` says what a word decodes to in each of the three ranges of its value,
and each clause reads one of them off. -/
theorem decodeAndEncodeAgree : Obligations.DecodeAndEncodeAgree :=
  ⟨fun _ _ => decode_eq_ok, decode_isOk_iff, decode_eq_reservedBits, decode_eq_reservedOpcode⟩

/-- Settles O5: each of the eight words is its command's (`decode_encode`), and the other three lie
in the ranges that are refused. -/
theorem writtenWordsDecode : Obligations.WrittenWordsDecode :=
  ⟨decode_encode .nop, decode_encode .freq, decode_encode .build, decode_encode .codes,
    decode_encode .compress, decode_encode .unpack, decode_encode .decode, decode_encode .clear,
    (decode_eq_reservedOpcode _).2 (by decide), (decode_eq_reservedBits _).2 (by decide),
    (decode_eq_reservedBits _).2 (by decide)⟩

end Sys2Proof.Machine
end

section
/-! PROOF. Acceptance of a word written to CMD: the flags it leaves, and that a command written
while idle is accepted (R66). -/

namespace Sys2Proof.Machine

/-- A write to CMD while no command runs is the acceptance of the word. -/
theorem hostWrite_cmd_idle {s : State} (hb : s.status.busy = false) (w : Word) :
    s.hostWrite (addressOf 0 0x01) w = some (s.accept w) := by
  rw [hostWrite_cmd, hb]; rfl

/-- OP and STAGE take their values for a legal and for an illegal word alike. -/
theorem accept_op_stage (s : State) (w : Word) :
    (s.accept w).status.op = w.extractLsb' 0 4 ∧ (s.accept w).status.stage = firstStage w := by
  rcases accept_spec s w with ⟨i, rfl, he⟩ | ⟨-, he⟩
  · rw [he]; exact ⟨rfl, rfl⟩
  · rw [he]; exact ⟨rfl, rfl⟩

/-- Acceptance of a legal word sets BUSY and clears the other flags and the error registers. -/
theorem accept_legal (s : State) {w : Word} (hw : w.toNat ≤ 0xA) :
    (s.accept w).status.busy = true ∧ (s.accept w).status.done = false ∧
      (s.accept w).status.err = false ∧ (s.accept w).errCode = 0 ∧ (s.accept w).errInfo = 0 := by
  rcases accept_spec s w with ⟨i, rfl, he⟩ | ⟨hgt, -⟩
  · rw [he]; exact ⟨rfl, rfl, rfl, rfl, rfl⟩
  · omega

/-- Acceptance of an illegal word is its completion with IllegalCommand. -/
theorem accept_illegal_failedAs (s : State) {w : Word} (hw : 0xA < w.toNat) :
    FailedAs 6 w (s.accept w) := by
  rw [accept_illegal s hw]; exact ⟨rfl, rfl, rfl, rfl, rfl⟩

/-- Settles O16: the port refuses the write while BUSY and otherwise accepts the word; the flags are
those of a legal or of an illegal word, and acceptance leaves the rest alone. -/
theorem acceptanceOfACommandWord : Obligations.AcceptanceOfACommandWord := by
  intro s w
  obtain ⟨hop, hstage⟩ := accept_op_stage s w
  refine ⟨fun hb => by rw [hostWrite_cmd, if_pos hb], fun hb =>
    ⟨s.accept w, hostWrite_cmd_idle hb w, State.accept_cmd s w, hop, ?_, accept_legal s,
      accept_illegal_failedAs s, State.accept_params s w, State.accept_ctrl s w,
      State.accept_root s w, State.accept_mem s w, State.accept_len s w⟩⟩
  rw [hstage, encode_compress_iff]

/-- Settles O18: the state after the write is `s.accept (encode i)`, in which the command is
accepted (`accept_accepted`), and on which `runCommand` runs the engine. -/
theorem writtenCommandIsAccepted : Obligations.WrittenCommandIsAccepted := by
  intro s i hs hb
  exact ⟨s.accept (encode i), hostWrite_cmd_idle hb _, accept_accepted hs hb i,
    State.accept_params s _, State.accept_root s _, State.accept_len s _,
    State.accept_word s _, rfl⟩

end Sys2Proof.Machine
end

section
/-! PROOF. The errors each command's body can raise (R151), and from them that every command comes
to its completion with success or with one of the kinds 1 to 5 (R67, R141 to R145). -/

namespace Sys2Proof.Machine

/-! ## The errors of each body -/

theorem freqBody_errors {s : State} {e : CmdError} (hd : s.DataOk) (h : freqBody s = .error e) :
    e = .capacityOverflow .freqTable := by
  by_cases hfit : s.text.dedup.length ≤ s.params.alphaCap
  · obtain ⟨es, hok, -⟩ := freqBody_ok hd hfit
    rw [hok] at h; cases h
  · rw [freqBody_full (by omega)] at h
    exact (Except.error.inj h).symm

theorem buildBody_errors {s : State} {e : CmdError} (hd : s.DataOk) (h : buildBody s = .error e) :
    e = .emptyAlphabet ∨ e = .capacityOverflow .freqSum := by
  rcases buildBody_cases (s := s) with hnil | ⟨hne, hsum⟩ | ⟨htwo, hsum⟩
  · rw [buildBody_empty hnil] at h
    exact .inl (Except.error.inj h).symm
  · obtain ⟨ns, r, T, t, hok, -⟩ := buildBody_ok hd hne hsum
    rw [hok] at h; cases h
  · rw [buildBody_overflow hd htwo hsum] at h
    exact .inr (Except.error.inj h).symm

theorem codesBody_errors {s : State} {e : CmdError} (h : codesBody s = .error e) :
    e = .capacityOverflow .codeLength ∨ e = .capacityOverflow .codeTable ∨ ∃ p, e = .badTree p := by
  rcases codeTableOf_spec s.params s.nodes s.root with ⟨T, hok, -⟩ | ⟨herr, -⟩ |
    ⟨q, m, path, done, herr, -⟩ | ⟨q, m, path, done, herr, -⟩ | ⟨q, m, path, done, herr, -⟩
  · simp [codesBody, hok] at h
  all_goals
    rw [codesBody_error herr] at h
    cases h
    simp

theorem encodeBody_errors {s : State} {e : CmdError} (h : encodeBody s = .error e) :
    (∃ k < s.text.length, e = .unknownSymbol k) ∨ e = .capacityOverflow .bitString := by
  rcases encodeFrom_spec s.params.bitCap s.codeTable s.text with ⟨-, -, hok⟩ |
    ⟨xs, y, ys, htext, -, -, -, herr⟩ | ⟨xs, y, ys, -, -, -, -, herr⟩
  · simp [encodeBody, hok] at h
  · simp only [encodeBody, herr] at h
    exact .inl ⟨xs.length, by simp [htext], (Except.error.inj h).symm⟩
  · simp only [encodeBody, herr] at h
    exact .inr (Except.error.inj h).symm

theorem decodeBits_errors {cap : Nat} {ns : List TreeNode} {root : Word} {bs : List Bool}
    {e : CmdError} (h : decodeBits cap ns root bs = .error e) :
    (∃ missing k, e = .malformedBitStream missing k) ∨ e = .capacityOverflow .outText ∨
      e = .badTree root := by
  cases hn : nodeOf ns root with
  | none =>
    simp only [decodeBits, hn] at h
    exact .inr (.inr (Except.error.inj h).symm)
  | some n =>
    have hfrom : decodeFrom cap ns n bs 0 n false [] = .error e := by
      simpa only [decodeBits, hn] using h
    rcases decodeFrom_outcomes (us := []) (vs := []) hn bs .nil (Nat.zero_le cap) (.nil root) hn
      (fun hne => absurd rfl hne) with ⟨ys, hres, -⟩ | ⟨_, _, _, _, _, hres, -⟩ |
      ⟨_, _, _, _, _, _, _, hres, -⟩ | ⟨_, _, _, _, _, _, hres, -⟩
    · cases hfrom.symm.trans hres
    all_goals
      cases hfrom.symm.trans hres
      simp

theorem decodeBody_errors {s : State} {e : CmdError} (h : decodeBody s = .error e) :
    (∃ missing k, e = .malformedBitStream missing k) ∨ e = .capacityOverflow .outText ∨
      e = .badTree s.root := by
  cases hb : decodeBits s.params.outCap s.nodes s.root s.bitString with
  | ok xs => simp [decodeBody, hb] at h
  | error e' =>
    simp only [decodeBody, hb] at h
    cases h
    exact decodeBits_errors hb

/-! ## ERRCODE after a command -/

/-- No stage of COMPRESS raises IllegalCommand. -/
theorem CompressStage.body_error_code {st : CompressStage} {s : State} {e : CmdError}
    (hd : s.DataOk) (h : st.body s = .error e) : e.code.toNat ≤ 5 := by
  cases st
  case freq =>
    obtain rfl := freqBody_errors hd h
    decide
  case build => rcases buildBody_errors hd h with rfl | rfl <;> decide
  case codes =>
    rcases codesBody_errors h with rfl | rfl | ⟨p, rfl⟩ <;> simp [CmdError.code]
  case encode => rcases encodeBody_errors h with ⟨k, -, rfl⟩ | rfl <;> simp [CmdError.code]

theorem decodeBody_error_code {s : State} {e : CmdError} (h : decodeBody s = .error e) :
    e.code.toNat ≤ 5 := by
  rcases decodeBody_errors h with ⟨missing, k, rfl⟩ | rfl | rfl <;> simp [CmdError.code]

/-- ERRCODE after a command with one destination: as before, or the code of the body's error. -/
theorem runBody_errCode_le {dest : Space} {body : State → Except CmdError State} {s : State}
    (h0 : s.errCode = 0) (hok : ∀ t, body s = .ok t → Delivers dest s t)
    (herr : ∀ e, body s = .error e → e.code.toNat ≤ 5) :
    (s.runBody dest body).errCode.toNat ≤ 5 := by
  cases h : body s with
  | ok t =>
    obtain ⟨-, hcode, -⟩ := (hok t h).status
    rw [runBody_ok h, State.complete_errCode, hcode, h0]
    decide
  | error e =>
    rw [runBody_error h]
    exact herr e h

/-- ERRCODE after stages of COMPRESS: as before, or the code of the failed stage's error. -/
theorem runStages_errCode_le (stages : List CompressStage) {s : State} (hd : s.DataOk)
    (h0 : s.errCode = 0) : (runStages stages s).errCode.toNat ≤ 5 := by
  rcases runStages_inv stages s with ⟨u, hran, hrun⟩ | ⟨earlier, failed, later, u, e, rfl, hran, he⟩
  · obtain ⟨-, -, -, hcode, -⟩ := hran.spec hd
    rw [hrun, State.complete_errCode, hcode, h0]
    decide
  · obtain ⟨-, hu, -⟩ := hran.spec hd
    rw [runStages_fails hran he]
    exact CompressStage.body_error_code (hu.setStage failed.number) he

/-- No command that the engine executes leaves IllegalCommand, the kind 6, in ERRCODE. -/
theorem exec_errCode_le {i : Instr} {s t : State} (hd : s.DataOk) (h0 : s.errCode = 0)
    (hex : exec i s = .next t) : t.errCode.toNat ≤ 5 := by
  have hstage (st : CompressStage) : (s.runBody st.dest st.body).errCode.toNat ≤ 5 :=
    runBody_errCode_le h0 (fun _ => CompressStage.delivers hd)
      fun _ => CompressStage.body_error_code hd
  cases i <;> cases hex
  case nop => simp [h0]
  case freq => exact hstage .freq
  case build => exact hstage .build
  case codes => exact hstage .codes
  case encode => exact hstage .encode
  case compress => exact runStages_errCode_le CompressStage.order hd h0
  case pack => exact runBody_errCode_le h0 (fun _ => packBody_delivers hd) fun _ he => nomatch he
  case unpack =>
    exact runBody_errCode_le h0 (fun _ => unpackBody_delivers hd) fun _ he => nomatch he
  case toHex => exact runBody_errCode_le h0 (fun _ => toHexBody_delivers hd) fun _ he => nomatch he
  case decode =>
    exact runBody_errCode_le h0 (fun _ => decodeBody_delivers hd) fun _ => decodeBody_error_code
  case clear =>
    obtain ⟨-, -, -, hcode, -⟩ := clearAll_spec hd
    simp [hcode, h0]

/-- Settles O19: `exec_accepted` gives the next state and its completion, OP is not touched, and the
kind of a failed completion is no error's 0 and not IllegalCommand's 6. -/
theorem everyCommandCompletes : Obligations.EveryCommandCompletes := by
  intro i s ha
  obtain ⟨t, hex, hinv, htouch, hbusy, hdone, -, hend⟩ := exec_accepted ha
  obtain ⟨-, -, -, hop, -⟩ := htouch.control
  obtain ⟨-, -, hcode, -⟩ := ha.clear
  refine ⟨t, hex, hinv, hbusy, hdone, hop.trans ha.op, hend.imp id ?_⟩
  rintro ⟨e, hfail⟩
  have ⟨_, _, _, hkind, _⟩ := hfail
  have hpos : e.code.toNat ≠ 0 := fun hz => e.code_pos.1 (BitVec.eq_of_toNat_eq hz)
  have hle := exec_errCode_le ha.inv.toDataOk hcode hex
  rw [hkind] at hle
  exact ⟨e.code, e.info, hfail, Nat.one_le_iff_ne_zero.2 hpos, hle⟩

end Sys2Proof.Machine
end

section
/-! PROOF. The family of FREQ: the FrequencyMap it makes, the table that is full, and the map, tree,
codes and bits that COMPRESS makes from it (R80, R81, R103, R144). -/

namespace Sys2Proof.Machine

/-! ## The FrequencyMap of TEXT -/

theorem text_length_le {s : State} (hd : s.DataOk) : s.text.length ≤ 2 ^ 28 := by
  obtain ⟨-, ⟨-, hcap⟩, -⟩ := hd.params_legal
  rw [s.value_lengths.1]
  exact (hd.len_le .text).trans hcap

theorem IsFrequencyMap.one_le_cnt {text : List Word} {es : List FreqEntry}
    (h : IsFrequencyMap text es) {e : FreqEntry} (he : e ∈ es) : 1 ≤ e.cnt := by
  have hmem : e.sym ∈ text := (h.keys_exact e.sym).1 (List.mem_map_of_mem he)
  rw [h.values e he]
  exact List.one_le_count_iff.2 hmem

theorem IsFrequencyMap.cnt_le_length {text : List Word} {es : List FreqEntry}
    (h : IsFrequencyMap text es) {e : FreqEntry} (he : e ∈ es) : e.cnt ≤ text.length := by
  rw [h.values e he]
  exact List.count_le_length

/-! ## FREQ -/

/-- Settles O33: the scan answers the FrequencyMap of the text (`freqBody_ok`), which is what FREQ
reads as after its delivery; no count is above the length of the text, and TEXTLEN is at most
`TEXT_CAP`. -/
theorem freqMakesTheFrequencyMap : Obligations.FreqMakesTheFrequencyMap := by
  intro s ha hfit
  have hd := ha.inv.toDataOk
  obtain ⟨es, hbody, hmap, -, -, -, hread⟩ := freqBody_ok hd hfit
  obtain ⟨hrun, hsucc, hstage, hframe, habove⟩ :=
    runBody_succeeds ha (by decide) hbody (freqBody_delivers hd hbody)
  set t := (s.deliver .freq es.length (es.flatMap FreqEntry.words)).complete
  have hfreq : t.freqMap = es := hread
  refine ⟨t, congrArg Host.Outcome.next hrun, hsucc, hstage, ?_, ?_, ?_, ?_, hframe, habove⟩
  · rwa [hfreq]
  · rw [hfreq, hmap.conserved, s.value_lengths.1]
  · rw [hfreq]
    exact fun e he => ⟨hmap.one_le_cnt he, (hmap.cnt_le_length he).trans (text_length_le hd)⟩
  · rw [← t.value_lengths.2.1, hfreq, hmap.length_eq]

/-- Settles O34: with more distinct symbols than entries the scan meets a full table
(`freqBody_full`), and a failed body leaves its destination void. -/
theorem freqTableFull : Obligations.FreqTableFull := by
  intro s _ hfull
  obtain ⟨hrun, hfail, hlen, -, hframe, -⟩ :=
    runBody_fails (dest := .freq) (freqBody_full hfull)
  exact ⟨_, congrArg Host.Outcome.next hrun, hfail, hlen, hframe⟩

/-! ## COMPRESS -/

/-- Settles O46: the four stages all succeed, for a text has one FrequencyMap and a map one tree
(`ranEncode`, which rests on `IsFrequencyMap.unique` and `IsHuffmanTree.unique`); completion keeps
what they have left in the buffers (`ran_done`). -/
theorem compressCompletes : Obligations.CompressCompletes := by
  intro s es ns r T ha hne hes hcap hns hT hheight hbits
  obtain ⟨u, hran, hmap, -, hnodes, hroot, htable, hstring, hstage, -⟩ :=
    ranEncode ha.inv.toDataOk hes hcap hne hns hT hheight hbits
  obtain ⟨hex, hsucc, hframe, habove⟩ := ran_done ha hran
  exact ⟨u.complete, hex, hsucc, hstage, hmap, hnodes, hroot, htable, hstring, hframe,
    habove .freq, habove .build, habove .codes, habove .encode⟩

end Sys2Proof.Machine
end

section
/-! PROOF. The family of BUILD: the tree it makes, what holds of every such tree, when it makes none,
and which error each command can raise (R85 to R91, R141 to R147, R151). -/

namespace Sys2Proof.Machine

/-! ## BUILD from acceptance to completion -/

/-- BUILD on a map that is not empty and whose counts add up to less than 2^32, or of one entry: the
one place where its run is put together from the body's result and the completion. -/
theorem build_succeeds {s : State} (ha : s.Accepted .build) (hne : s.freqMap ≠ [])
    (hsum : s.freqMap.length = 1 ∨ (s.freqMap.map FreqEntry.cnt).sum < 2 ^ 32) :
    ∃ T t, exec .build s = .next t ∧ Succeeded t ∧ t.status.stage = 2 ∧
      IsHuffmanTree s.freqMap t.nodes t.root.toNat ∧ t.HasTree T ∧
      T.symbols.Perm (s.freqMap.map FreqEntry.sym) ∧
      (∃ m, t.nodes[t.root.toNat]? = some m ∧
        m.freq.toNat = (s.freqMap.map FreqEntry.cnt).sum) ∧
      Frame [.node] s t ∧ SameAbove .node s t := by
  have hd := ha.inv.toDataOk
  have hlen := (freqMap_length_le hd).2
  obtain ⟨ns, r, T, u, hbody, hu, htree, hrep, hperm, hnodes, htop⟩ := buildBody_ok hd hne hsum
  obtain ⟨hrun, hsucc, hstage, hframe, habove⟩ :=
    runBody_succeeds ha (by decide) hbody (buildBody_delivers hd hbody)
  have hread : u.complete.nodes = ns := hnodes
  have hroot : u.complete.root = BitVec.ofNat 32 r := by simp [hu]
  have hidx : u.complete.root.toNat = r := by
    rw [hroot]
    exact ofNat_toNat_of_lt (by have := htree.root_last; omega)
  refine ⟨T, u.complete, congrArg Host.Outcome.next hrun, hsucc, hstage, ?_, ?_, hperm, ?_, hframe,
    habove⟩
  · rwa [hread, hidx]
  · rwa [State.HasTree, hread, hroot]
  · rwa [hread, hidx]

theorem build_fails {s : State} {e : CmdError} (hbody : buildBody s = .error e) :
    ∃ t, exec .build s = .next t ∧ FailedAs e.code e.info t ∧ t.nodeN = 0 ∧ t.root = 0xFFFFFFFF ∧
      Frame [.node] s t := by
  obtain ⟨hrun, hfail, hlen, hroot, hframe, -⟩ := runBody_fails (dest := .node) hbody
  exact ⟨_, congrArg Host.Outcome.next hrun, hfail, hlen, hroot rfl, hframe⟩

/-- A BUILD that succeeded had a map that is not empty and whose sums fit. -/
theorem build_succeeded_fits {s t : State} (ha : s.Accepted .build) (hex : exec .build s = .next t)
    (herr : t.status.err = false) : s.freqMap ≠ [] ∧
      (s.freqMap.length = 1 ∨ (s.freqMap.map FreqEntry.cnt).sum < 2 ^ 32) := by
  have hbody {e : CmdError} (h : buildBody s = .error e) : False := by
    obtain ⟨u, hu, hfail, -⟩ := build_fails h
    cases hex.symm.trans hu
    cases herr.symm.trans (failedAs_err hfail)
  rcases buildBody_cases (s := s) with hnil | hfits | ⟨htwo, hsum⟩
  · exact (hbody (buildBody_empty hnil)).elim
  · exact hfits
  · exact (hbody (buildBody_overflow ha.inv.toDataOk htwo hsum)).elim

/-! ## The shape of the tree (R90) -/

theorem nodeOf_of_getElem? {ns : List TreeNode} {p : Word} {n : TreeNode}
    (h : ns[p.toNat]? = some n) (hlen : ns.length < 2 ^ 32) : nodeOf ns p = some n := by
  have hp := (List.getElem?_eq_some_iff.1 h).1
  simpa using nodeOf_ofNat h (by omega)

section
variable {es : List FreqEntry} {ns : List TreeNode} {r k : Nat} {m : TreeNode}

theorem IsHuffmanTree.leaf_iff (h : IsHuffmanTree es ns r) (hm : ns[k]? = some m) :
    m.kind = .leaf ↔ k < es.length := by
  rcases h.internal hm with ⟨hk, hlt⟩ | ⟨hk, hle, -⟩
  · simp [hk, hlt]
  · simp [hk, Nat.not_lt.2 hle]

/-- The two pointers of an Internal node are different and below it. -/
theorem IsHuffmanTree.children_lt (h : IsHuffmanTree es ns r) (hm : ns[k]? = some m)
    (hk : m.kind = .internal) :
    m.left.toNat < k ∧ m.right.toNat < k ∧ m.left.toNat ≠ m.right.toNat := by
  rcases h.internal hm with ⟨hleaf, -⟩ | ⟨-, -, hchildren⟩
  · cases hk.symm.trans hleaf
  · exact hchildren

theorem IsHuffmanTree.freq_eq_add (h : IsHuffmanTree es ns r) (hlen : ns.length < 2 ^ 32)
    (hm : ns[k]? = some m) (hk : m.kind = .internal) :
    ∃ x y, nodeOf ns m.left = some x ∧ nodeOf ns m.right = some y ∧
      m.freq.toNat = x.freq.toNat + y.freq.toNat := by
  have hle : es.length ≤ k := by
    by_contra hlt
    cases hk.symm.trans ((h.leaf_iff hm).2 (Nat.lt_of_not_le hlt))
  obtain ⟨_, _, x, y, -, -, rfl, rfl, -, hx, hy, hadd, -⟩ := h.merges k m hle hm
  exact ⟨x, y, nodeOf_of_getElem? hx hlen, nodeOf_of_getElem? hy hlen, hadd⟩

/-- The root, as the last node, lies above every Internal node's children. -/
theorem IsHuffmanTree.children_lt_root (h : IsHuffmanTree es ns r) (hm : ns[k]? = some m)
    (hk : m.kind = .internal) : m.left.toNat < r ∧ m.right.toNat < r := by
  obtain ⟨hleft, hright, -⟩ := h.children_lt hm hk
  have hklt := (List.getElem?_eq_some_iff.1 hm).1
  have hsize := h.size
  have hlast := h.root_last
  omega

end

/-- Settles O38: a BUILD that succeeded had a map that fits (`build_succeeded_fits`), so it has made
the tree of the selection order (`build_succeeds`). Of such a tree the clauses are: leaves first,
children below their parent and so below the root, one parent for each node but the root
(`IsHuffmanTree.parent_exists`, `IsHuffmanTree.parent_unique`); the root's frequency and the symbols
come from the invariant of the merge loop. -/
theorem builtTreeIsStrict : Obligations.BuiltTreeIsStrict := by
  intro s t ha hex herr
  obtain ⟨hne, hsum⟩ := build_succeeded_fits ha hex herr
  obtain ⟨T, u, hu, -, -, htree, hrep, hperm, ⟨top, htop, hfreq⟩, -⟩ := build_succeeds ha hne hsum
  cases hex.symm.trans hu
  have hpos : 1 ≤ s.freqMap.length := List.length_pos_iff.2 hne
  have hsize := htree.size
  have hlen : t.nodes.length < 2 ^ 32 := by
    have := (freqMap_length_le ha.inv.toDataOk).2
    omega
  obtain ⟨-, -, hnodeN, -⟩ := t.value_lengths
  refine ⟨hpos, by rw [← hnodeN, hsize], fun k m hm => htree.leaf_iff hm, fun k m hm hk => ?_,
    fun c hc hroot => ?_, fun k m hm hk => ?_, ⟨top, nodeOf_of_getElem? htop hlen, hfreq⟩,
    T, hrep, ?_, hperm⟩
  · obtain ⟨-, -, hdiff⟩ := htree.children_lt hm hk
    exact ⟨fun heq => hdiff (congrArg BitVec.toNat heq), htree.freq_eq_add hlen hm hk⟩
  · obtain ⟨k, m, hm, hk, hchild⟩ := htree.parent_exists hc hroot
    exact ⟨k, ⟨m, hm, hk, hchild⟩,
      fun j n hn hj hchild' => htree.parent_unique hn hm hj hk hchild' hchild⟩
  · obtain ⟨hleft, hright⟩ := htree.children_lt_root hm hk
    exact ⟨fun heq => hleft.ne (congrArg BitVec.toNat heq),
      fun heq => hright.ne (congrArg BitVec.toNat heq)⟩
  · rw [← T.symbols_length, hperm.length_eq, List.length_map]

/-! ## The tree, the single symbol and the failures -/

/-- Settles O35: the tree of the selection order is what BUILD leaves (`build_succeeds`), and NODEN
is its number of nodes. -/
theorem buildMakesTheHuffmanTree : Obligations.BuildMakesTheHuffmanTree := by
  intro s ha hne hsum
  obtain ⟨-, t, hex, hsucc, hstage, htree, -, -, -, hframe, habove⟩ := build_succeeds ha hne hsum
  obtain ⟨-, -, hnodeN, -⟩ := t.value_lengths
  exact ⟨t, hex, hsucc, hstage, htree, hnodeN.symm.trans htree.size, hframe, habove⟩

/-- Settles O36: the tree of a map of one entry has one node, which is the first leaf and the
root. -/
theorem buildSingleSymbol : Obligations.BuildSingleSymbol := by
  intro s e ha hone
  obtain ⟨-, t, hex, hsucc, -, htree, -, -, -, hframe, -⟩ :=
    build_succeeds ha (by simp [hone]) (.inl (by simp [hone]))
  rw [hone] at htree
  obtain ⟨-, -, hnodeN, -⟩ := t.value_lengths
  obtain ⟨n, hn⟩ := List.length_eq_one_iff.1 htree.size
  have hleaf := htree.leaves 0 e rfl
  rw [hn] at hleaf
  refine ⟨t, hex, hsucc, BitVec.eq_of_toNat_eq (hnodeN.symm.trans htree.size),
    BitVec.eq_of_toNat_eq htree.root_last, ?_, hframe⟩
  rw [hn, Option.some.inj hleaf]

/-- Settles O37: the body answers the error (`buildBody_empty`, `buildBody_overflow`), and a failed
BUILD leaves no tree. -/
theorem buildFailures : Obligations.BuildFailures := fun _ ha =>
  ⟨fun hnil => build_fails (buildBody_empty hnil),
    fun htwo hsum => build_fails (buildBody_overflow ha.inv.toDataOk htwo hsum)⟩

/-! ## Which command can raise which kind (R151) -/

/-- A command with one destination that has failed: its body's error is the one recorded. -/
theorem runBody_failedAs {dest : Space} {body : State → Except CmdError State} {s t : State}
    (h0 : s.status.err = false) (hok : ∀ u, body s = .ok u → Delivers dest s u)
    (hrun : s.runBody dest body = t) (herr : t.status.err = true) :
    ∃ e, body s = .error e ∧ FailedAs e.code e.info t := by
  cases h : body s with
  | ok u =>
    obtain ⟨hstatus, -⟩ := (hok u h).status
    rw [← hrun, runBody_ok h] at herr
    simp [Status.complete, hstatus, h0] at herr
  | error e =>
    obtain ⟨hend, hfail, -⟩ := runBody_fails (dest := dest) h
    rw [← hrun, hend]
    exact ⟨e, rfl, hfail⟩

theorem stageFailure_failedAs (failed : CompressStage) (later : List CompressStage) (u : State)
    (e : CmdError) : FailedAs e.code e.info (stageFailure failed later u e) :=
  ⟨rfl, rfl, rfl, rfl, rfl⟩

/-- COMPRESS fails in four ways only. BUILD's sums cannot overflow, for the counts add up to the
length of a text, and CODES finds a whole tree that fits the table, for BUILD has just made it. -/
theorem compress_failedAs {s t : State} (ha : s.Accepted .compress)
    (hex : exec .compress s = .next t) (herr : t.status.err = true) :
    FailedAs 1 0 t ∨ FailedAs 4 1 t ∨ FailedAs 4 3 t ∨ FailedAs 4 5 t := by
  have hd := ha.inv.toDataOk
  have ht : t = runStages CompressStage.order s := (Host.Outcome.next.inj hex).symm
  rcases compress_cases hd with ⟨-, hrun⟩ | ⟨-, a, -, -, hrun⟩ |
    ⟨es, ns, r, T, hes, hcap, hns, hT, hne, -, -, ⟨-, b, -, hrun⟩ | ⟨-, -, c, -, -, hrun⟩ |
      ⟨hheight, hbits⟩⟩
  · rw [ht, hrun]; exact .inr (.inl (stageFailure_failedAs ..))
  · rw [ht, hrun]; exact .inl (stageFailure_failedAs ..)
  · rw [ht, hrun]; exact .inr (.inr (.inl (stageFailure_failedAs ..)))
  · rw [ht, hrun]; exact .inr (.inr (.inr (stageFailure_failedAs ..)))
  · obtain ⟨u, hran, -⟩ := ranEncode hd hes hcap hne hns hT hheight hbits
    obtain ⟨hdone, hsucc, -⟩ := ran_done ha hran
    cases hex.symm.trans hdone
    cases herr.symm.trans (succeeded_err hsucc)

/-- Settles O28: a failed command records its body's error (`runBody_failedAs`), and the errors of
each body are known; COMPRESS by the ways it ends; NOP, PACK, UNPACK, TOHEX and CLEAR leave ERR as
acceptance cleared it. -/
theorem errorKindsOfEachCommand : Obligations.ErrorKindsOfEachCommand := by
  intro i s t ha hex herr
  have hd := ha.inv.toDataOk
  obtain ⟨h0, -⟩ := ha.clear
  cases i
  case compress => exact compress_failedAs ha hex herr
  all_goals cases hex
  case nop => cases h0.symm.trans herr
  case clear =>
    obtain ⟨-, -, hstatus, -⟩ := clearAll_spec hd
    simp [hstatus, Status.complete, h0] at herr
  case freq =>
    obtain ⟨e, hbody, hfail⟩ := runBody_failedAs h0 (fun _ => freqBody_delivers hd) rfl herr
    obtain rfl := freqBody_errors hd hbody
    exact hfail
  case build =>
    obtain ⟨e, hbody, hfail⟩ := runBody_failedAs h0 (fun _ => buildBody_delivers hd) rfl herr
    rcases buildBody_errors hd hbody with rfl | rfl
    · exact .inl hfail
    · exact .inr hfail
  case codes =>
    obtain ⟨e, hbody, hfail⟩ := runBody_failedAs h0 (fun _ => codesBody_delivers hd) rfl herr
    rcases codesBody_errors hbody with rfl | rfl | ⟨p, rfl⟩
    · exact .inl hfail
    · exact .inr (.inl hfail)
    · exact .inr (.inr ⟨p, hfail⟩)
  case encode =>
    obtain ⟨e, hbody, hfail⟩ := runBody_failedAs h0 (fun _ => encodeBody_delivers) rfl herr
    rcases encodeBody_errors hbody with ⟨k, hk, rfl⟩ | rfl
    · refine .inl ⟨BitVec.ofNat 32 k, hfail, ?_⟩
      rw [← s.value_lengths.1, BitVec.toNat_ofNat]
      exact (Nat.mod_le k _).trans_lt hk
    · exact .inr hfail
  case pack =>
    obtain ⟨_, ⟨⟩, -⟩ := runBody_failedAs h0 (fun _ => packBody_delivers hd) rfl herr
  case unpack =>
    obtain ⟨_, ⟨⟩, -⟩ := runBody_failedAs h0 (fun _ => unpackBody_delivers hd) rfl herr
  case toHex =>
    obtain ⟨_, ⟨⟩, -⟩ := runBody_failedAs h0 (fun _ => toHexBody_delivers hd) rfl herr
  case decode =>
    obtain ⟨e, hbody, hfail⟩ := runBody_failedAs h0 (fun _ => decodeBody_delivers hd) rfl herr
    rcases decodeBody_errors hbody with ⟨missing, k, rfl⟩ | rfl | rfl
    · exact .inl ⟨_, hfail⟩
    · exact .inr (.inl hfail)
    · exact .inr (.inr hfail)

end Sys2Proof.Machine
end

section
/-! PROOF. The family of CODES: the CodeTable it makes of a tree that fits, what holds of every such
table, and how CODES ends on any nodes whatever (R95 to R99, R144, R145, R152). -/

namespace Sys2Proof.Machine

/-! ## The table of a tree (R99) -/

/-- Prefix-free, by the places of two entries. -/
theorem HTree.table_not_prefix {T : HTree} {j k : Nat} {d e : CodeEntry} (hd : T.table[j]? = some d)
    (he : T.table[k]? = some e) (hjk : j ≠ k) : ¬ d.bits <+: e.bits := by
  obtain ⟨hj, rfl⟩ := List.getElem?_eq_some_iff.1 hd
  obtain ⟨hk, rfl⟩ := List.getElem?_eq_some_iff.1 he
  have hpair := List.pairwise_iff_getElem.1 T.table_prefix_free
  rcases Nat.lt_or_gt_of_ne hjk with hlt | hgt
  · exact (hpair j k hj hk hlt).1
  · exact (hpair k j hk hj hgt).2

theorem State.codeTable_getElem? {s : State} {i : Nat} (hi : i < s.codeN.toNat) :
    s.codeTable[i]? = some (s.codeAt i) := below_getElem? hi

/-! ## CODES from acceptance to completion -/

/-- Settles O39: the traversal answers the tree's table (`codesBody_ok`), which is what CODE reads as
after its delivery; the code words beyond a code are 0 (`codesBody_bits`). -/
theorem codesRecordsThePaths : Obligations.CodesRecordsThePaths := by
  intro s T ha hT hheight hcap
  have hd := ha.inv.toDataOk
  obtain ⟨hbody, hread⟩ := codesBody_ok hd hT hheight hcap
  obtain ⟨hrun, hsucc, hstage, hframe, habove⟩ :=
    runBody_succeeds ha (by decide) hbody (codesBody_delivers hd hbody)
  set t := (s.deliver .code T.table.length (T.table.flatMap (CodeEntry.words s.params))).complete
  have htable : t.codeTable = T.table := hread
  obtain ⟨-, -, -, hcodeN, -⟩ := t.value_lengths
  rw [htable] at hcodeN
  refine ⟨t, congrArg Host.Outcome.next hrun, hsucc, hstage, htable,
    hcodeN.symm.trans T.table_length, hframe, habove, fun e k he hk hlen => ?_⟩
  have hentry := State.codeTable_getElem? he
  rw [htable] at hentry
  obtain ⟨hlt, heq⟩ := List.getElem?_eq_some_iff.1 hentry
  exact codesBody_bits hlt hk (heq ▸ hlen)

theorem codes_fails {s : State} {e : CmdError}
    (h : codeTableOf s.params s.nodes s.root = .error e) :
    ∃ t, exec .codes s = .next t ∧ FailedAs e.code e.info t ∧ t.codeN = 0 := by
  obtain ⟨hrun, hfail, hlen, -⟩ := runBody_fails (dest := .code) (codesBody_error h)
  exact ⟨_, congrArg Host.Outcome.next hrun, hfail, hlen⟩

/-- A CODES that succeeded had a tree that fits the table. -/
theorem codes_succeeded_fits {s t : State} (hex : exec .codes s = .next t)
    (herr : t.status.err = false) :
    ∃ T, s.HasTree T ∧ T.height ≤ s.params.codeMaxLen ∧ T.leafCount ≤ s.params.alphaCap := by
  cases hbody : codesBody s with
  | ok u => exact codesBody_tree hbody
  | error e =>
    obtain ⟨hrun, hfail, -⟩ := runBody_fails (dest := .code) hbody
    cases hex.symm.trans (congrArg Host.Outcome.next hrun)
    cases herr.symm.trans (failedAs_err hfail)

/-- Settles O40: a CODES that succeeded has recorded the table of a tree that fits
(`codes_succeeded_fits`, `codesRecordsThePaths`), and a state has one tree (`Represents.unique`); the
rest holds of every tree's table. -/
theorem codesArePrefixFree : Obligations.CodesArePrefixFree := by
  intro s t T ha hT hex herr
  obtain ⟨U, hU, hheight, hcap⟩ := codes_succeeded_fits hex herr
  obtain rfl := hT.unique hU
  obtain ⟨u, hu, -, -, htable, hcodeN, -⟩ := codesRecordsThePaths s T ha hT hheight hcap
  cases hex.symm.trans hu
  rw [htable]
  exact ⟨hcodeN, rfl,
    fun htwo => ⟨fun _ _ _ _ hd he hjk => HTree.table_not_prefix hd he hjk,
      fun _ he => bits_ne_nil htwo he⟩,
    fun hnodup => T.table_syms ▸ hnodup⟩

/-- Settles O41: a Leaf is a tree of height 0 with one leaf, which fits every table. -/
theorem codesSingleLeaf : Obligations.CodesSingleLeaf := by
  intro s n ha hn hk
  have hT : s.HasTree (.leaf n.sym) := ⟨n, hn, hk, rfl⟩
  obtain ⟨-, -, ⟨hcap, -⟩, -⟩ := ha.inv.params_legal
  obtain ⟨t, hex, hsucc, -, htable, hcodeN, hframe, -⟩ :=
    codesRecordsThePaths s _ ha hT (Nat.zero_le _) hcap
  exact ⟨t, hex, hsucc, BitVec.eq_of_toNat_eq hcodeN, htable, hframe⟩

/-! ## Any nodes whatever (R98, R152) -/

/-- A traversal that stands at a Leaf has found one path more than it has recorded entries, all
different and each from the root to a Leaf. -/
theorem WalkedTo.leaf_paths {ns : List TreeNode} {p q : Word} {room : Nat} {path : List Bool}
    {done : List CodeEntry} {m : TreeNode} (h : WalkedTo ns p room q path done)
    (hm : nodeOf ns q = some m) (hk : m.kind = .leaf) :
    ∃ paths : List (List Bool), paths.Nodup ∧ paths.length = done.length + 1 ∧
      ∀ ps ∈ paths, ps.length ≤ room ∧
        ∃ r l, Path ns p ps r ∧ nodeOf ns r = some l ∧ l.kind = .leaf := by
  obtain ⟨hpath, hnodup, hdone⟩ := h.paths
  refine ⟨path :: done.map CodeEntry.bits, hnodup, by simp, fun ps hps => ?_⟩
  rcases List.mem_cons.1 hps with rfl | hps
  · exact ⟨h.path_length_le, q, m, hpath, hm, hk⟩
  · obtain ⟨e, he, rfl⟩ := List.mem_map.1 hps
    exact hdone e he

/-- Settles O42: the answers of the traversal are known (`codeTableOf_spec`); a table is CODES's on a
tree that fits, an error leaves no table, and a full table has met one leaf too many
(`WalkedTo.leaf_paths`). -/
theorem codesOutcomes : Obligations.CodesOutcomes := by
  intro s ha
  rcases codeTableOf_spec s.params s.nodes s.root with ⟨T, -, hT, hheight, hcap⟩ |
    ⟨herr, hroot⟩ | ⟨q, m, path, done, herr, hbad⟩ | ⟨q, m, path, done, herr, hdeep⟩ |
    ⟨q, m, path, done, herr, hwalk, hfull, hm, hk⟩
  · obtain ⟨t, hex, hsucc, -, htable, -⟩ := codesRecordsThePaths s T ha hT hheight hcap
    exact ⟨t, hex, .inl ⟨T, hT, hheight, hcap, hsucc, htable⟩⟩
  all_goals
    obtain ⟨t, hex, hfail, hcodeN⟩ := codes_fails herr
    refine ⟨t, hex, .inr ⟨hcodeN, ?_⟩⟩
  · exact .inl ⟨hroot, hfail⟩
  · obtain ⟨hwalk, hlen, hdone, hm, hk, hchild⟩ := hbad
    exact .inr (.inl ⟨q, m, path, done, hwalk, hlen, hdone, hm, hk, hchild, hfail⟩)
  · obtain ⟨hwalk, hlen, hdone, hm, hk⟩ := hdeep
    exact .inr (.inr (.inl ⟨q, m, path, done, hwalk, hlen, hdone, hm, hk, hfail⟩))
  · have hpaths := hwalk.leaf_paths hm hk
    rw [hfull] at hpaths
    exact .inr (.inr (.inr ⟨q, m, path, done, hwalk, hfull, hm, hk, hfail, hpaths⟩))

end Sys2Proof.Machine
end

section
/-! PROOF. What a command that fails leaves (R104, R150): a single stage its destination empty,
COMPRESS the destinations of the failed stage and of the later ones. -/

namespace Sys2Proof.Machine

/-! ## One command with one destination -/

/-- A command that failed, other than COMPRESS, leaves its destinations empty; those of CLEAR are
empty in any case. -/
theorem exec_fails_empties {i : Instr} {s t : State} (ha : s.Accepted i) (hi : i ≠ .compress)
    (hex : exec i s = .next t) (herr : t.status.err = true) :
    (∀ sp ∈ dests i, t.len sp = 0) ∧ (i = .build → t.root = nilPtr) := by
  obtain ⟨h0, -⟩ := ha.clear
  by_cases hnop : i = .nop
  · subst hnop
    exact ⟨fun _ hsp => (List.not_mem_nil hsp).elim, nofun⟩
  by_cases hclear : i = .clear
  · subst hclear
    cases hex
    exact ⟨fun sp _ => by simp [clearAll_len], nofun⟩
  obtain ⟨dest, body, hbody, hdests, hok, hnode⟩ :=
    exec_oneDest i ha.inv.toDataOk hnop hclear hi
  have hrun : s.runBody dest body = t := Host.Outcome.next.inj (hbody.symm.trans hex)
  obtain ⟨e, he, -⟩ := runBody_failedAs h0 hok hrun herr
  obtain ⟨hend, -, hlen, hroot, -⟩ := runBody_fails (dest := dest) he
  rw [← hend, hrun] at hlen hroot
  exact ⟨fun sp hsp => by rw [hdests, List.mem_singleton] at hsp; rwa [hsp],
    fun hb => hroot (hnode.2 hb)⟩

/-! ## COMPRESS -/

/-- A COMPRESS that failed: some stage is the first that fails. -/
theorem compress_failed_stage {s t : State} (ha : s.Accepted .compress)
    (hex : exec .compress s = .next t) (herr : t.status.err = true) :
    ∃ earlier failed later u e, CompressStage.order = earlier ++ failed :: later ∧
      RanThrough earlier s u ∧ t = stageFailure failed later u e := by
  have ht : runStages CompressStage.order s = t := Host.Outcome.next.inj hex
  rcases runStages_inv CompressStage.order s with ⟨u, hran, -⟩ |
    ⟨earlier, failed, later, u, e, horder, hran, he⟩
  · obtain ⟨hdone, hsucc, -⟩ := ran_done ha hran
    cases hex.symm.trans hdone
    cases herr.symm.trans (succeeded_err hsucc)
  · rw [horder, runStages_fails hran he] at ht
    exact ⟨earlier, failed, later, u, e, horder, hran, ht.symm⟩

/-- The Tree's buffer is a destination of a failed FREQ or BUILD stage or of a stage after it. -/
theorem node_mem_dests_of_failed {earlier later : List CompressStage} {failed : CompressStage}
    (horder : CompressStage.order = earlier ++ failed :: later)
    (hf : failed ∈ [CompressStage.freq, .build]) :
    Space.node ∈ (failed :: later).map CompressStage.dest := by
  have hbuild : CompressStage.build ∈ earlier ++ failed :: later := horder ▸ by decide
  have hsorted : (earlier ++ failed :: later).Pairwise fun a b => a.number < b.number :=
    horder ▸ by decide
  obtain ⟨-, -, hlt⟩ := List.pairwise_append.1 hsorted
  rcases List.mem_append.1 hbuild with hearly | hlate
  · have := hlt .build hearly failed (by simp)
    rcases List.mem_pair.1 hf with rfl | rfl <;> exact absurd this (by decide)
  · exact List.mem_map_of_mem (f := CompressStage.dest) hlate

/-- What a failed stage of COMPRESS leaves, against the state at acceptance: the later destinations
keep their words, for the stages before the failed one have other destinations, and of the earlier
ones each has written below its new length only. -/
theorem stageFailure_from_start {earlier later : List CompressStage} {failed : CompressStage}
    {s u : State} (hd : s.DataOk) (horder : CompressStage.order = earlier ++ failed :: later)
    (hran : RanThrough earlier s u) (e : CmdError) :
    (∀ l ∈ later, ∀ a, (stageFailure failed later u e).word l.dest a = s.word l.dest a) ∧
      ∀ st ∈ earlier, SameAbove st.dest s (stageFailure failed later u e) := by
  obtain ⟨hbefore, hu, -⟩ := hran.spec hd
  obtain ⟨-, -, hafter, -, hword, -⟩ := stageFailure_spec (failed := failed) (later := later)
    (e := e) hu
  have hnodup := nodup_order
  rw [horder, List.map_append] at hnodup
  obtain ⟨hnodupEarly, hnodupLate, hdisjoint⟩ := List.nodup_append.1 hnodup
  refine ⟨fun l hl a => ?_, fun st hst a hle => ?_⟩
  · have hne : l.dest ≠ failed.dest := fun heq =>
      (List.nodup_cons.1 hnodupLate).1 (heq ▸ List.mem_map_of_mem hl)
    have hnotEarly : l.dest ∉ earlier.map CompressStage.dest := fun hmem =>
      hdisjoint _ hmem _ (List.mem_map_of_mem (List.mem_cons_of_mem _ hl)) rfl
    rw [hword _ _ hne, (hbefore.outside _ hnotEarly).2]
  · have hnotLate : st.dest ∉ (failed :: later).map CompressStage.dest := fun hmem =>
      hdisjoint _ (List.mem_map_of_mem hst) _ hmem rfl
    obtain ⟨hlen, hsame⟩ := hafter.outside _ hnotLate
    rw [hlen] at hle
    rw [hsame, hran.sameAbove hd hnodupEarly hst a hle]

/-- Settles O27: the frame is `exec_accepted`; a single stage that failed left its destination void
(`exec_fails_empties`); of COMPRESS one stage is the first that fails (`compress_failed_stage`),
`stageFailure_spec` says what is empty then and `stageFailure_from_start` what is kept. -/
theorem failureEmptiesDestinations : Obligations.FailureEmptiesDestinations := by
  intro i s t ha hex herr
  obtain ⟨t', hex', -, htouch, -⟩ := exec_accepted ha
  cases hex.symm.trans hex'
  refine ⟨htouch.control, htouch.outside, writesRoot_frame htouch,
    fun hi => exec_fails_empties ha hi hex herr, ?_⟩
  rintro rfl
  obtain ⟨earlier, failed, later, u, e, horder, hran, rfl⟩ := compress_failed_stage ha hex herr
  have hd := ha.inv.toDataOk
  obtain ⟨-, hu, -⟩ := hran.spec hd
  obtain ⟨-, hstage, -, hempty, -, hroot⟩ := stageFailure_spec (failed := failed) (later := later)
    (e := e) hu
  obtain ⟨hlater, hearlier⟩ := stageFailure_from_start hd horder hran e
  exact ⟨earlier, failed, later, horder, hstage, hempty failed (by simp),
    fun l hl => ⟨hempty l (by simp [hl]), hlater l hl⟩, hearlier,
    fun hf => hroot (node_mem_dests_of_failed horder hf)⟩

end Sys2Proof.Machine
end

section
/-! PROOF. The family of the Encoder: the codes ENCODE writes and how it fails, COMPRESS as its four
commands, the ways COMPRESS fails, and the length of its BitString (R100 to R106). -/

namespace Sys2Proof.Machine

/-! ## ENCODE -/

/-- Settles O43: the loop answers the codes of a covered text that fits (`encodeBody_ok`), which is
what BITS reads as after its delivery. -/
theorem encodeWritesTheCodes : Obligations.EncodeWritesTheCodes := by
  intro s ha hcover hfit
  obtain ⟨hbody, hread⟩ := encodeBody_ok ha.inv.toDataOk hcover hfit
  obtain ⟨hrun, hsucc, hstage, hframe, habove⟩ :=
    runBody_succeeds ha (by decide) hbody (encodeBody_delivers hbody)
  set bs := codeBits s.codeTable s.text
  set t := (s.deliver .bits bs.length (bs.map bitWord)).complete
  have hbits : t.bitString = bs := hread
  exact ⟨t, congrArg Host.Outcome.next hrun, hsucc, hstage, hbits, by rw [← bitlen, hbits], hframe,
    habove⟩

theorem encode_fails {s : State} {e : CmdError}
    (h : encodeFrom s.params.bitCap s.codeTable s.text 0 [] = .error e) :
    ∃ t, exec .encode s = .next t ∧ FailedAs e.code e.info t ∧ t.bitLen = 0 ∧
      Frame [.bits] s t := by
  have hbody : encodeBody s = .error e := by simp [encodeBody, h]
  obtain ⟨hrun, hfail, hlen, -, hframe, -⟩ := runBody_fails (dest := .bits) hbody
  exact ⟨_, congrArg Host.Outcome.next hrun, hfail, hlen, hframe⟩

/-- A text and one symbol more are covered when the text is and the symbol has an entry. -/
theorem Covers.append_singleton {tbl : List CodeEntry} {xs : List Word} {y : Word}
    (h : Covers tbl xs) (hy : ∃ e ∈ tbl, e.sym = y) : Covers tbl (xs ++ [y]) := by
  intro x hx
  rcases List.mem_append.1 hx with hx | hx
  · exact h x hx
  · rwa [List.mem_singleton.1 hx]

/-- Settles O44: the loop stops at the first symbol without an entry (`encodeFrom_unknown`) and at
the first code that does not fit (`encodeFrom_full`), and a failed body leaves BITS void. -/
theorem encodeFailures : Obligations.EncodeFailures := by
  intro s xs ys y _ htext hcover hfit
  refine ⟨fun hnone => ?_, fun hentry hfull => ?_⟩
  · refine encode_fails (e := .unknownSymbol xs.length) ?_
    rw [htext]
    exact encodeFrom_unknown hcover hfit fun ⟨e, he, hsym⟩ => hnone e he hsym
  · refine encode_fails (e := .capacityOverflow .bitString) ?_
    rw [htext]
    exact encodeFrom_full (hcover.append_singleton hentry) hfit hfull

/-! ## COMPRESS and its four commands -/

/-- Running stages does not look at BUSY and DONE, which it writes at its end. -/
theorem runStages_complete (stages : List CompressStage) (s : State) :
    runStages stages s.complete = runStages stages s := by
  induction stages generalizing s with
  | nil => rfl
  | cons st later ih =>
    rcases runStages_cons_command st later s s.status with ⟨t, hbody, -, hrun⟩ | ⟨e, hbody, -, hrun⟩
    · rcases runStages_cons_command st later s s.status.complete with ⟨u, hbody', -, hrun'⟩ |
        ⟨e, hbody', -⟩ <;> cases hbody.symm.trans hbody'
      calc runStages (st :: later) s.complete
          = runStages later (t.withStatus { s.status with stage := st.number }).complete := hrun'
        _ = runStages later (t.withStatus { s.status with stage := st.number }) := ih _
        _ = runStages (st :: later) s := hrun.symm
    · rcases runStages_cons_command st later s s.status.complete with ⟨u, hbody', -⟩ |
        ⟨d, hbody', -, hrun'⟩ <;> cases hbody.symm.trans hbody'
      exact hrun'.trans hrun.symm

/-- The first stage writes STAGE anew. -/
theorem runStages_cons_setStage (st : CompressStage) (later : List CompressStage) (s : State)
    (n : BitVec 4) : runStages (st :: later) (s.setStage n) = runStages (st :: later) s := rfl

/-- The command of a stage's name (R103). -/
def CompressStage.command : CompressStage → Instr
  | .freq => .freq
  | .build => .build
  | .codes => .codes
  | .encode => .encode

theorem CompressStage.exec_command (st : CompressStage) (s : State) :
    exec st.command s = .next (s.runBody st.dest st.body) := by cases st <;> rfl

/-- COMPRESS from a stage on, by the command of the stage's name: a command that fails ends it with
that command's error and empties the later destinations, after one that succeeds the later stages
run on its result (R103, R104). -/
theorem runStages_command {st : CompressStage} (later : List CompressStage) {s t : State}
    (hd : s.DataOk) (h0 : s.status.err = false) (hex : exec st.command s = .next t) :
    (t.status.err = true → runStages (st :: later) s =
      (later.foldl (fun u l => u.emptyDest l.dest) t).setStage st.number) ∧
    (t.status.err = false → runStages (st :: later) s = runStages later (t.setStage st.number)) := by
  obtain rfl := Host.Outcome.next.inj ((st.exec_command s).symm.trans hex)
  rcases runStages_cons_command st later s s.status with ⟨t, hbody, hend, hrun⟩ |
    ⟨e, -, hend, hrun⟩
  · obtain ⟨hstatus, -⟩ := (CompressStage.delivers hd hbody).status
    rw [hend, State.complete_status, hstatus]
    refine ⟨fun herr => (nomatch h0.symm.trans herr), fun _ => ?_⟩
    calc runStages (st :: later) s
        = runStages later (t.withStatus { s.status with stage := st.number }) := hrun
      _ = runStages later (t.setStage st.number) := by
          rw [setStage_eq t _ st.number (by rw [hstatus])]
      _ = runStages later (t.complete.setStage st.number) := (runStages_complete later _).symm
  · rw [hend]
    refine ⟨fun _ => hrun.trans (setStage_eq _ _ st.number ?_), nofun⟩
    rw [emptyDest2_status, State.takeError_status, State.voidDest_status]
    rfl

/-- The result of a stage's command is well and complete. -/
theorem CompressStage.command_completes {st : CompressStage} {s t : State} (hd : s.DataOk)
    (hex : exec st.command s = .next t) : t.DataOk ∧ t.complete = t := by
  obtain ⟨t', hex', -, hend, ht, -⟩ := exec_spec st.command hd
  cases hex.symm.trans hex'
  refine ⟨ht, ?_⟩
  have hstatus : t.status.complete = t.status := by simp [Status.complete, ← hend.busy, ← hend.done]
  exact congrArg t.withStatus hstatus

/-- Settles O45: stage by stage with `runStages_command`; each command's result is well, so the next
one is as good as a stage, and the last one's result is complete already. -/
theorem compressIsThePipeline : Obligations.CompressIsThePipeline := by
  intro s a b c d ha hfreq hbuild hcodes hencode
  obtain ⟨h0, -⟩ := ha.clear
  have hd := ha.inv.toDataOk
  obtain ⟨hda, -⟩ := CompressStage.command_completes (st := .freq) hd hfreq
  obtain ⟨hdb, -⟩ := CompressStage.command_completes (st := .build) hda hbuild
  obtain ⟨hdc, -⟩ := CompressStage.command_completes (st := .codes) hdb hcodes
  obtain ⟨-, hdone⟩ := CompressStage.command_completes (st := .encode) hdc hencode
  obtain ⟨failFreq, okFreq⟩ :=
    runStages_command (st := .freq) [.build, .codes, .encode] hd h0 hfreq
  have runBuild (ea) := runStages_command (st := .build) [.codes, .encode] hda ea hbuild
  have runCodes (eb) := runStages_command (st := .codes) [.encode] hdb eb hcodes
  have runEncode (ec) := runStages_command (st := .encode) [] hdc ec hencode
  have toBuild (ea) : runStages CompressStage.order s = runStages [.build, .codes, .encode] a :=
    (okFreq ea).trans (runStages_cons_setStage ..)
  have toCodes (ea eb) : runStages CompressStage.order s = runStages [.codes, .encode] b :=
    (toBuild ea).trans (((runBuild ea).2 eb).trans (runStages_cons_setStage ..))
  have toEncode (ea eb ec) : runStages CompressStage.order s = runStages [.encode] c :=
    (toCodes ea eb).trans (((runCodes eb).2 ec).trans (runStages_cons_setStage ..))
  have last (ec : c.status.err = false) : runStages [.encode] c = d.setStage 4 := by
    cases ed : d.status.err
    · exact ((runEncode ec).2 ed).trans (congrArg (State.setStage · 4) hdone)
    · exact (runEncode ec).1 ed
  exact ⟨fun ea => congrArg _ (failFreq ea),
    fun ea eb => congrArg _ ((toBuild ea).trans ((runBuild ea).1 eb)),
    fun ea eb ec => congrArg _ ((toCodes ea eb).trans ((runCodes eb).1 ec)),
    fun ea eb ec => congrArg _ ((toEncode ea eb ec).trans (last ec))⟩

/-! ## The ways COMPRESS fails -/

/-- A map without entries has length 0. -/
theorem freqN_eq_zero {s : State} (h : s.freqMap = []) : s.freqN = 0 := by
  obtain ⟨-, hlen, -⟩ := s.value_lengths
  rw [h] at hlen
  exact BitVec.eq_of_toNat_eq hlen.symm

/-- Settles O47: of the ways COMPRESS ends the empty text leaves BUILD's failure alone; the map is
empty, and the destinations from BUILD on are. -/
theorem compressEmptyText : Obligations.CompressEmptyText := by
  intro s ha hlen
  have hd := ha.inv.toDataOk
  have hnil : s.text = [] := (text_nil_iff s).2 hlen
  obtain ⟨t, hex, -, htouch, -⟩ := exec_accepted ha
  rcases compress_cases hd with ⟨hfull, -⟩ | ⟨-, a, hran, hmap, hrun⟩ |
    ⟨_, _, _, _, -, -, -, -, hne, -⟩
  · simp [hnil] at hfull
  · obtain rfl : t = stageFailure .build [.codes, .encode] a .emptyAlphabet :=
      (Host.Outcome.next.inj hex).symm.trans hrun
    obtain ⟨-, hda, -⟩ := hran.spec hd
    obtain ⟨hfail, hstage, hafter, hempty, -, hroot⟩ := stageFailure_spec (failed := .build)
      (later := [.codes, .encode]) (e := .emptyAlphabet) hda
    obtain ⟨hfreq, -⟩ := hafter.outside .freq (by decide)
    exact ⟨_, hex, hfail, hstage, hfreq.trans (freqN_eq_zero hmap), hempty .build (by simp),
      hroot (by decide), hempty .codes (by simp), hempty .encode (by simp), htouch.frame⟩
  · exact absurd hnil hne

/-- A tree of the map's symbols is lower than the table has entries (R7). -/
theorem HTree.height_le_pred {T : HTree} {n : Nat} (h : T.leafCount ≤ n) : T.height ≤ n - 1 := by
  have := T.height_lt_leafCount
  omega

/-- COMPRESS when the stage `failed` is the first that fails, as the host sees it. -/
theorem compress_fails_in {failed : CompressStage} {earlier later : List CompressStage}
    {s t u : State} {e : CmdError} (hd : s.DataOk) (hex : exec .compress s = .next t)
    (hran : RanThrough earlier s u)
    (hrun : runStages CompressStage.order s = stageFailure failed later u e) :
    FailedAs e.code e.info t ∧ t.status.stage = failed.number ∧
      Touches ((failed :: later).map CompressStage.dest) u t := by
  obtain ⟨-, hu, -⟩ := hran.spec hd
  obtain ⟨hfail, hstage, hafter, -⟩ :=
    stageFailure_spec (failed := failed) (later := later) (e := e) hu
  rw [← hrun, Host.Outcome.next.inj hex] at hfail hstage hafter
  exact ⟨hfail, hstage, hafter⟩

/-- Settles O48: the five ways COMPRESS ends (`compress_cases`), each failure with its stage
(`compress_fails_in`). A tree too tall for `CODE_MAXLEN` is lower than its number of leaves. -/
theorem compressErrors : Obligations.CompressErrors := by
  intro s t ha hex
  have hd := ha.inv.toDataOk
  rcases compress_cases hd with ⟨hfull, hrun⟩ | ⟨hnil, a, hran, -, hrun⟩ |
    ⟨es, ns, r, T, hes, hcap, hns, hT, hne, -, hleaves, ⟨htall, b, hran, hrun⟩ |
      ⟨-, hlong, c, hran, htable, hrun⟩ | ⟨hheight, hbits⟩⟩
  · obtain ⟨hfail, hstage, -⟩ := compress_fails_in hd hex (.nil s) hrun
    exact .inr (.inr (.inl ⟨hfail, hfull, hstage⟩))
  · obtain ⟨hfail, hstage, -⟩ := compress_fails_in hd hex hran hrun
    exact .inr (.inl ⟨hfail, hnil, hstage⟩)
  · obtain ⟨hfail, hstage, -⟩ := compress_fails_in hd hex hran hrun
    exact .inr (.inr (.inr (.inl
      ⟨hfail, htall.trans_le (HTree.height_le_pred hleaves), hstage⟩)))
  · obtain ⟨hfail, hstage, htouch⟩ := compress_fails_in hd hex hran hrun
    obtain ⟨hlen, hword⟩ := htouch.outside .code (by decide)
    refine .inr (.inr (.inr (.inr ⟨hfail, hstage, ?_⟩)))
    rwa [State.codeTable_congr htouch.control.1 hlen hword, htable]
  · obtain ⟨u, hran, -⟩ := ranEncode hd hes hcap hne hns hT hheight hbits
    obtain ⟨hdone, hsucc, -⟩ := ran_done ha hran
    cases hex.symm.trans hdone
    exact .inl hsucc

/-! ## What COMPRESS makes -/

/-- Settles O49: a COMPRESS that succeeded has made the FrequencyMap and the codes of the text
(`compress_ok`), and the codes of a text are as long as its map says (`codeBits_length_sum`). -/
theorem compressedLength : Obligations.CompressedLength := by
  intro s t ha hex herr
  obtain ⟨es, ns, r, T, u, hes, -, -, -, -, -, hmap, -, -, htable, hbits, -⟩ :=
    compress_ok ha hex herr
  rw [← bitlen, hbits, hmap, htable]
  exact codeBits_length_sum hes

theorem isFrequencyMap_replicate (x : Word) (k : Nat) :
    IsFrequencyMap (List.replicate (k + 1) x) [⟨x, k + 1⟩] where
  keys_distinct := List.nodup_singleton x
  keys_exact y := by simp [List.mem_replicate]
  values e he := by simp [List.mem_singleton.1 he]
  order := List.pairwise_singleton _ _
  conserved := by simp

/-- The tree of a map of one entry is its Leaf (R86). -/
theorem isHuffmanTree_singleton (e : FreqEntry) : IsHuffmanTree [e] [leafNode e] 0 where
  size := rfl
  root_last := rfl
  leaves i d hd := by
    obtain ⟨hi, rfl⟩ := List.getElem?_eq_some_iff.1 hd
    obtain rfl : i = 0 := Nat.lt_one_iff.1 hi
    rfl
  merges k m hk hm := absurd (List.getElem?_eq_some_iff.1 hm).1 (Nat.not_lt.2 hk)

/-- The empty code writes no bits, however often its symbol comes (R97). -/
theorem codeBits_singleton_empty (x : Word) (k : Nat) :
    codeBits [⟨x, []⟩] (List.replicate k x) = [] := by
  simp [codeBits]

/-- Settles O50: the map, the tree and the code of one symbol repeated are those of
`isFrequencyMap_replicate`, `isHuffmanTree_singleton` and a single Leaf, and COMPRESS makes what they
determine (`compressCompletes`). -/
theorem compressSingleSymbol : Obligations.CompressSingleSymbol := by
  intro s x k ha htext
  have hbits : codeBits (HTree.table (.leaf x)) s.text = [] := by
    rw [htext]
    exact codeBits_singleton_empty x (k + 1)
  obtain ⟨-, -, ⟨hcap, -⟩, -⟩ := ha.inv.params_legal
  obtain ⟨t, hex, hsucc, -, hmap, hnodes, hroot, htable, hstring, -⟩ :=
    compressCompletes s [⟨x, k + 1⟩] [leafNode ⟨x, k + 1⟩] 0 (.leaf x) ha (by simp [htext])
      (htext ▸ isFrequencyMap_replicate x k) hcap (isHuffmanTree_singleton _)
      ⟨_, rfl, rfl, rfl⟩ (Nat.zero_le _) (by simp [hbits])
  refine ⟨t, hex, hsucc, hmap, hnodes, hroot, htable, BitVec.eq_of_toNat_eq ?_⟩
  rw [← bitlen, hstring, hbits]
  rfl

end Sys2Proof.Machine
end

section
/-! PROOF. The family of BitPacker: the bytes PACK makes, the bits UNPACK makes, the characters TOHEX
makes, and how PACK and UNPACK relate (R110 to R118). -/

namespace Sys2Proof.Machine

/-! ## The values a command leaves alone -/

/-- BYTELEN is the length of the PackedBytes (R17). -/
theorem packedBytes_length (s : State) : s.packedBytes.length = s.byteLen.toNat := by
  simp [State.packedBytes]

/-- HEXLEN is the length of the hex string (R18). -/
theorem hexString_length (s : State) : s.hexString.length = s.hexLen.toNat := by
  simp [State.hexString]

theorem Frame.bitString_eq {ds : List Space} {s t : State} (h : Frame ds s t)
    (hds : Space.bits ∉ ds) : t.bitString = s.bitString := by
  obtain ⟨-, hsame, -⟩ := h
  exact State.bitString_congr (hsame .bits hds).1 (hsame .bits hds).2

theorem Frame.packedBytes_eq {ds : List Space} {s t : State} (h : Frame ds s t)
    (hds : Space.bytes ∉ ds) : t.packedBytes = s.packedBytes := by
  obtain ⟨-, hsame, -⟩ := h
  exact State.packedBytes_congr (hsame .bytes hds).1 (hsame .bytes hds).2

/-! ## PACK, UNPACK, TOHEX -/

/-- Settles O51: PACK delivers `packBits` of the BitString (`packBody_ok`), whose bits are those of
the groups of eight (`packBits_getLsbD`); the frame keeps BITS. -/
theorem packGroupsTheBits : Obligations.PackGroupsTheBits := by
  intro s ha
  have hd := ha.inv.toDataOk
  obtain ⟨hbody, hread, -⟩ := packBody_ok hd
  obtain ⟨hrun, hsucc, hstage, hframe, habove⟩ :=
    runBody_succeeds ha (by decide) hbody (packBody_delivers hd hbody)
  set out := packBits s.bitString with hout
  set t := (s.deliver .bytes out.length (out.map (BitVec.setWidth 32))).complete
  have hbytes : t.packedBytes = out := hread
  refine ⟨t, congrArg Host.Outcome.next hrun, hsucc, hstage, ?_, fun j k hj hk => ?_,
    hframe.bitString_eq (by decide), hframe, habove⟩
  · rw [← packedBytes_length, hbytes, hout, packBits_length, bitlen]
  · rw [← packedBytes_length, hbytes] at hj
    rw [hbytes, List.getD_eq_getElem _ _ hj]
    exact packBits_getLsbD s.bitString j k hj hk

/-- Settles O52: UNPACK delivers `unpackBytes` of the PackedBytes (`unpackBody_ok`), eight bits for
each byte (`unpackBytes_getD`); the frame keeps BYTES. -/
theorem unpackExpandsTheBytes : Obligations.UnpackExpandsTheBytes := by
  intro s ha
  have hd := ha.inv.toDataOk
  obtain ⟨hbody, hread, -⟩ := unpackBody_ok hd
  obtain ⟨hrun, hsucc, hstage, hframe, habove⟩ :=
    runBody_succeeds ha (by decide) hbody (unpackBody_delivers hd hbody)
  set out := unpackBytes s.packedBytes with hout
  set t := (s.deliver .bits out.length (out.map bitWord)).complete
  have hbits : t.bitString = out := hread
  refine ⟨t, congrArg Host.Outcome.next hrun, hsucc, hstage, ?_, fun j k hj hk => ?_,
    hframe.packedBytes_eq (by decide), hframe, habove⟩
  · rw [← bitlen, hbits, hout, unpackBytes_length, packedBytes_length]
  · rw [← packedBytes_length] at hj
    rw [hbits, List.getD_eq_getElem s.packedBytes _ hj]
    exact unpackBytes_getD s.packedBytes j k hj hk

/-- Settles O53: TOHEX delivers `hexOf` of the PackedBytes (`toHexBody_ok`), whose characters
`hexOf_getD` gives: the digits of a byte's quotient and remainder by 16, which are `hi` and `lo`, and
the separator. -/
theorem toHexRendersTheBytes : Obligations.ToHexRendersTheBytes := by
  intro s ha
  have hd := ha.inv.toDataOk
  obtain ⟨hbody, hread, -⟩ := toHexBody_ok hd
  obtain ⟨hrun, hsucc, hstage, hframe, habove⟩ :=
    runBody_succeeds ha (by decide) hbody (toHexBody_delivers hd hbody)
  set out := hexOf s.packedBytes with hout
  set t := (s.deliver .hex out.length (out.map (BitVec.setWidth 32))).complete
  have hhex : t.hexString = out := hread
  refine ⟨t, congrArg Host.Outcome.next hrun, hsucc, hstage, ?_,
    fun j hj hi lo hhi hlo hbyte => ?_, hframe.packedBytes_eq (by decide), hframe, habove⟩
  · rw [← hexString_length, hhex, hout, hexOf_length, packedBytes_length]
  · rw [← packedBytes_length] at hj ⊢
    rw [List.getD_eq_getElem _ _ hj] at hbyte
    obtain ⟨hhigh, hlow, hspace⟩ := hexOf_getD s.packedBytes j hj
    rw [show s.packedBytes[j].toNat / 16 = hi by omega] at hhigh
    rw [show s.packedBytes[j].toNat % 16 = lo by omega] at hlow
    rw [hhex, hhigh, hlow]
    exact ⟨hexDigit_toNat hi hhi, hexDigit_toNat lo hlo, hspace⟩

/-! ## PACK and UNPACK -/

/-- There are no pad bits exactly when the bits fill whole bytes (R118). -/
theorem append_pad_eq_self_iff (bs : List Bool) :
    bs ++ List.replicate ((8 - bs.length % 8) % 8) false = bs ↔ bs.length % 8 = 0 := by
  rw [List.append_right_eq_self, List.replicate_eq_nil_iff]
  omega

/-- `run PACK`, then `run UNPACK`, on an idle machine: UNPACK reads the bytes PACK has made. -/
theorem pack_unpack_run {s : State} (hs : s.Inv) (hb : s.status.busy = false) :
    ∃ a b, runCommand .pack s = .next a ∧ runCommand .unpack a = .next b ∧ Succeeded b ∧
      b.bitString = unpackBytes (packBits s.bitString) := by
  obtain ⟨a, hpack, ha, ⟨hidle, -⟩, hbytes, -⟩ := pack_run hs hb
  obtain ⟨b, hunpack, -, hsucc, hbits, -⟩ := unpack_run ha hidle
  exact ⟨a, b, hpack, hunpack, hsucc, hbytes ▸ hbits⟩

/-- `run UNPACK`, then `run PACK`, on an idle machine: PACK reads the bits UNPACK has made. -/
theorem unpack_pack_run {s : State} (hs : s.Inv) (hb : s.status.busy = false) :
    ∃ a b, runCommand .unpack s = .next a ∧ runCommand .pack a = .next b ∧ Succeeded b ∧
      b.packedBytes = packBits (unpackBytes s.packedBytes) := by
  obtain ⟨a, hunpack, ha, ⟨hidle, -⟩, hbits, -⟩ := unpack_run hs hb
  obtain ⟨b, hpack, -, hsucc, hbytes, -⟩ := pack_run ha hidle
  exact ⟨a, b, hunpack, hpack, hsucc, hbits ▸ hbytes⟩

/-- Settles O54: the second command reads what the first has made, and on the values `unpackBytes`
after `packBits` adds the pad bits (`unpack_pack`) and `packBits` after `unpackBytes` is the identity
(`pack_unpack`). -/
theorem packAndUnpackRelate : Obligations.PackAndUnpackRelate := by
  intro s hs hb
  refine ⟨?_, ?_⟩
  · obtain ⟨a, b, hpack, hunpack, hsucc, hbits⟩ := pack_unpack_run hs hb
    refine ⟨a, b, hpack, hunpack, hsucc, ?_, ?_, ?_⟩
    · rw [hbits, unpack_pack, bitlen]
    · rw [← bitlen, hbits, unpackBytes_length, packBits_length, bitlen]
    · rw [hbits, unpack_pack, append_pad_eq_self_iff, bitlen]
  · obtain ⟨a, b, hunpack, hpack, hsucc, hbytes⟩ := unpack_pack_run hs hb
    rw [pack_unpack] at hbytes
    refine ⟨a, b, hunpack, hpack, hsucc, hbytes, BitVec.eq_of_toNat_eq ?_⟩
    rw [← packedBytes_length, hbytes, packedBytes_length]

end Sys2Proof.Machine
end

section
/-! PROOF. The family of Decoder: what DECODE emits, the ways it ends on any bits and nodes, pad bits,
and the round trips of COMPRESS with DECODE (R103, R118, R120 to R128). -/

namespace Sys2Proof.Machine

/-! ## The round trip -/

/-- `run DECODE` on an idle machine whose BitString is made of codes of its Tree. -/
theorem decode_run_spells {s : State} {T : HTree} {xs : List Word} (hs : s.Inv)
    (hb : s.status.busy = false) (hT : s.HasTree T) (htwo : 2 ≤ T.leafCount)
    (hspells : Spells T.table xs s.bitString) (hfit : xs.length ≤ s.params.outCap) :
    ∃ t, runCommand .decode s = .next t ∧ Succeeded t ∧ t.outText = xs ∧
      t.outLen.toNat = xs.length :=
  decode_run hs hb (decodeBits_spells hT htwo hspells hfit)

/-- TEXTLEN is the length of the text (R12). -/
theorem text_length (s : State) : s.text.length = s.textLen.toNat := by simp [State.text]

/-- Settles O59: a COMPRESS that succeeded leaves a tree of two or more leaves and a BitString that
spells the text in its codes (`compress_run`), which DECODE takes apart again
(`decode_run_spells`). -/
theorem compressThenDecode : Obligations.CompressThenDecode := by
  intro s a hs hb hdistinct hfit hrun herr
  obtain ⟨T, ha, hidle, hparams, hT, htwo, hspells⟩ := compress_run hs hb hdistinct hrun herr
  rw [← text_length, ← hparams] at hfit
  obtain ⟨b, hdecode, hsucc, hout, hlen⟩ := decode_run_spells ha hidle hT htwo hspells hfit
  exact ⟨b, hdecode, hsucc, hout, BitVec.eq_of_toNat_eq (hlen.trans (text_length s))⟩

/-! ## The round trip through bytes -/

/-- A shorter length gives the elements that stand first. -/
theorem below_prefix {α : Type} {n v : Word} {f : Nat → α} {l r : List α}
    (h : below n f = l ++ r) (hv : v.toNat = l.length) : below v f = l := by
  have hn : n.toNat = l.length + r.length := by rw [← below_length n f, h, List.length_append]
  refine below_eq hv fun i hi => ?_
  have hget : (below n f)[i]? = some (f i) := below_getElem? (by omega)
  rw [h, List.getElem?_append_left hi, List.getElem?_eq_getElem hi] at hget
  exact (Option.some.inj hget).symm

/-- A host that writes BITLEN back drops the bits behind it (R118). -/
theorem setLen_bitString_prefix {s : State} {v : Word} {bs pad : List Bool}
    (h : s.bitString = bs ++ pad) (hv : v.toNat = bs.length) :
    (s.setLen .bits v).bitString = bs := below_prefix h hv

/-- `run PACK`, then `run UNPACK`: the BitString is followed by the pad bits, and the Tree is as
before (R118, R149). -/
theorem packed_run {a b c : State} (ha : a.Inv) (hidle : a.status.busy = false)
    (hpack : runCommand .pack a = .next b) (hunpack : runCommand .unpack b = .next c) :
    c.Inv ∧ c.status.busy = false ∧ c.params = a.params ∧
      (∀ T, a.HasTree T → c.HasTree T) ∧
      c.bitString = a.bitString ++ List.replicate ((8 - a.bitString.length % 8) % 8) false := by
  obtain ⟨b', hb, hbInv, ⟨hbIdle, -⟩, hbytes, hbParams, hbRoot, hbSame⟩ := pack_run ha hidle
  cases hpack.symm.trans hb
  obtain ⟨c', hc, hcInv, ⟨hcIdle, -⟩, hbits, hcParams, hcRoot, hcSame, -⟩ := unpack_run hbInv hbIdle
  cases hunpack.symm.trans hc
  have hparams : c.params = a.params := hcParams.trans hbParams
  have hnodes : c.nodes = a.nodes :=
    (State.nodes_congr hcParams (hcSame .node (by decide)).1 (hcSame .node (by decide)).2).trans
      (State.nodes_congr hbParams (hbSame .node (by decide)).1 (hbSame .node (by decide)).2)
  refine ⟨hcInv, hcIdle, hparams, fun T hT => ?_, by rw [hbits, hbytes, unpack_pack]⟩
  rwa [State.HasTree, hnodes, hcRoot, hbRoot]

/-- Settles O60: PACK and UNPACK add the pad bits only (`packed_run`). There are none when the bits
fill whole bytes, and a host that writes the bit length back drops them
(`setLen_bitString_prefix`). -/
theorem packedRoundTrip : Obligations.PackedRoundTrip := by
  intro s a b c hs hb hdistinct hfit hrun herr hpack hunpack
  obtain ⟨T, ha, hidle, haParams, hT, htwo, hspells⟩ := compress_run hs hb hdistinct hrun herr
  obtain ⟨hc, hcIdle, hcParams, htree, hbits⟩ := packed_run ha hidle hpack hunpack
  rw [← text_length, ← haParams, ← hcParams] at hfit
  refine ⟨fun hwhole => ?_, ?_⟩
  · rw [← bitlen] at hwhole
    rw [(append_pad_eq_self_iff _).2 hwhole] at hbits
    obtain ⟨d, hdecode, hsucc, hout, -⟩ :=
      decode_run_spells hc hcIdle (htree T hT) htwo (hbits ▸ hspells) hfit
    exact ⟨d, hdecode, hsucc, hout⟩
  · have hcap : a.bitLen.toNat ≤ Space.bits.cap c.params := hcParams ▸ ha.len_le .bits
    have hwrite : c.hostWrite (addressOf 0 0x0B) a.bitLen = some (c.setLen .bits a.bitLen) :=
      (hostWrite_len_idle hcIdle (sp := .bits) rfl _).trans (if_pos ⟨rfl, hcap⟩)
    have hback : (c.setLen .bits a.bitLen).bitString = a.bitString :=
      setLen_bitString_prefix hbits (bitlen a).symm
    obtain ⟨d, hdecode, hsucc, hout, -⟩ :=
      decode_run_spells (hc.hostWrite hwrite) hcIdle (htree T hT) htwo (hback ▸ hspells) hfit
    exact ⟨_, hwrite, d, hdecode, hsucc, hout⟩

/-! ## Whole walks -/

/-- Settles O55: the loop answers the symbols of whole walks (`decodeBits_emits`), and DECODE
delivers them (`decode_ok`). -/
theorem decodeEmitsTheSymbols : Obligations.DecodeEmitsTheSymbols := fun _ _ _ ha hn hemits hfit =>
  decode_ok ha (decodeBits_emits hn hemits hfit)

/-! ## Any bits and any nodes whatever -/

theorem decodeBits_of_root {cap : Nat} {ns : List TreeNode} {root : Word} {n : TreeNode}
    (hn : nodeOf ns root = some n) (bs : List Bool) :
    decodeBits cap ns root bs = decodeFrom cap ns n bs 0 n false [] := by
  simp [decodeBits, hn]

/-- The bit index in ERRINFO of a BitString that ended inside a walk (R122). -/
theorem ofNat_bitString_length (s : State) :
    BitVec.ofNat 31 s.bitString.length = s.bitLen.extractLsb' 0 31 := by
  apply BitVec.eq_of_toNat_eq
  simp [bitlen]

/-- Settles O56: without a root DECODE refuses the tree; otherwise the loop, begun at the root with
nothing emitted, ends in one of the four ways of `decodeFrom_outcomes`. -/
theorem decodeOutcomes : Obligations.DecodeOutcomes := by
  intro s ha
  cases hn : nodeOf s.nodes s.root with
  | none =>
    obtain ⟨t, hex, hfail, hlen, -⟩ :=
      decode_error (s := s) (e := .badTree s.root) (by simp [decodeBits, hn])
    exact ⟨t, hex, .inr ⟨hlen, .inl ⟨rfl, hfail⟩⟩⟩
  | some n =>
    have hstart := decodeBits_of_root (cap := s.params.outCap) hn s.bitString
    rcases decodeFrom_outcomes hn s.bitString .nil (Nat.zero_le s.params.outCap) (.nil s.root) hn
      (absurd rfl) with ⟨xs, hrun, hemits, hfit⟩ | ⟨xs, us, vs, q, m, hrun, hends⟩ |
      ⟨xs, us, vs, b, rest, q, m, hrun, hmissing⟩ | ⟨xs, us, vs, rest, q, m, hrun, hfull⟩
    · obtain ⟨t, hex, hsucc, -, hout, -⟩ := decode_ok ha (hstart.trans hrun)
      exact ⟨t, hex, .inl ⟨xs, rfl, hemits, hfit, hsucc, hout⟩⟩
    all_goals
      obtain ⟨t, hex, hfail, hlen, -⟩ := decode_error (hstart.trans hrun)
      refine ⟨t, hex, .inr ⟨hlen, .inr ?_⟩⟩
    · obtain ⟨hbits, hne, hemits, hfit, hpath, hm, hk⟩ := hends
      rw [← ofNat_bitString_length]
      exact .inl ⟨xs, us, vs, q, m, hbits, hne, hemits, hfit, hpath, hm, hk, hfail⟩
    · obtain ⟨hbits, hemits, hfit, hpath, hm, hchild⟩ := hmissing
      exact .inr (.inl ⟨xs, us, vs, b, rest, q, m, hbits, hemits, hfit, hpath, hm, hchild, hfail⟩)
    · obtain ⟨hbits, hne, hemits, hcap, hpath, hm, hk⟩ := hfull
      exact .inr (.inr ⟨xs, us, vs, rest, q, m, hbits, hne, hemits, hcap, hpath, hm, hk, hfail⟩)

/-! ## No bits, and a single Leaf -/

/-- Settles O57: no bits are no walks, which DECODE completes with no symbols
(`decodeEmitsTheSymbols`); at a Leaf the first bit finds no child (`decodeFrom_missing`). -/
theorem decodeEmptyBitsAndSingleLeaf : Obligations.DecodeEmptyBitsAndSingleLeaf := by
  intro s n ha hn
  refine ⟨fun hlen => ?_, fun hk hlen => ?_⟩
  · obtain ⟨t, hex, hsucc, -, -, hout, -⟩ :=
      decodeEmitsTheSymbols s n [] ha hn (bits_nil hlen ▸ .nil) (Nat.zero_le _)
    exact ⟨t, hex, hsucc, BitVec.eq_of_toNat_eq hout⟩
  · cases hbits : s.bitString with
    | nil =>
      have hzero := bitlen s
      rw [hbits] at hzero
      exact absurd (BitVec.eq_of_toNat_eq hzero.symm) hlen
    | cons b rest =>
      have herr : decodeBits s.params.outCap s.nodes s.root s.bitString =
          .error (.malformedBitStream true 0) := by
        rw [hbits, decodeBits_of_root hn]
        exact decodeFrom_missing b (.inr hk) rest 0 false []
      obtain ⟨t, hex, hfail, hout, -⟩ := decode_error herr
      exact ⟨t, hex, hfail, hout⟩

/-! ## Pad bits -/

/-- ERRINFO of a BitString that ended inside a walk is BITLEN, which is far below bit 31 (R6,
R147). -/
theorem exhausted_info {s : State} (hd : s.DataOk) :
    (CmdError.malformedBitStream false s.bitString.length).info = s.bitLen := by
  have hlen := bitlen s
  obtain ⟨hcap, hmax, -⟩ := bitString_length_le hd
  apply BitVec.eq_of_toNat_eq
  rw [CmdError.info, BitVec.toNat_append, BitVec.toNat_ofNat, hlen,
    Nat.mod_eq_of_lt (by omega)]
  simp

/-- Whole codes and then zeros: the symbols, as many copies of the leftmost one as its code goes into
the zeros, and an error when some are left over (R127). -/
theorem decodeBits_spells_zeros {cap : Nat} {ns : List TreeNode} {root : Word} {T : HTree}
    (hT : Represents ns root T) (htwo : 2 ≤ T.leafCount) {xs : List Word} {bs : List Bool}
    (hspells : Spells T.table xs bs) {p : Nat} (hfit : xs.length + p / T.leftDepth ≤ cap) :
    decodeBits cap ns root (bs ++ List.replicate p false) =
      if p % T.leftDepth = 0 then .ok (xs ++ List.replicate (p / T.leftDepth) T.leftmost)
      else .error (.malformedBitStream false (bs ++ List.replicate p false).length) := by
  obtain ⟨n, hn⟩ := hT.node
  rw [decodeBits_of_root hn, decodeFrom_spells hT hn htwo hspells _ _ _
    (by simpa using Nat.le_of_add_right_le hfit),
    decodeFrom_zeros hT hn htwo p _ _ (by simpa using hfit)]
  simp

/-- Settles O58: what the loop answers is `decodeBits_spells_zeros`; the two clauses are its two
branches. -/
theorem decodeOverReadsPadBits : Obligations.DecodeOverReadsPadBits := by
  intro s T xs bs p ha hT htwo hspells hbits _ _ hfit
  have hrun := decodeBits_spells_zeros hT htwo hspells hfit
  rw [← hbits] at hrun
  by_cases hdiv : p % T.leftDepth = 0
  · rw [if_pos hdiv] at hrun
    obtain ⟨t, hex, hsucc, -, hout, -⟩ := decode_ok ha hrun
    exact ⟨t, hex, fun _ => ⟨hsucc, hout⟩, absurd hdiv⟩
  · rw [if_neg hdiv] at hrun
    obtain ⟨t, hex, hfail, hout, -⟩ := decode_error hrun
    rw [exhausted_info ha.inv.toDataOk] at hfail
    exact ⟨t, hex, fun h => absurd h hdiv, fun _ => ⟨hfail, hout⟩⟩

end Sys2Proof.Machine
end

section
/-! PROOF. NOP and CLEAR (R130, R131), the commands whose bodies cannot fail. -/

namespace Sys2Proof.Machine

/-- Completing an accepted command from a state with the flags and the error registers of acceptance
is a success: acceptance has cleared them (R66). -/
theorem State.Accepted.complete_succeeds {i : Instr} {s u : State} (ha : s.Accepted i)
    (hstatus : u.status = s.status) (hcode : u.errCode = s.errCode)
    (hinfo : u.errInfo = s.errInfo) : Succeeded u.complete := by
  obtain ⟨herr0, -, hcode0, hinfo0⟩ := ha.clear
  have herr : u.status.err = false := by rw [hstatus, herr0]
  exact ⟨rfl, rfl, herr, hcode.trans hcode0, hinfo.trans hinfo0⟩

/-- Settles O31: NOP is completion alone, which touches the flags only (`touches_complete`); OP and
STAGE stand as acceptance has set them. -/
theorem nopCompletes : Obligations.NopCompletes := by
  intro s ha
  have hstage : s.status.stage = opcodeOf .nop := ha.stage (by decide)
  exact ⟨s.complete, rfl, ha.complete_succeeds rfl rfl rfl, ha.op, hstage,
    (touches_complete s).frame⟩

/-- Settles O32: CLEAR is `clearAll` and completion; `clearAll` empties every length and ROOT, writes
no word and touches no control state (`clearAll_spec`). -/
theorem clearCompletes : Obligations.ClearCompletes := by
  intro s ha
  obtain ⟨htouch, -, hstatus, hcode, hinfo⟩ := clearAll_spec ha.inv.toDataOk
  have hlen (sp : Space) : (clearAll s).complete.len sp = 0 := by simp [clearAll_len]
  have hword (sp : Space) (a : Nat) : (clearAll s).complete.word sp a = s.word sp a := by
    simp [clearAll_word]
  have hstage : (clearAll s).complete.status.stage = s.status.stage := by
    simp [Status.complete, hstatus]
  exact ⟨(clearAll s).complete, rfl, ha.complete_succeeds hstatus hcode hinfo, hlen,
    clearAll_root s, hword, htouch.control.trans (touches_complete _).control, hstage⟩

end Sys2Proof.Machine
end

section
/-! PROOF. What the outcome of a command depends on and what a success writes (R148, R149), a word
that is no command (R146), and the interrupt line (R155). -/

namespace Sys2Proof.Machine

/-! ## Two states that agree on a command's sources (R148) -/

/-- COMPRESS begins on two states with the same text as a pair with nothing delivered yet. Where
STAGE stands before does not matter, for the first stage writes it anew. -/
theorem samePair_start {s t : State} (hs : s.Accepted .compress) (ht : t.Accepted .compress)
    (hp : s.params = t.params) (htext : s.text = t.text) :
    SamePair [] (s.setStage 1) (t.setStage 1) := by
  obtain ⟨herr, -, hcode, hinfo⟩ := hs.clear
  obtain ⟨herr', -, hcode', hinfo'⟩ := ht.clear
  exact
    { ok_left := hs.inv.toDataOk.setStage 1
      ok_right := ht.inv.toDataOk.setStage 1
      params := hp
      text := htext
      err := herr.trans herr'.symm
      code := hcode.trans hcode'.symm
      info := hinfo.trans hinfo'.symm
      stage := rfl
      same := fun _ hsp => (List.not_mem_nil hsp).elim
      root := fun hn => (List.not_mem_nil hn).elim }

/-- The order of the stages: each finds its sources among what those before it have delivered. -/
theorem readyAll_order : ReadyAll [] CompressStage.order := by
  simp [ReadyAll, CompressStage.order, CompressStage.Ready, CompressStage.dest]

/-- Settles O29: a command with one destination does the same on both sides, because its body does
(`exec_single_same`); COMPRESS keeps a pair of states through its stages (`SamePair.runStages`);
NOP and CLEAR succeed on every state, and CLEAR leaves no word below a length. -/
theorem outcomeIsDeterminedBySources : Obligations.OutcomeIsDeterminedBySources := by
  intro i s t hs ht hp hsrc
  have hd := hs.inv.toDataOk
  cases i
  case nop =>
    obtain ⟨s', hex, ⟨-, -, herr, hcode, hinfo⟩, -, hstage, -⟩ := nopCompletes s hs
    obtain ⟨t', hex', ⟨-, -, herr', hcode', hinfo'⟩, -, hstage', -⟩ := nopCompletes t ht
    exact ⟨s', t', hex, hex', herr.trans herr'.symm, hcode.trans hcode'.symm,
      hinfo.trans hinfo'.symm, hstage.trans hstage'.symm,
      fun _ hsp => (List.not_mem_nil hsp).elim, nofun⟩
  case clear =>
    obtain ⟨s', hex, ⟨-, -, herr, hcode, hinfo⟩, hlen, hroot, -, -, hstage⟩ := clearCompletes s hs
    obtain ⟨t', hex', ⟨-, -, herr', hcode', hinfo'⟩, hlen', hroot', -, -, hstage'⟩ :=
      clearCompletes t ht
    have hsame : s.status.stage = t.status.stage :=
      (hs.stage (by decide)).trans (ht.stage (by decide)).symm
    refine ⟨s', t', hex, hex', herr.trans herr'.symm, hcode.trans hcode'.symm,
      hinfo.trans hinfo'.symm, hstage.trans (hsame.trans hstage'.symm),
      fun sp _ => ⟨(hlen sp).trans (hlen' sp).symm, fun a ha => ?_⟩,
      fun _ => hroot.trans hroot'.symm⟩
    rw [hlen] at ha
    simp at ha
  case compress =>
    obtain ⟨herr, hcode, hinfo, hstage, hsame, hroot⟩ :=
      (samePair_start hs ht hp hsrc).runStages readyAll_order
    refine ⟨_, _, exec_compress s, exec_compress t, herr, hcode, hinfo, hstage,
      fun sp hsp => ⟨(hsame sp hsp).1, fun a ha => (hsame sp hsp).2 a ?_⟩,
      fun _ => hroot (by decide)⟩
    rwa [runStages_params]
  case freq =>
    exact exec_single_same hs ht (by decide) hp rfl rfl rfl nofun (freqBody_same hd hp hsrc)
  case build =>
    exact exec_single_same hs ht (by decide) hp rfl rfl rfl (fun _ => rfl) (buildBody_same hd hsrc)
  case codes =>
    obtain ⟨hnodes, hroot⟩ := hsrc
    exact exec_single_same hs ht (by decide) hp rfl rfl rfl nofun
      (codesBody_same hd hp hnodes hroot)
  case encode =>
    obtain ⟨htext, htable⟩ := hsrc
    exact exec_single_same hs ht (by decide) hp rfl rfl rfl nofun
      (encodeBody_same hd hp htext htable)
  case pack =>
    exact exec_single_same hs ht (by decide) hp rfl rfl rfl nofun (packBody_same hd hsrc)
  case unpack =>
    exact exec_single_same hs ht (by decide) hp rfl rfl rfl nofun (unpackBody_same hd hsrc)
  case toHex =>
    exact exec_single_same hs ht (by decide) hp rfl rfl rfl nofun (toHexBody_same hd hsrc)
  case decode =>
    obtain ⟨hbits, hnodes, hroot⟩ := hsrc
    exact exec_single_same hs ht (by decide) hp rfl rfl rfl nofun
      (decodeBody_same hd hp hbits hnodes hroot)

/-! ## A command that succeeds (R149) -/

/-- A COMPRESS that succeeded has written each destination below its new length only. -/
theorem compress_succeeds_sameAbove {s t : State} (ha : s.Accepted .compress)
    (hex : exec .compress s = .next t) (herr : t.status.err = false) :
    ∀ sp ∈ dests .compress, SameAbove sp s t := by
  obtain ⟨-, -, -, -, u, -, -, -, -, hran, rfl, -⟩ := compress_ok ha hex herr
  obtain ⟨-, -, -, habove⟩ := ran_done ha hran
  intro sp hsp
  have hstage : sp ∈ CompressStage.order.map CompressStage.dest := hsp
  obtain ⟨st, -, rfl⟩ := List.mem_map.1 hstage
  exact habove st

/-- A command that succeeded has written each destination below its new length only; CLEAR has
written no word at all. -/
theorem exec_succeeds_sameAbove {i : Instr} {s t : State} (ha : s.Accepted i)
    (hex : exec i s = .next t) (herr : t.status.err = false) :
    ∀ sp ∈ dests i, SameAbove sp s t := by
  by_cases hcompress : i = .compress
  · subst hcompress
    exact compress_succeeds_sameAbove ha hex herr
  by_cases hnop : i = .nop
  · subst hnop
    exact fun _ hsp => (List.not_mem_nil hsp).elim
  by_cases hclear : i = .clear
  · exact fun sp _ a _ => exec_word ha hex (.inl hclear) a
  obtain ⟨dest, body, hbody, hdests, hok, -⟩ :=
    exec_oneDest i ha.inv.toDataOk hnop hclear hcompress
  obtain rfl : s.runBody dest body = t := Host.Outcome.next.inj (hbody.symm.trans hex)
  intro sp hsp
  obtain rfl : sp = dest := List.mem_singleton.1 (hdests ▸ hsp)
  cases h : body s with
  | ok u =>
    obtain ⟨hrun, -, -, -, habove⟩ := runBody_succeeds ha hcompress h (hok u h)
    rwa [hrun]
  | error e =>
    obtain ⟨hrun, hfail, -⟩ := runBody_fails (dest := sp) h
    rw [hrun] at herr
    cases herr.symm.trans (failedAs_err hfail)

/-- Settles O26: the frame is `exec_accepted`, and a completion without ERR is a success; above its
new length each destination is as before (`exec_succeeds_sameAbove`). -/
theorem successWritesDestinationsOnly : Obligations.SuccessWritesDestinationsOnly := by
  intro i s t ha hex herr
  obtain ⟨t', hex', -, htouch, -, -, -, hend⟩ := exec_accepted ha
  cases hex.symm.trans hex'
  refine ⟨htouch.control, htouch.outside, exec_succeeds_sameAbove ha hex herr,
    writesRoot_frame htouch, hend.resolve_right ?_⟩
  rintro ⟨e, hfail⟩
  cases herr.symm.trans (failedAs_err hfail)

/-! ## A word that is no command (R146) -/

/-- The engine's event on an idle block changes nothing but the inbox it is taken from. -/
theorem step_engine_idle {s : State} (hb : s.status.busy = false) (rest : List PortEvent) :
    step { s with inbox := .engine :: rest } = .next { s with inbox := rest } := by
  rw [step_event rfl]
  exact engineStep_idle (s := { s with inbox := rest }) hb

/-- Settles O17: the write is the acceptance of an illegal word, which completes at once with
IllegalCommand and moves no data; the block stays idle, so the engine does nothing. -/
theorem illegalWordIsRecorded : Obligations.IllegalWordIsRecorded := by
  intro s w hb hillegal
  obtain ⟨hidle, -, -, hcode, hinfo⟩ := accept_illegal_failedAs s (illegal_iff w hillegal)
  exact ⟨s.accept w, hostWrite_cmd_idle hb w, hcode, hinfo, State.accept_word s w,
    State.accept_len s w, State.accept_root s w, step_engine_idle hidle⟩

/-! ## The interrupt line (R155) -/

/-- Settles O20: the host may read CTRL and STATUS in every state, and the two bits are the fields
`ie` and `done` (`ctrl_word`, `status_word`). -/
theorem interruptLine : Obligations.InterruptLine := by
  intro s
  have hctrl : s.hostRead (addressOf 0 0x05) = some s.ctrl.word := hostRead_readableBusy rfl rfl rfl
  have hstatus : s.hostRead (addressOf 0 0x02) = some s.status.word :=
    hostRead_readableBusy rfl rfl rfl
  obtain ⟨hie, -⟩ := ctrl_word s.ctrl
  obtain ⟨-, hdone, -⟩ := status_word s.status
  rw [State.irq, Bool.and_eq_true, ← hie, ← hdone]
  constructor
  · rintro ⟨hbit0, hbit1⟩
    exact ⟨_, _, hctrl, hstatus, hbit0, hbit1⟩
  · rintro ⟨c, f, hc, hf, hbit0, hbit1⟩
    obtain rfl := Option.some.inj (hctrl.symm.trans hc)
    obtain rfl := Option.some.inj (hstatus.symm.trans hf)
    exact ⟨hbit0, hbit1⟩

end Sys2Proof.Machine
end
